-- ==== Sys2Proof/Word.lean ====
section
/-! DEFINITION. The word and byte types of JFP-EDM (00_scope.md R13). -/

namespace Sys2Proof

/-- A word: a 32-bit unsigned integer (R13). A value of the codecs is a word. -/
abbrev Word := BitVec 32

/-- A byte: an 8-bit unsigned integer, always read unsigned (R13, D15). -/
abbrev Byte := BitVec 8

end Sys2Proof
end

