-- ==== Sys2Proof/Config.lean ====
section
/-! DEFINITION. Constants, build parameters, the open Simple16 coder and the free values
(00_scope.md R7 to R9, R11, R18; 44_optpfd.md R201 to R203). -/

namespace Sys2Proof

/-- `BLOCK_SIZE`, the number of values in a block (R7). -/
def Config.blockSize : Nat := 128

/-- `GROUP`, the number of values `pack32` packs at a time (R7). -/
def Config.group : Nat := 32

/-- `OVERHEAD_OF_EACH_EXCEPT`, in bits (R7, 90_conflicts.md C5). -/
def Config.overheadOfEachExcept : Nat := 8

/-- `DEFAULT_PAGE_SIZE` (R7). -/
def Config.defaultPageSize : Nat := 65536

/-- `OPD_PAGE_SIZE`, whatever `PAGE_SIZE` is (R7, R8). -/
def Config.opdPageSize : Nat := 65536

/-- What is fixed when the block is built (R8, R9). `pageBlocks` is the number of blocks of a page
less one, so that every value of this record is one admitted build: `PAGE_SIZE` a multiple of 128
from 128 to 65536, each memory of at most `2^32 - 1` words. DESIGN CHOICE, log entry 4. -/
structure Params where
  pageBlocks : Fin 512
  srcLen : Word
  dstLen : Word
deriving DecidableEq, Repr

/-- The build `State.reset` stands for: the default page size (R8) and, DESIGN CHOICE (log entry 4),
the longest memories R9 admits. -/
def Config.params : Params := ⟨511, 0xFFFFFFFF, 0xFFFFFFFF⟩

/-- The Simple16 coder as the spec types it (R201): three pure functions. `uncompress ws m n` is the
`n` words decoded from the `m` words `ws`, or `none` for the result *fail*. -/
structure S16 where
  estimate : List Word → Nat → Nat
  compress : List Word → Nat → List Word
  uncompress : List Word → Nat → (n : Nat) → Option (Vector Word n)

/-- The words a list must be made of for the named properties of S16 to apply: each below `2^28`
(R202). -/
def S16.codable (xs : List Word) : Prop := ∀ x ∈ xs, x.toNat < 2 ^ 28

/-- `S16_ROUNDTRIP` (R202). -/
def S16.Roundtrip (S : S16) : Prop :=
  ∀ n, n ≤ 256 → ∀ xs : List Word, xs.length = n → S16.codable xs →
    (S.uncompress (S.compress xs n) (S.compress xs n).length n).map Vector.toList = some xs

/-- `S16_EMPTY` (R202). -/
def S16.Empty (S : S16) : Prop := ∀ xs, S.estimate xs 0 = 0 ∧ S.compress xs 0 = []

/-- `S16_LEN` (R202). -/
def S16.Len (S : S16) : Prop :=
  ∀ n, n ≤ 256 → ∀ xs : List Word, xs.length = n → S16.codable xs →
    (S.compress xs n).length ≤ n ∧ S.estimate xs n ≤ n

/-- `S16_TOY`, the stand-in of the spec's worked examples (R203). It is not Simple16. -/
def S16.toy : S16 where
  estimate _ n := n
  compress xs n := xs.take n
  uncompress ws m n := if h : m = n ∧ ws.length = n then some ⟨ws.toArray, by simp [h.2]⟩ else none

/-- `S16.estimate`, OPEN (R201, D17; log entry 5): nothing is known of it. -/
opaque Config.s16Estimate : List Word → Nat → Nat

/-- `S16.compress`, OPEN (R201, D17; log entry 5). -/
opaque Config.s16Compress : List Word → Nat → List Word

/-- `S16.uncompress`, OPEN (R201, D17; log entry 5). -/
opaque Config.s16Uncompress : List Word → Nat → (n : Nat) → Option (Vector Word n)

/-- The block's Simple16 coder (R11). -/
def Config.s16 : S16 := ⟨Config.s16Estimate, Config.s16Compress, Config.s16Uncompress⟩

/-- The free value of the `n`th read of an unspecified word (R18): any word, a new one for every
read. Log entry 2. -/
opaque Config.freeWord : Nat → Word

/-- What an unspecified scratch counter or length would read as (R36, R39). No command reads one
before writing it. Log entry 13. -/
opaque Config.staleCount : Nat → Nat

/-- What an unspecified scratch word would read as (R36, R39). Log entry 13. -/
opaque Config.staleWord : Nat → Word

/-- What an unspecified scratch byte would read as (R36, R39). Log entry 13. -/
opaque Config.staleByte : Nat → Byte

end Sys2Proof
end

