-- ==== Sys2Proof/Syntax.lean ====
section
/-! DEFINITION. The commands of JFP-EDM, one constructor per row of the opcode table
(30_encoding.md R72). -/

namespace Sys2Proof

/-- The thirteen commands (R72). `w` is the unsigned 6-bit immediate `W`, a number `0..63` (R71). -/
inductive Instr where
  /-- `SRESET` (45_system.md R240). -/
  | sreset
  /-- `PACK32 w` (40_bitpacking.md R105). -/
  | pack32 (w : BitVec 6)
  /-- `UNPACK32 w` (40_bitpacking.md R106). -/
  | unpack32 (w : BitVec 6)
  /-- `FPF.SELECT` (41_fastpfor_selector.md R120). -/
  | fpfSelect
  /-- `FPF.ENCPAGE` (42_fastpfor_encode.md R140). -/
  | fpfEncpage
  /-- `FPF.DECPAGE` (43_fastpfor_decode.md R170). -/
  | fpfDecpage
  /-- `FPF.COMPRESS` (42_fastpfor_encode.md R150). -/
  | fpfCompress
  /-- `FPF.UNCOMPRESS` (43_fastpfor_decode.md R180). -/
  | fpfUncompress
  /-- `OPD.SELECT` (44_optpfd.md R205). -/
  | opdSelect
  /-- `OPD.ENCPAGE` (44_optpfd.md R210). -/
  | opdEncpage
  /-- `OPD.DECPAGE` (44_optpfd.md R220). -/
  | opdDecpage
  /-- `OPD.COMPRESS` (44_optpfd.md R215). -/
  | opdCompress
  /-- `OPD.UNCOMPRESS` (44_optpfd.md R225). -/
  | opdUncompress
deriving DecidableEq, Repr

end Sys2Proof
end

