-- ==== Sys2Proof/Machine/State.lean ====
section
/-! DEFINITION. The state of JFP-EDM as plain data (10_state.md R20 to R39, 20_memory.md R50), its
fault causes, and the state after reset. -/

namespace Sys2Proof.Machine

/-- A sparse array: the elements that hold a specified value, as (index, element) pairs with strictly
rising indices. An element not listed is UNSPECIFIED (00_scope.md R18). Log entry 2. -/
abbrev Arr (α : Type) := List (Nat × α)

/-- A memory: 32-bit words at word indices, the smallest unit the spec ever transfers
(20_memory.md R50, R53). Log entry 1. -/
abbrev Memory := Arr Word

/-- What a register that commands may leave unspecified holds (10_state.md R22, 60_exceptions.md
R251): a word, or no specified value. -/
inductive Content where
  /-- The register holds this word. -/
  | known (w : Word)
  /-- The register's value is unspecified: each read of it draws a new free value (00_scope.md R18). -/
  | unspecified
deriving DecidableEq, Repr

/-- The scratch state (10_state.md R30 to R35). `bk` holds `BK[k][j]` at index `65536 * k + j`. -/
structure Scratch where
  /-- `FREQS[0..32]` (R30). -/
  freqs : Arr Nat
  /-- `DP[0..32]` (R31). -/
  dp : Arr Nat
  /-- `BSIZE[1..32]` (R32). -/
  bsize : Arr Nat
  /-- `BK[1..32][0 .. BUCKET_CAP - 1]` (R33). -/
  bk : Arr Word
  /-- `BB[0 .. BYTEBUF_CAP - 1]` (R34). -/
  bb : Arr Byte
  /-- `BBLEN` (R34), `none` where it is unspecified. -/
  bblen : Option Nat
  /-- `BBPOS` (R34), `none` where it is unspecified. -/
  bbpos : Option Nat
  /-- `EB[0 .. 255]` (R35). -/
  eb : Arr Word
deriving DecidableEq, Repr

/-- Every scratch element unspecified (10_state.md R36, R39). -/
def Scratch.unspecified : Scratch := ⟨[], [], [], [], [], none, none, []⟩

/-- What the host can do between commands (45_system.md R241 to R243, 20_memory.md R52,
70_reset_and_hazards.md R280). Log entry 6. -/
inductive HostOp where
  /-- `WR`: write a value to a register number; number 0, `CMD`, issues a command (R242). -/
  | wr (reg : Nat) (value : Word)
  /-- `RD`: read a register number (R241). -/
  | rd (reg : Nat)
  /-- Write a word of `SRC` (R52). -/
  | writeSrc (index : Nat) (value : Word)
  /-- Write a word of `DST` (R52). -/
  | writeDst (index : Nat) (value : Word)
  /-- Read a word of `SRC` (R52). -/
  | readSrc (index : Nat)
  /-- Read a word of `DST` (R52). -/
  | readDst (index : Nat)
  /-- Assert hardware reset (R280). -/
  | hardReset
deriving DecidableEq, Repr

/-- The causes of a JFP-EDM fault (60_exceptions.md R253). A JFP-EDM fault is an exception the machine
takes: it leads to a next state, never to a `Fault` of the model. -/
inductive Cause where
  | illegalCommand
  | srcBounds
  | dstBounds
  | badWidth
  | badMaxb
  | badExceptCount
  | badPosition
  | bytebufOverrun
  | bucketOverrun
  | badCount
  | badOptHeader
  | badParam
  | s16Fault
deriving DecidableEq, Repr

/-- The whole state of the block (10_state.md R20), with three fields of the model's own at the
end. -/
structure State where
  /-- Registers 11 to 13, constant: the parameters of this build (R28; log entry 4). -/
  params : Params
  /-- `STATUS`, register 1; bit 0 is `FAULT` (R25). -/
  status : Word
  /-- `FCAUSE`, register 2 (R26). -/
  fcause : Word
  /-- `FINFO`, register 3 (R26). -/
  finfo : Word
  /-- `INPOS`, register 4 (R21). -/
  inpos : Content
  /-- `OUTPOS`, register 5 (R21). -/
  outpos : Content
  /-- `INLEN`, register 6 (R21). -/
  inlen : Word
  /-- `THISSIZE`, register 7 (R21). -/
  thissize : Word
  /-- `BESTB`, register 8 (R22). -/
  bestb : Content
  /-- `CEXCEPT`, register 9 (R22). -/
  cexcept : Content
  /-- `MAXB`, register 10 (R22). -/
  maxb : Content
  /-- The scratch state (R30 to R37). -/
  scratch : Scratch
  /-- `SRC` (20_memory.md R50). -/
  src : Memory
  /-- `DST` (20_memory.md R50). -/
  dst : Memory
  /-- The model's own: the host's pending actions, oldest first (log entry 6). -/
  host : List HostOp
  /-- The model's own: the value the host's last read returned (log entry 7). -/
  rdata : Word
  /-- The model's own: how many free values have been drawn (log entry 3). -/
  tick : Nat
deriving DecidableEq, Repr

/-- Why a step of the model stops. No command ends in one: JFP-EDM's own faults are next states. -/
inductive Fault where
  /-- Raised by the host's `readSrc` and `writeSrc` at an index `SRC` does not have
  (00_scope.md R9, 20_memory.md R50). Safe: the word does not exist. Log entry 8. -/
  | noSuchSrcWord (index : Nat)
  /-- Raised by the host's `readDst` and `writeDst` at an index `DST` does not have
  (00_scope.md R9, 20_memory.md R50). Safe: the word does not exist. Log entry 8. -/
  | noSuchDstWord (index : Nat)
deriving DecidableEq, Repr

/-- Why the model gives a command no meaning. -/
inductive Refusal where
  /-- Raised by `exec` for a command without a meaning; every command has one, so nothing raises it.
  Safe: nothing can be proved of such a step. -/
  | notModelled (mnemonic : String)
deriving DecidableEq, Repr

/-- The block after hardware reset at power-up, for a build `p` (10_state.md R39,
70_reset_and_hazards.md R280): registers 1 to 10 are 0, scratch and both memories unspecified, no
host action pending. -/
def State.powerUp (p : Params) : State where
  params := p
  status := 0
  fcause := 0
  finfo := 0
  inpos := .known 0
  outpos := .known 0
  inlen := 0
  thissize := 0
  bestb := .known 0
  cexcept := .known 0
  maxb := .known 0
  scratch := Scratch.unspecified
  src := []
  dst := []
  host := []
  rdata := 0
  tick := 0

/-- The machine right after reset (10_state.md R39). The build is `Config.params` (log entry 4). -/
def State.reset : State := State.powerUp Config.params

end Sys2Proof.Machine
end

