-- ==== Sys2Proof/Machine/Flags.lean ====
section
/-! DEFINITION. `STATUS` and its one flag, and the cause codes (10_state.md R25, R26;
60_exceptions.md R253). There are no condition codes, carries or predicates (R25). -/

namespace Sys2Proof.Machine

/-- `STATUS.FAULT`, bit 0 of `STATUS` (R25). -/
def State.faulted (s : State) : Bool := s.status.getLsbD 0

/-- What a read of `STATUS` returns: bits 31:1 read as 0 (R25). -/
def State.statusRead (s : State) : Word := s.status &&& 1

/-- `STATUS.FAULT <- 1` (60_exceptions.md R250); the other bits keep their value. -/
def setFault (status : Word) : Word := status ||| 1

/-- The number `FCAUSE` holds for each cause (60_exceptions.md R253). -/
def causeCode (c : Cause) : Nat :=
  match c with
  | .illegalCommand => 1
  | .srcBounds => 2
  | .dstBounds => 3
  | .badWidth => 4
  | .badMaxb => 5
  | .badExceptCount => 6
  | .badPosition => 7
  | .bytebufOverrun => 8
  | .bucketOverrun => 9
  | .badCount => 10
  | .badOptHeader => 11
  | .badParam => 12
  | .s16Fault => 13

/-- The causes that are raised before a command has read or written anything, after which nothing
but `STATUS`, `FCAUSE` and `FINFO` changes (60_exceptions.md R251(c)). -/
def causeIsEarly (c : Cause) : Bool :=
  match c with
  | .illegalCommand => true
  | .badParam => true
  | .srcBounds => false
  | .dstBounds => false
  | .badWidth => false
  | .badMaxb => false
  | .badExceptCount => false
  | .badPosition => false
  | .bytebufOverrun => false
  | .bucketOverrun => false
  | .badCount => false
  | .badOptHeader => false
  | .s16Fault => false

end Sys2Proof.Machine
end

