-- ==== Sys2Proof/Machine/Operands.lean ====
section
/-! DEFINITION. The functions on words, bytes and widths every command uses, the derived capacities
and the width tables (00_scope.md R10, R12, R14; 20_memory.md R53; 40_bitpacking.md R101, R102). -/

namespace Sys2Proof.Machine

/-- `PAGE_SIZE` in values (R8). -/
def pageSize (p : Params) : Nat := 128 * (p.pageBlocks.val + 1)

/-- `BYTEBUF_CAP` in bytes: `4 * ceil((3 * PAGE_SIZE / 128 + PAGE_SIZE) / 4)` (R10). -/
def byteBufCap (p : Params) : Nat := 4 * ((3 * pageSize p / 128 + pageSize p + 3) / 4)

/-- `BUCKET_CAP`, the words of one exception bucket (R10). -/
def bucketCap (p : Params) : Nat := pageSize p

/-- `ceil(n / d)` for `d > 0`. -/
def ceilDiv (n d : Nat) : Nat := (n + d - 1) / d

/-- `bitlen(v)`: the number of bits `v` needs, 0 for 0 (R14). -/
def bitlen (v : Word) : Nat := if v.toNat = 0 then 0 else v.toNat.log2 + 1

/-- `low(v, b) = v mod 2^b` (R14). -/
def low (v : Word) (b : Nat) : Nat := v.toNat % 2 ^ b

/-- `high(v, b) = floor(v / 2^b)` (R14). -/
def high (v : Word) (b : Nat) : Nat := v.toNat / 2 ^ b

/-- `shl32(v, b) = (v * 2^b) mod 2^32` (R14). -/
def shl32 (v : Word) (b : Nat) : Word := BitVec.ofNat 32 (v.toNat * 2 ^ b)

/-- The natural number a list of digits stands for, first digit least significant, each digit less
than `2^w`: the sum of `ds[i] * 2^(i*w)` (R101). -/
def bitString (w : Nat) : List Nat → Nat
  | [] => 0
  | d :: ds => d + 2 ^ w * bitString w ds

/-- `pack32(v, w)`: the values cut to `w` bits, laid end to end, value 0 first and least significant
bit first, as `w` words (R101). The bit order is UNVERIFIED, log entry 10. -/
def pack32 (v : List Word) (w : Nat) : List Word :=
  let S := bitString w (v.map (low · w))
  (List.range w).map fun j => BitVec.ofNat 32 (S / 2 ^ (32 * j))

/-- `unpack32(o, w)`: the 32 fields of `w` bits of the bit string the words `o` make (R102). -/
def unpack32 (o : List Word) (w : Nat) : List Word :=
  let S := bitString 32 (o.map BitVec.toNat)
  (List.range 32).map fun i => BitVec.ofNat 32 (S / 2 ^ (i * w) % 2 ^ w)

/-- `word_of_bytes(y0, y1, y2, y3)`, little-endian (20_memory.md R53). -/
def wordOfBytes (y0 y1 y2 y3 : Byte) : Word :=
  BitVec.ofNat 32 (y0.toNat + 256 * y1.toNat + 65536 * y2.toNat + 16777216 * y3.toNat)

/-- `bytes_of_word(w)` in byte-buffer index order (20_memory.md R53). -/
def bytesOfWord (w : Word) : List Byte :=
  [BitVec.ofNat 8 w.toNat, BitVec.ofNat 8 (w.toNat / 2 ^ 8),
   BitVec.ofNat 8 (w.toNat / 2 ^ 16), BitVec.ofNat 8 (w.toNat / 2 ^ 24)]

/-- The OptPFD width table `B[0..16]` (00_scope.md R12). -/
def widthTable : List Nat := [0, 1, 2, 3, 4, 5, 6, 7, 8, 9, 10, 11, 12, 13, 16, 20, 32]

/-- `B[i]` (R12), for `i` in `0..16`; no command asks for another index. -/
def widthOf (i : Nat) : Nat := widthTable.getD i 32

/-- `invbits[mb]`: the smallest index whose width holds `mb` bits, for `mb` in `0..32` (R12). -/
def invbits (mb : Nat) : Nat :=
  if mb ≤ 13 then mb else if mb ≤ 16 then 14 else if mb ≤ 20 then 15 else 16

/-- The group `blk[32g .. 32g+31]` of a block. -/
def groupOf (blk : List Word) (g : Nat) : List Word := (blk.drop (32 * g)).take 32

end Sys2Proof.Machine
end

