-- ==== Sys2Proof/Machine/Ops.lean ====
section
/-! DEFINITION. The named operations over arrays, memories and registers; taking a fault and the
return from one; the frame every command runs in (00_scope.md R15; 20_memory.md R55, R56;
45_system.md R240; 60_exceptions.md R250 to R252). -/

namespace Sys2Proof.Machine

/-! ### Sparse arrays -/

/-- The specified value of element `a`, or `none` where the element is unspecified. -/
def Arr.get? {α : Type} (m : Arr α) (a : Nat) : Option α :=
  match m with
  | [] => none
  | (k, v) :: rest => if k = a then some v else Arr.get? rest a

/-- The cells of a list of elements placed at indices `a, a+1, ...`. -/
def Arr.cells {α : Type} (a : Nat) (vs : List α) : Arr α :=
  match vs with
  | [] => []
  | v :: rest => (a, v) :: Arr.cells (a + 1) rest

/-- The array after elements `a .. a + length - 1` took the values of a list. -/
def Arr.write {α : Type} (m : Arr α) (a : Nat) (vs : List α) : Arr α :=
  m.filter (fun c => decide (c.1 < a)) ++ Arr.cells a vs ++
    m.filter (fun c => decide (a + vs.length ≤ c.1))

/-- The array with every element at index `a` and above unspecified. -/
def Arr.forget {α : Type} (m : Arr α) (a : Nat) : Arr α := m.filter (fun c => decide (c.1 < a))

/-- The canonical form: strictly rising indices, each below `len`. An unlisted element has no value
of its own, so no entry can equal one. -/
def Arr.wf {α : Type} (m : Arr α) (len : Nat) : Bool :=
  match m with
  | [] => true
  | (k, _) :: rest => decide (k < len) && rest.all (fun c => decide (k < c.1)) && Arr.wf rest len

/-- The canonical form of a memory of `len` words: strictly rising word indices, each below `len`. -/
def Memory.wf (m : Memory) (len : Nat) : Bool := Arr.wf m len

/-! ### Free values -/

/-- What reading an element gives: its value, or the free value `free` where it is unspecified
(00_scope.md R18). -/
def drawn (v : Option Word) (free : Word) : Word :=
  match v with
  | some w => w
  | none => free

/-- What reading a register's content gives. -/
def Content.read (c : Content) (free : Word) : Word :=
  match c with
  | .known w => w
  | .unspecified => free

/-- `n` free values are used up, so that every later read of an unspecified place draws another. -/
def State.draw (s : State) (n : Nat) : State := { s with tick := s.tick + n }

/-! ### The working state of a running command -/

/-- A command in progress: the machine state and the running positions in `SRC` and `DST`
(`ip`, `lp`, `mp` and `op` of the pseudocode, unbounded naturals, R13). -/
structure Work where
  s : State
  ip : Nat
  op : Nat

/-- A fault on its way to being taken: cause, information value, and how many free values were drawn
up to the `raise` (R250). -/
structure Trap where
  cause : Cause
  info : Nat
  tick : Nat
deriving DecidableEq, Repr

/-- `raise Fault(CAUSE, info)` (R250): no later step of the pseudocode is performed. -/
def Work.trap {α : Type} (w : Work) (c : Cause) (info : Nat) : Except Trap α :=
  .error ⟨c, info, w.s.tick⟩

/-- `if not ok: raise Fault(CAUSE, info)`. -/
def Work.check (w : Work) (ok : Bool) (c : Cause) (info : Nat) : Except Trap Unit :=
  if ok then .ok () else w.trap c info

/-- The command's start: operand cursors are sampled (70_reset_and_hazards.md R294). An unspecified
cursor gives a free value (DESIGN CHOICE, log entry 15). -/
def State.start (s : State) : Work :=
  ⟨s.draw 2, (s.inpos.read (Config.freeWord s.tick)).toNat,
    (s.outpos.read (Config.freeWord (s.tick + 1))).toNat⟩

/-- Change the scratch state of a running command. -/
def Work.onScratch (w : Work) (f : Scratch → Scratch) : Work :=
  { w with s := { w.s with scratch := f w.s.scratch } }

/-- The words `a .. a+n-1` of a memory as the `n` reads from `tick` on return them. -/
def readWords (m : Memory) (a n tick : Nat) : List Word :=
  (List.range n).map fun j => drawn (m.get? (a + j)) (Config.freeWord (tick + j))

/-- `MemRead(SRC, a, n)` (00_scope.md R15, 20_memory.md R55). -/
def Work.readSrc (w : Work) (a n : Nat) : Except Trap (List Word × Work) :=
  if n = 0 ∨ a + n ≤ w.s.params.srcLen.toNat then
    .ok (readWords w.s.src a n w.s.tick, { w with s := w.s.draw n })
  else w.trap .srcBounds (a + n - 1)

/-- `MemRead(SRC, a)`: a single word (00_scope.md R15). -/
def Work.readSrc1 (w : Work) (a : Nat) : Except Trap (Word × Work) :=
  if a + 1 ≤ w.s.params.srcLen.toNat then
    .ok (drawn (w.s.src.get? a) (Config.freeWord w.s.tick), { w with s := w.s.draw 1 })
  else w.trap .srcBounds a

/-- `MemRead(DST, a)`: a single word (20_memory.md R51, R56). -/
def Work.readDst1 (w : Work) (a : Nat) : Except Trap (Word × Work) :=
  if a + 1 ≤ w.s.params.dstLen.toNat then
    .ok (drawn (w.s.dst.get? a) (Config.freeWord w.s.tick), { w with s := w.s.draw 1 })
  else w.trap .dstBounds a

/-- `MemWrite(DST, a, n, ws)` with `n` the length of `ws` (00_scope.md R15, 20_memory.md R56). -/
def Work.writeDst (w : Work) (a : Nat) (ws : List Word) : Except Trap Work :=
  if ws.length = 0 ∨ a + ws.length ≤ w.s.params.dstLen.toNat then
    .ok { w with s := { w.s with dst := w.s.dst.write a ws } }
  else w.trap .dstBounds (a + ws.length - 1)

/-- `MemRead(SRC, ip, n)`, then `ip = ip + n`. -/
def Work.takeSrc (w : Work) (n : Nat) : Except Trap (List Word × Work) := do
  let (ws, w1) ← w.readSrc w.ip n
  .ok (ws, { w1 with ip := w1.ip + n })

/-- `MemRead(SRC, ip)`, then `ip = ip + 1`. -/
def Work.takeSrc1 (w : Work) : Except Trap (Word × Work) := do
  let (x, w1) ← w.readSrc1 w.ip
  .ok (x, { w1 with ip := w1.ip + 1 })

/-- `MemWrite(DST, op, n, ws)`, then `op = op + n`. -/
def Work.putDst (w : Work) (ws : List Word) : Except Trap Work := do
  let w1 ← w.writeDst w.op ws
  .ok { w1 with op := w1.op + ws.length }

/-- `MemWrite(DST, op, x)`, then `op = op + 1`. -/
def Work.putDst1 (w : Work) (x : Word) : Except Trap Work := w.putDst [x]

/-! ### Loops of the pseudocode -/

/-- `n` rounds of a loop body (00_scope.md R15). -/
def iter (body : Work → Except Trap Work) (n : Nat) (w : Work) : Except Trap Work :=
  match n with
  | 0 => .ok w
  | k + 1 => do
    let w1 ← body w
    iter body k w1

/-- A loop over a list of indices, in order (00_scope.md R15). -/
def forEach (body : Nat → Work → Except Trap Work) (ks : List Nat) (w : Work) : Except Trap Work :=
  match ks with
  | [] => .ok w
  | k :: rest => do
    let w1 ← body k w
    forEach body rest w1

/-- `rounds` rounds of the page loop of the facades over `remaining` values, `size` values a page
(42_fastpfor_encode.md R150, R151; 43_fastpfor_decode.md R180, R181). -/
def pageRounds (page : Nat → Work → Except Trap Work) (size rounds remaining : Nat) (w : Work) :
    Except Trap Work :=
  match rounds with
  | 0 => .ok w
  | k + 1 => do
    let w1 ← page (min size remaining) w
    pageRounds page size k (remaining - min size remaining) w1

/-- `while remaining > 0`: there are `ceil(remaining / size)` pages (30_encoding.md R81). -/
def forPages (page : Nat → Work → Except Trap Work) (size remaining : Nat) (w : Work) :
    Except Trap Work :=
  pageRounds page size (ceilDiv remaining size) remaining w

/-! ### The byte buffer and the other scratch arrays -/

/-- `DP[k]`. -/
def Scratch.dpAt (sc : Scratch) (k : Nat) : Nat := (sc.dp.get? k).getD (Config.staleCount k)

/-- `BSIZE[k]`. -/
def Scratch.bsizeAt (sc : Scratch) (k : Nat) : Nat := (sc.bsize.get? k).getD (Config.staleCount k)

/-- Where `BK[k][j]` stands: a bucket has at most 65536 entries (00_scope.md R10). -/
def bkIndex (k j : Nat) : Nat := 65536 * k + j

/-- `BK[k][j]`. -/
def Scratch.bkAt (sc : Scratch) (k j : Nat) : Word :=
  (sc.bk.get? (bkIndex k j)).getD (Config.staleWord (bkIndex k j))

/-- `BB[i]`. -/
def Scratch.bbAt (sc : Scratch) (i : Nat) : Byte := (sc.bb.get? i).getD (Config.staleByte i)

/-- `BBLEN`. -/
def Scratch.bbLen (sc : Scratch) : Nat := sc.bblen.getD (Config.staleCount 0)

/-- `BBPOS`. -/
def Scratch.bbPos (sc : Scratch) : Nat := sc.bbpos.getD (Config.staleCount 0)

/-- `EB[i]`. -/
def Scratch.ebAt (sc : Scratch) (i : Nat) : Word := (sc.eb.get? i).getD (Config.staleWord i)

/-- `for k in 0..32: DP[k] <- 0`. -/
def Scratch.clearDp (sc : Scratch) : Scratch := { sc with dp := sc.dp.write 0 (List.replicate 33 0) }

/-- `BB[BBLEN] <- y ; BBLEN <- BBLEN + 1`. -/
def Scratch.bbPut (sc : Scratch) (y : Byte) : Scratch :=
  { sc with bb := sc.bb.write sc.bbLen [y], bblen := some (sc.bbLen + 1) }

/-- `BK[k][DP[k]] <- v ; DP[k] <- DP[k] + 1`: append to bucket `k`. -/
def Scratch.bkAppend (sc : Scratch) (k : Nat) (v : Word) : Scratch :=
  { sc with bk := sc.bk.write (bkIndex k (sc.dpAt k)) [v], dp := sc.dp.write k [sc.dpAt k + 1] }

/-- `bb_get()` (43_fastpfor_decode.md R179). -/
def bbGet (w : Work) : Except Trap (Byte × Work) :=
  if w.s.scratch.bbPos ≥ w.s.scratch.bbLen then w.trap .bytebufOverrun w.s.scratch.bbPos
  else .ok (w.s.scratch.bbAt w.s.scratch.bbPos,
    w.onScratch fun sc => { sc with bbpos := some (sc.bbPos + 1) })

/-! ### Ending a command -/

/-- The result registers and scratch as every command but `SELECT` and `SRESET` leaves them
(10_state.md R22, R36). -/
def State.closeResults (s : State) : State :=
  { s with bestb := .unspecified, cexcept := .unspecified, maxb := .unspecified,
           scratch := Scratch.unspecified }

/-- Normal completion of a command that moves the cursors. -/
def Work.commit (w : Work) : State :=
  { w.s.closeResults with inpos := .known (BitVec.ofNat 32 w.ip),
                          outpos := .known (BitVec.ofNat 32 w.op) }

/-- Normal completion of a `SELECT`: the result registers are written, the cursors stay
(41_fastpfor_selector.md R120, 44_optpfd.md R205). -/
def Work.commitSelect (w : Work) (b cexcept maxb : Nat) : State :=
  { w.s with bestb := .known (BitVec.ofNat 32 b), cexcept := .known (BitVec.ofNat 32 cexcept),
             maxb := .known (BitVec.ofNat 32 maxb), scratch := Scratch.unspecified }

/-- The three writes of `raise Fault(CAUSE, info)` (60_exceptions.md R250). -/
def State.recordFault (s : State) (c : Cause) (info : Nat) : State :=
  { s with status := setFault s.status, fcause := BitVec.ofNat 32 (causeCode c),
           finfo := BitVec.ofNat 32 info }

/-- What is unspecified after a fault of a command that had started with `OUTPOS = o`
(60_exceptions.md R251(d); log entry 17). -/
def State.loseWork (s : State) (o : Nat) : State :=
  { s.closeResults with inpos := .unspecified, outpos := .unspecified, dst := s.dst.forget o }

/-- TAKING A FAULT: the state a command that started in `s` ends in when its pseudocode raises `e`
(60_exceptions.md R250, R251, R258). -/
def takeFault (s : State) (e : Trap) : State :=
  if causeIsEarly e.cause then s.recordFault e.cause e.info
  else { (s.loseWork s.start.op).recordFault e.cause e.info with tick := e.tick }

/-- THE RETURN from the faulted state, by `SRESET` or hardware reset (45_system.md R240,
60_exceptions.md R258): registers 1 to 10 to 0, scratch unspecified, memories untouched. -/
def softReset (s : State) : State :=
  { s with status := 0, fcause := 0, finfo := 0, inpos := .known 0, outpos := .known 0,
           inlen := 0, thissize := 0, bestb := .known 0, cexcept := .known 0, maxb := .known 0,
           scratch := Scratch.unspecified }

/-- The frame every command but `SRESET` runs in: refused, changing nothing, while `STATUS.FAULT` is
1 (60_exceptions.md R252); else it completes, or takes the first fault it raises (R256). -/
def runCommand (s : State) (body : State → Except Trap State) :
    Host.Outcome State Fault Refusal :=
  if s.faulted then .next s
  else match body s with
    | .ok t => .next t
    | .error e => .next (takeFault s e)

/-- Raise `ILLEGAL_COMMAND` with the command word (30_encoding.md R73). -/
def illegalCommand (c : Word) (s : State) : Except Trap State := .error ⟨.illegalCommand, c.toNat, s.tick⟩

/-- `if ... > limit: raise Fault(BAD_PARAM, THISSIZE)`, before anything is read or written
(60_exceptions.md R251(c); 92_eei_decisions.md D20). -/
def checkThissize (s : State) (limit : Nat) : Except Trap Unit :=
  if s.thissize.toNat > limit then .error ⟨.badParam, s.thissize.toNat, s.tick⟩ else .ok ()

end Sys2Proof.Machine
end

