-- ==== Sys2Proof/Machine/FpfSelector.lean ====
section
/-! DEFINITION. The FastPFOR block-level width selector: `FPF.SELECT` and the procedure
`fpf_select` (41_fastpfor_selector.md R120 to R127). -/

namespace Sys2Proof.Machine

/-- `FREQS[w]` (10_state.md R30). -/
def freqAt (freqs : Arr Nat) (w : Nat) : Nat := (freqs.get? w).getD (Config.staleCount w)

/-- `FREQS[bitlen(v)] <- FREQS[bitlen(v)] + 1` for each value of the block, step 1 of R121. -/
def countFreqs (freqs : Arr Nat) (blk : List Word) : Arr Nat :=
  match blk with
  | [] => freqs
  | v :: rest => countFreqs (freqs.write (bitlen v) [freqAt freqs (bitlen v) + 1]) rest

/-- The histogram of R121 step 1: all 33 counters are cleared, then the block is counted (R122). -/
def histogram (freqs : Arr Nat) (blk : List Word) : Arr Nat :=
  countFreqs (freqs.write 0 (List.replicate 33 0)) blk

/-- The largest `w` in `0..top` with `FREQS[w] > 0`, step 2 of R121. -/
def largestUsed (freqs : Arr Nat) (top : Nat) : Nat :=
  match top with
  | 0 => 0
  | w + 1 => if freqAt freqs (w + 1) > 0 then w + 1 else largestUsed freqs w

/-- The best choice so far in the descent of R121. -/
structure Choice where
  b : Nat
  cexcept : Nat
  cost : Nat
deriving DecidableEq, Repr

/-- The cost of candidate `b` with `c` exceptions, in bits (R124). -/
def fpfCost (maxb b c : Nat) : Nat :=
  c * Config.overheadOfEachExcept + c * (maxb - b) + b * 128 + 8

/-- The descent over `b' = n - 1` down to 0 with running count `c`, steps 3 to 5 of R121: it stops at
the first count above 127 (R123), and a candidate replaces the best only when strictly cheaper
(R125). -/
def fpfDescend (freqs : Arr Nat) (maxb n c : Nat) (best : Choice) : Choice :=
  match n with
  | 0 => best
  | b + 1 =>
    let c' := c + freqAt freqs (b + 1)
    if c' > 127 then best
    else if fpfCost maxb b c' < best.cost then
      fpfDescend freqs maxb b c' ⟨b, c', fpfCost maxb b c'⟩
    else fpfDescend freqs maxb b c' best

/-- The three results of `fpf_select` from a finished histogram: `(b, cexcept, maxb)` (R121). The
baseline costs `maxb * 128`, without the 8 (90_conflicts.md C12). -/
def fpfChoose (freqs : Arr Nat) : Nat × Nat × Nat :=
  let maxb := largestUsed freqs 32
  let best := fpfDescend freqs maxb maxb 0 ⟨maxb, 0, maxb * 128⟩
  (best.b, best.cexcept, maxb)

/-- `fpf_select(blk)` (R121), with the scratch state after it. -/
def fpfSelect (sc : Scratch) (blk : List Word) : (Nat × Nat × Nat) × Scratch :=
  let freqs := histogram sc.freqs blk
  (fpfChoose freqs, { sc with freqs := freqs })

/-- The pseudocode of R120. -/
def fpfSelectBody (s : State) : Except Trap State := do
  let w := s.start
  let (blk, w1) ← w.readSrc w.ip 128
  let r := fpfSelect w1.s.scratch blk
  .ok ((w1.onScratch fun _ => r.2).commitSelect r.1.1 r.1.2.1 r.1.2.2)

/-- `FPF.SELECT` (R120). -/
def execFpfSelect (s : State) : Host.Outcome State Fault Refusal := runCommand s fpfSelectBody

end Sys2Proof.Machine
end

