-- ==== Sys2Proof/Machine/FpfEncoder.lean ====
section
/-! DEFINITION. The FastPFOR exception dispatcher: `FPF.ENCPAGE`, `FPF.COMPRESS` and the procedures
`fpf_encode_block`, `fpf_flush_page`, `fpf_encode_page` (42_fastpfor_encode.md R140 to R151). -/

namespace Sys2Proof.Machine

/-- The dispatch scan over the values of a block from position `k` on: each exception's position goes
to the byte buffer and its high part to bucket `idx` (R142 step 3, R143). -/
def dispatch (b idx k : Nat) (vs : List Word) (sc : Scratch) : Scratch :=
  match vs with
  | [] => sc
  | v :: rest =>
    if high v b ≠ 0 then
      dispatch b idx (k + 1) rest
        ((sc.bbPut (BitVec.ofNat 8 k)).bkAppend idx (BitVec.ofNat 32 (high v b)))
    else dispatch b idx (k + 1) rest sc

/-- The byte-buffer record of one block and the dispatch of its exceptions, steps 2 and 3 of
R142. -/
def emitRecord (blk : List Word) (b c m : Nat) (sc : Scratch) : Scratch :=
  let sc1 := (sc.bbPut (BitVec.ofNat 8 b)).bbPut (BitVec.ofNat 8 c)
  if c > 0 then dispatch b (m - b) 0 blk (sc1.bbPut (BitVec.ofNat 8 m)) else sc1

/-- Step 4 of R142, also the last loop of R212: the block packed as four groups of 32 at width
`b`. -/
def packBlock (blk : List Word) (b : Nat) (w : Work) : Except Trap Work :=
  forEach (fun g w => w.putDst (pack32 (groupOf blk g) b)) [0, 1, 2, 3] w

/-- `fpf_encode_block(ip, op)` (R142). -/
def fpfEncodeBlock (w : Work) : Except Trap Work := do
  let (blk, w1) ← w.takeSrc 128
  let r := fpfSelect w1.s.scratch blk
  let w2 := w1.onScratch fun _ => emitRecord blk r.1.1 r.1.2.1 r.1.2.2 r.2
  packBlock blk r.1.1 w2

/-- `while BBLEN mod 4 != 0: BB[BBLEN] <- 0 ; BBLEN <- BBLEN + 1`, at most `n` rounds (R145, R147). -/
def padBytes (n : Nat) (sc : Scratch) : Scratch :=
  match n with
  | 0 => sc
  | k + 1 => if sc.bbLen % 4 ≠ 0 then padBytes k (sc.bbPut 0) else sc

/-- Word `i` of the byte buffer, little-endian (R145; 20_memory.md R53). -/
def Scratch.bbWord (sc : Scratch) (i : Nat) : Word :=
  wordOfBytes (sc.bbAt (4 * i)) (sc.bbAt (4 * i + 1)) (sc.bbAt (4 * i + 2)) (sc.bbAt (4 * i + 3))

/-- The bitmap: bit `k-1` is set iff bucket `k` received a value (R145, R148). -/
def bucketBitmap (sc : Scratch) : Nat :=
  ((List.range 32).map fun j => if sc.dpAt (j + 1) > 0 then 2 ^ j else 0).sum

/-- Group `g` of bucket `k`, entries beyond the count supplied as 0 without reading `BK` (R145,
R149). -/
def bucketGroup (sc : Scratch) (k g : Nat) : List Word :=
  (List.range 32).map fun i => if 32 * g + i < sc.dpAt k then sc.bkAt k (32 * g + i) else 0

/-- The section of bucket `k`: its count and its groups packed at width `k`; nothing for an empty
bucket (R145, R149). -/
def flushBucket (k : Nat) (w : Work) : Except Trap Work :=
  if w.s.scratch.dpAt k > 0 then do
    let w1 ← w.putDst1 (BitVec.ofNat 32 (w.s.scratch.dpAt k))
    forEach (fun g w => w.putDst (pack32 (bucketGroup w.s.scratch k g) k))
      (List.range (ceilDiv (w.s.scratch.dpAt k) 32)) w1
  else .ok w

/-- The bucket numbers `1..32`, ascending. -/
def bucketNumbers : List Nat := (List.range 32).map (· + 1)

/-- `fpf_flush_page(hp, op)`: the head word and the meta section (R145 to R149). -/
def fpfFlushPage (hp : Nat) (w : Work) : Except Trap Work := do
  let w1 ← w.writeDst hp [BitVec.ofNat 32 (w.op - hp)]
  let bytesize := w1.s.scratch.bbLen
  let w2 := w1.onScratch (padBytes 3)
  let w3 ← w2.putDst1 (BitVec.ofNat 32 bytesize)
  let w4 ← forEach (fun i w => w.putDst1 (w.s.scratch.bbWord i))
    (List.range (w3.s.scratch.bbLen / 4)) w3
  let w5 ← w4.putDst1 (BitVec.ofNat 32 (bucketBitmap w4.s.scratch))
  forEach flushBucket bucketNumbers w5

/-- `fpf_encode_page(thissize)` (R141). -/
def fpfEncodePage (thissize : Nat) (w : Work) : Except Trap Work := do
  let hp := w.op
  let w1 ← w.putDst1 0
  let w2 := w1.onScratch fun sc => { sc.clearDp with bblen := some 0 }
  let w3 ← iter fpfEncodeBlock (thissize / 128) w2
  fpfFlushPage hp w3

/-- The pseudocode of R140. -/
def fpfEncpageBody (s : State) : Except Trap State := do
  let _ ← checkThissize s (pageSize s.params)
  let w ← fpfEncodePage s.thissize.toNat s.start
  .ok w.commit

/-- The facade of the two compressors (R150, R151; 44_optpfd.md R215): `page` encodes one page of at
most `size` values. Fewer than 128 values complete without touching cursors or memory
(`EmptyInput`; log entry 9). -/
def compressBody (page : Nat → Work → Except Trap Work) (size : Nat) (s : State) :
    Except Trap State :=
  let n := s.inlen.toNat - s.inlen.toNat % 128
  if n = 0 then .ok s.closeResults
  else do
    let w ← s.start.putDst1 (BitVec.ofNat 32 n)
    let w1 ← forPages page size n w
    .ok w1.commit

/-- `FPF.ENCPAGE` (R140). -/
def execFpfEncpage (s : State) : Host.Outcome State Fault Refusal := runCommand s fpfEncpageBody

/-- `FPF.COMPRESS` (R150). -/
def execFpfCompress (s : State) : Host.Outcome State Fault Refusal :=
  runCommand s (compressBody fpfEncodePage (pageSize s.params))

end Sys2Proof.Machine
end

