-- ==== Sys2Proof/Machine/FpfDecoder.lean ====
section
/-! DEFINITION. The FastPFOR exception multiplexer: `FPF.DECPAGE`, `FPF.UNCOMPRESS` and the
procedures of the page decoder (43_fastpfor_decode.md R170 to R181). -/

namespace Sys2Proof.Machine

/-- The byte count and the byte buffer, read at `mp`, the running source position (R172, R173). -/
def loadBytes (w : Work) : Except Trap Work := do
  let (size, w1) ← w.takeSrc1
  let bytesize := size.toNat
  let nw := ceilDiv bytesize 4
  let _ ← w1.check (decide (4 * nw ≤ byteBufCap w1.s.params)) .bytebufOverrun bytesize
  let w2 ← forEach
    (fun i w => do
      let (x, w') ← w.takeSrc1
      .ok (w'.onScratch fun sc => { sc with bb := sc.bb.write (4 * i) (bytesOfWord x) }))
    (List.range nw) w1
  .ok (w2.onScratch fun sc => { sc with bblen := some bytesize, bbpos := some 0 })

/-- Bucket `k` where the bitmap names it: its count, then its groups of 32 (R174). -/
def loadBucket (bitmap : Word) (k : Nat) (w : Work) : Except Trap Work :=
  if bitmap.getLsbD (k - 1) then do
    let (x, w1) ← w.takeSrc1
    let size := x.toNat
    let _ ← w1.check (decide (size ≤ bucketCap w1.s.params)) .bucketOverrun size
    let w2 := w1.onScratch fun sc => { sc with bsize := sc.bsize.write k [size] }
    forEach
      (fun g w => do
        let (ws, w') ← w.takeSrc k
        .ok (w'.onScratch fun sc =>
          { sc with bk := sc.bk.write (bkIndex k (32 * g)) (unpack32 ws k) }))
      (List.range (ceilDiv size 32)) w2
  else .ok w

/-- The bitmap and the buckets, ascending (R174). -/
def loadBuckets (w : Work) : Except Trap Work := do
  let (bitmap, w1) ← w.takeSrc1
  let w2 := w1.onScratch fun sc => { sc with bsize := sc.bsize.write 1 (List.replicate 32 0) }
  forEach (loadBucket bitmap) bucketNumbers w2

/-- Four groups of 32 unpacked at width `b` from the running source position to `DST[op .. op+127]`;
the output position stays at the block's base (R176, 44_optpfd.md R221). -/
def unpackBlock (b : Nat) (w : Work) : Except Trap Work :=
  forEach
    (fun g w => do
      let (ws, w') ← w.takeSrc b
      w'.writeDst (w'.op + 32 * g) (unpack32 ws b))
    [0, 1, 2, 3] w

/-- `w = MemRead(DST, a) ; MemWrite(DST, a, w | x)` (R177, 44_optpfd.md R222). -/
def orDst (a : Nat) (x : Word) (w : Work) : Except Trap Work := do
  let (y, w1) ← w.readDst1 a
  w1.writeDst a [y ||| x]

/-- The multiplex step for one exception of a block at `w.op` with bucket index `idx` and width `b`
(R177). -/
def multiplex (idx b : Nat) (w : Work) : Except Trap Work := do
  let (pos, w1) ← bbGet w
  let _ ← w1.check (decide (pos.toNat < 128)) .badPosition pos.toNat
  let _ ← w1.check (decide (w1.s.scratch.dpAt idx < w1.s.scratch.bsizeAt idx)) .bucketOverrun idx
  let j := w1.s.scratch.dpAt idx
  let val := w1.s.scratch.bkAt idx j
  let w2 := w1.onScratch fun sc => { sc with dp := sc.dp.write idx [j + 1] }
  orDst (w2.op + pos.toNat) (shl32 val b) w2

/-- The exceptions of a block with width `b` and `c` exceptions: `maxb`, its check, and one multiplex
step each (R176). -/
def mergeExceptions (b c : Nat) (w : Work) : Except Trap Work :=
  if c > 0 then do
    let (m, w1) ← bbGet w
    let _ ← w1.check (decide (b < m.toNat ∧ m.toNat ≤ 32)) .badMaxb m.toNat
    iter (multiplex (m.toNat - b) b) c w1
  else .ok w

/-- `fpf_decode_block(lp, op)` (R176). -/
def fpfDecodeBlock (w : Work) : Except Trap Work := do
  let (b, w1) ← bbGet w
  let (c, w2) ← bbGet w1
  let _ ← w2.check (decide (b.toNat ≤ 32)) .badWidth b.toNat
  let _ ← w2.check (decide (c.toNat ≤ 128)) .badExceptCount c.toNat
  let w3 ← unpackBlock b.toNat w2
  let w4 ← mergeExceptions b.toNat c.toNat w3
  .ok { w4 with op := w4.op + 128 }

/-- `fpf_decode_page(thissize)` (R171, R175): the final source position is the end of the meta
section, wherever the low-bits reading stopped. -/
def fpfDecodePage (thissize : Nat) (w : Work) : Except Trap Work := do
  let hp := w.ip
  let (meta_, w1) ← w.readSrc1 hp
  let w2 ← loadBytes { w1 with ip := hp + meta_.toNat }
  let w3 ← loadBuckets w2
  let mp := w3.ip
  let w4 ← iter fpfDecodeBlock (thissize / 128)
    ({ w3 with ip := hp + 1 }.onScratch Scratch.clearDp)
  .ok { w4 with ip := mp }

/-- The pseudocode of R170. -/
def fpfDecpageBody (s : State) : Except Trap State := do
  let _ ← checkThissize s (pageSize s.params)
  let w ← fpfDecodePage s.thissize.toNat s.start
  .ok w.commit

/-- The facade of the two decompressors (R180, R181; 44_optpfd.md R225): `page` decodes one page of
at most `size` values. `INLEN` is compared with 0 and otherwise ignored; 0 completes without
touching cursors or memory (log entry 9). -/
def uncompressBody (page : Nat → Work → Except Trap Work) (size : Nat) (s : State) :
    Except Trap State :=
  if s.inlen.toNat = 0 then .ok s.closeResults
  else do
    let (nvalues, w) ← s.start.takeSrc1
    let _ ← w.check (decide (nvalues.toNat % 128 = 0)) .badCount nvalues.toNat
    let w1 ← forPages page size nvalues.toNat w
    .ok w1.commit

/-- `FPF.DECPAGE` (R170). -/
def execFpfDecpage (s : State) : Host.Outcome State Fault Refusal := runCommand s fpfDecpageBody

/-- `FPF.UNCOMPRESS` (R180). -/
def execFpfUncompress (s : State) : Host.Outcome State Fault Refusal :=
  runCommand s (uncompressBody fpfDecodePage (pageSize s.params))

end Sys2Proof.Machine
end

