-- ==== Sys2Proof/Machine/Opd.lean ====
section
/-! DEFINITION. OptPFD: width selector, block encoder and decoder, and the five `OPD.*` commands
(44_optpfd.md R200 to R226). The procedures take the Simple16 coder as an argument; the commands use
the block's own coder, `Config.s16` (00_scope.md R11; log entry 5). -/

namespace Sys2Proof.Machine

/-- `bitlen(max of blk)`, 0 for no values (R206). -/
def maxBitlen (blk : List Word) : Nat := (blk.map bitlen).foldr max 0

/-- The number of values of a block with `high(v, w) != 0` (R206). -/
def countHigh (blk : List Word) (w : Nat) : Nat := (blk.filter fun v => decide (high v w ≠ 0)).length

/-- The loop of `opd_stage(blk, w, n)` from position `k`, `c` exceptions staged so far (R206). -/
def stageFrom (w n k c : Nat) (vs : List Word) (eb : Arr Word) : Arr Word :=
  match vs with
  | [] => eb
  | v :: rest =>
    if high v w ≠ 0 then
      stageFrom w n (k + 1) (c + 1) rest
        ((eb.write c [BitVec.ofNat 32 (high v w)]).write (n + c) [BitVec.ofNat 32 k])
    else stageFrom w n (k + 1) c rest eb

/-- `opd_stage(blk, w, n)`: payloads in `EB[0 .. n-1]`, positions in `EB[n .. 2n-1]` (R206). -/
def opdStage (blk : List Word) (w n : Nat) (sc : Scratch) : Scratch :=
  { sc with eb := stageFrom w n 0 0 blk sc.eb }

/-- `EB[0 .. m-1]` as a list. -/
def Scratch.ebList (sc : Scratch) (m : Nat) : List Word := (List.range m).map sc.ebAt

/-- The best choice so far in the walk of R206. -/
structure OptChoice where
  besti : Nat
  n : Nat
  cost : Nat
deriving DecidableEq, Repr

/-- The lower bound of the walk, `mini = max(0, B[invbits[mb]] - 28)` (R207). -/
def opdMini (mb : Nat) : Nat := widthOf (invbits mb) - 28

/-- The walk of R206 over `i = lo + steps - 1` down to `lo`, with `<=`, so that a tie goes to the
smaller width (R208, 90_conflicts.md C10; UNVERIFIED, log entry 11). A candidate with 128 exceptions is skipped. -/
def opdWalk (S : S16) (blk : List Word) (lo steps : Nat) (best : OptChoice) (sc : Scratch) :
    OptChoice × Scratch :=
  match steps with
  | 0 => (best, sc)
  | k + 1 =>
    let i := lo + k
    let n := countHigh blk (widthOf i)
    if n = 128 then opdWalk S blk lo k best sc
    else
      let sc1 := opdStage blk (widthOf i) n sc
      let cost := widthOf i * 4 + S.estimate (sc1.ebList (2 * n)) (2 * n)
      if cost ≤ best.cost then opdWalk S blk lo k ⟨i, n, cost⟩ sc1
      else opdWalk S blk lo k best sc1

/-- `opd_select(blk)`: `(besti, n, mb)` and the scratch state after it (R206). -/
def opdSelect (S : S16) (sc : Scratch) (blk : List Word) : (Nat × Nat × Nat) × Scratch :=
  let mb := maxBitlen blk
  let mini := opdMini mb
  let r := opdWalk S blk mini (16 - mini) ⟨16, 0, 128⟩ sc
  ((r.1.besti, r.1.n, mb), r.2)

/-- The pseudocode of R205. -/
def opdSelectBody (S : S16) (s : State) : Except Trap State := do
  let w := s.start
  let (blk, w1) ← w.readSrc w.ip 128
  let r := opdSelect S w1.s.scratch blk
  .ok ((w1.onScratch fun _ => r.2).commitSelect r.1.1 r.1.2.1 r.1.2.2)

/-- The block header word `besti | (nexcept << 8) | (exceptsize << 16)` (30_encoding.md R93). -/
def opdHeader (besti n es : Nat) : Word := BitVec.ofNat 32 (besti + 256 * n + 65536 * es)

/-- The exception payload of a block: nothing without exceptions, else what the coder makes of the
`2n` staged words (R212). -/
def opdPayload (S : S16) (n : Nat) (sc : Scratch) : List Word :=
  if n > 0 then S.compress (sc.ebList (2 * n)) (2 * n) else []

/-- `opd_encode_block(ip, op)` (R212). -/
def opdEncodeBlock (S : S16) (w : Work) : Except Trap Work := do
  let (blk, w1) ← w.takeSrc 128
  let r := opdSelect S w1.s.scratch blk
  let besti := r.1.1
  let n := r.1.2.1
  let sc := if n > 0 then opdStage blk (widthOf besti) n r.2 else r.2
  let w2 := w1.onScratch fun _ => sc
  let pl := opdPayload S n sc
  let _ ← w2.check (decide (pl.length ≤ 65535)) .s16Fault pl.length
  let w3 ← w2.putDst1 (opdHeader besti n pl.length)
  let w4 ← w3.putDst pl
  packBlock blk (widthOf besti) w4

/-- `opd_encode_page(thissize)` (R211). -/
def opdEncodePage (S : S16) (thissize : Nat) (w : Work) : Except Trap Work :=
  iter (opdEncodeBlock S) (thissize / 128) w

/-- The pseudocode of R210. -/
def opdEncpageBody (S : S16) (s : State) : Except Trap State := do
  let _ ← checkThissize s Config.opdPageSize
  let w ← opdEncodePage S s.thissize.toNat s.start
  .ok w.commit

/-- The patch step of exception `k` of a block at `w.op` with `n` exceptions and width `b` (R222). -/
def opdPatch (n b k : Nat) (w : Work) : Except Trap Work := do
  let pos := (w.s.scratch.ebAt (n + k)).toNat
  let _ ← w.check (decide (pos < 128)) .badPosition pos
  orDst (w.op + pos) (shl32 (w.s.scratch.ebAt k) b) w

/-- Header fields `besti = h[7:0]`, `n = h[15:8]`, `es = h[31:16]` (30_encoding.md R93). -/
def headerFields (h : Word) : Nat × Nat × Nat :=
  (h.toNat % 2 ^ 8, h.toNat / 2 ^ 8 % 2 ^ 8, h.toNat / 2 ^ 16)

/-- The header a decoder accepts: none of the four tests of R221 fires. -/
def headerOk (besti n es : Nat) : Bool :=
  !(decide (besti > 16) || decide (n > 128) || (n == 0 && es != 0) || (besti == 16 && decide (n > 0)))

/-- The payload of a block with exceptions, decoded into `EB` (R221). -/
def loadPayload (S : S16) (n es : Nat) (w : Work) : Except Trap Work :=
  if n > 0 then do
    let (pl, w1) ← w.takeSrc es
    match S.uncompress pl es (2 * n) with
    | none => w1.trap .s16Fault es
    | some r => .ok (w1.onScratch fun sc => { sc with eb := sc.eb.write 0 r.toList })
  else .ok w

/-- `opd_decode_block(ip, op)` (R221). -/
def opdDecodeBlock (S : S16) (w : Work) : Except Trap Work := do
  let (h, w1) ← w.takeSrc1
  let f := headerFields h
  let _ ← w1.check (headerOk f.1 f.2.1 f.2.2) .badOptHeader h.toNat
  let w2 ← loadPayload S f.2.1 f.2.2 w1
  let w3 ← unpackBlock (widthOf f.1) w2
  let w4 ← forEach (opdPatch f.2.1 (widthOf f.1)) (List.range f.2.1) w3
  .ok { w4 with op := w4.op + 128 }

/-- `opd_decode_page(thissize)` (R220). -/
def opdDecodePage (S : S16) (thissize : Nat) (w : Work) : Except Trap Work :=
  iter (opdDecodeBlock S) (thissize / 128) w

/-- The pseudocode of R220. -/
def opdDecpageBody (S : S16) (s : State) : Except Trap State := do
  let _ ← checkThissize s Config.opdPageSize
  let w ← opdDecodePage S s.thissize.toNat s.start
  .ok w.commit

/-- The pseudocode of R215: a page is 65536 values whatever `PAGE_SIZE` is. -/
def opdCompressBody (S : S16) (s : State) : Except Trap State :=
  compressBody (opdEncodePage S) Config.opdPageSize s

/-- The pseudocode of R225. -/
def opdUncompressBody (S : S16) (s : State) : Except Trap State :=
  uncompressBody (opdDecodePage S) Config.opdPageSize s

/-- `OPD.SELECT` (R205). -/
def execOpdSelect (s : State) : Host.Outcome State Fault Refusal :=
  runCommand s (opdSelectBody Config.s16)

/-- `OPD.ENCPAGE` (R210). -/
def execOpdEncpage (s : State) : Host.Outcome State Fault Refusal :=
  runCommand s (opdEncpageBody Config.s16)

/-- `OPD.DECPAGE` (R220). -/
def execOpdDecpage (s : State) : Host.Outcome State Fault Refusal :=
  runCommand s (opdDecpageBody Config.s16)

/-- `OPD.COMPRESS` (R215). -/
def execOpdCompress (s : State) : Host.Outcome State Fault Refusal :=
  runCommand s (opdCompressBody Config.s16)

/-- `OPD.UNCOMPRESS` (R225). -/
def execOpdUncompress (s : State) : Host.Outcome State Fault Refusal :=
  runCommand s (opdUncompressBody Config.s16)

end Sys2Proof.Machine
end

