-- ==== Sys2Proof/WellFormed.lean ====
section
/-! DEFINITION. Which terms of `Instr` some command word stands for (30_encoding.md R70, R73). -/

namespace Sys2Proof

/-- The width immediate of `PACK32` and `UNPACK32` must be `0..32` (R70, R73). Every other command
has no operand and is always well formed. -/
def Instr.wellFormed : Instr → Bool
  | .pack32 w => decide (w.toNat ≤ 32)
  | .unpack32 w => decide (w.toNat ≤ 32)
  | .sreset => true
  | .fpfSelect => true
  | .fpfEncpage => true
  | .fpfDecpage => true
  | .fpfCompress => true
  | .fpfUncompress => true
  | .opdSelect => true
  | .opdEncpage => true
  | .opdDecpage => true
  | .opdCompress => true
  | .opdUncompress => true

end Sys2Proof
end

