-- ==== Sys2Proof/Decode.lean ====
section
/-! DEFINITION. The command decoder, total on every word and rejecting by name, and the encoder
(30_encoding.md R70 to R74). -/

namespace Sys2Proof

/-- Why a command word is illegal (R73). Raising `ILLEGAL_COMMAND` is the machine's answer to each. -/
inductive DecodeError where
  /-- `OPC` is in no row of R72. -/
  | unknownOpcode
  /-- `Z`, bits 31:14, is not 0. -/
  | nonzeroZ
  /-- `W` is not 0 in a command that takes no width. -/
  | strayWidth
  /-- `W` is above 32 in `PACK32` or `UNPACK32`. -/
  | widthAbove32
deriving DecidableEq, Repr

/-- What the decoder reads from a word. -/
inductive Decoded where
  | command (i : Instr)
  | illegal (e : DecodeError)
deriving DecidableEq, Repr

/-- Field `OPC`, bits 7:0 (R70). -/
def Field.opc (c : Word) : BitVec 8 := c.extractLsb' 0 8

/-- Field `W`, bits 13:8 (R70). -/
def Field.w (c : Word) : BitVec 6 := c.extractLsb' 8 6

/-- Field `Z`, bits 31:14 (R70). -/
def Field.z (c : Word) : BitVec 18 := c.extractLsb' 14 18

/-- A command without operand: `W` and `Z` must both be 0 (R73). -/
def Decode.plain (c : Word) (i : Instr) : Decoded :=
  if Field.z c ≠ 0 then .illegal .nonzeroZ
  else if Field.w c ≠ 0 then .illegal .strayWidth
  else .command i

/-- A command with a width: `Z` must be 0 and `W` at most 32 (R73). -/
def Decode.width (c : Word) (i : Instr) : Decoded :=
  if Field.z c ≠ 0 then .illegal .nonzeroZ
  else if Field.w c > 32 then .illegal .widthAbove32
  else .command i

/-- The opcode map (R72). -/
def decode (c : Word) : Decoded :=
  match (Field.opc c).toNat with
  | 0x01 => Decode.plain c .sreset
  | 0x10 => Decode.width c (.pack32 (Field.w c))
  | 0x11 => Decode.width c (.unpack32 (Field.w c))
  | 0x20 => Decode.plain c .fpfSelect
  | 0x21 => Decode.plain c .fpfEncpage
  | 0x22 => Decode.plain c .fpfDecpage
  | 0x23 => Decode.plain c .fpfCompress
  | 0x24 => Decode.plain c .fpfUncompress
  | 0x30 => Decode.plain c .opdSelect
  | 0x31 => Decode.plain c .opdEncpage
  | 0x32 => Decode.plain c .opdDecpage
  | 0x33 => Decode.plain c .opdCompress
  | 0x34 => Decode.plain c .opdUncompress
  | _ => .illegal .unknownOpcode

/-- The `OPC` byte of each command (R72). -/
def Instr.opcode : Instr → BitVec 8
  | .sreset => 0x01
  | .pack32 _ => 0x10
  | .unpack32 _ => 0x11
  | .fpfSelect => 0x20
  | .fpfEncpage => 0x21
  | .fpfDecpage => 0x22
  | .fpfCompress => 0x23
  | .fpfUncompress => 0x24
  | .opdSelect => 0x30
  | .opdEncpage => 0x31
  | .opdDecpage => 0x32
  | .opdCompress => 0x33
  | .opdUncompress => 0x34

/-- The `W` field of each command: 0 where it takes no width (R70). -/
def Instr.widthField : Instr → BitVec 6
  | .pack32 w => w
  | .unpack32 w => w
  | .sreset => 0
  | .fpfSelect => 0
  | .fpfEncpage => 0
  | .fpfDecpage => 0
  | .fpfCompress => 0
  | .fpfUncompress => 0
  | .opdSelect => 0
  | .opdEncpage => 0
  | .opdDecpage => 0
  | .opdCompress => 0
  | .opdUncompress => 0

/-- The command word `CW` of a command: `Z = 0`, `W`, `OPC` (R70). A command that is not well formed
is encoded too, into the illegal word with that `W`. -/
def encode (i : Instr) : Word := (0 : BitVec 18) ++ i.widthField ++ i.opcode

/-- The command the decoder reads from the table's number `w` of `nbits` bits: a command is always
the one 32-bit word (R74), so a longer number is no command. -/
def decodeTableWord (nbits w : Nat) : Option Instr :=
  if w % 2 ^ nbits < 2 ^ 32 then
    match decode (BitVec.ofNat 32 (w % 2 ^ nbits)) with
    | .command i => some i
    | .illegal _ => none
  else none

end Sys2Proof
end

