-- ==== Sys2Proof/Machine/Packer.lean ====
section
/-! DEFINITION. The packer and unpacker of one 32-integer group: `PACK32`, `UNPACK32`
(40_bitpacking.md R105, R106). -/

namespace Sys2Proof.Machine

/-- The pseudocode of R105. -/
def pack32Body (k : Nat) (s : State) : Except Trap State := do
  let (v, w) ← s.start.takeSrc 32
  let w1 ← w.putDst (pack32 v k)
  .ok w1.commit

/-- The pseudocode of R106; width 0 reads nothing, wherever `INPOS` lies (log entry 14). -/
def unpack32Body (k : Nat) (s : State) : Except Trap State := do
  let (o, w) ← s.start.takeSrc k
  let w1 ← w.putDst (unpack32 o k)
  .ok w1.commit

/-- `PACK32 w` (R105). A width above 32 makes the command word illegal (30_encoding.md R73;
log entry 12). -/
def execPack32 (w : BitVec 6) (s : State) : Host.Outcome State Fault Refusal :=
  runCommand s fun s =>
    if w.toNat > 32 then illegalCommand (encode (.pack32 w)) s else pack32Body w.toNat s

/-- `UNPACK32 w` (R106). A width above 32 makes the command word illegal (30_encoding.md R73;
log entry 12). -/
def execUnpack32 (w : BitVec 6) (s : State) : Host.Outcome State Fault Refusal :=
  runCommand s fun s =>
    if w.toNat > 32 then illegalCommand (encode (.unpack32 w)) s else unpack32Body w.toNat s

end Sys2Proof.Machine
end

