-- ==== Sys2Proof/Machine/System.lean ====
section
/-! DEFINITION. The system command `SRESET` (45_system.md R240), and the illegal command word as
command issue answers it (30_encoding.md R73, 45_system.md R243). -/

namespace Sys2Proof.Machine

/-- `SRESET` (R240): executed in the faulted state too, never faults. -/
def execSreset (s : State) : Host.Outcome State Fault Refusal := .next (softReset s)

/-- Issuing a word that is no command (R73, R243): refused while faulted, like every command (R252);
else `ILLEGAL_COMMAND` with the word in `FINFO`. -/
def execIllegal (c : Word) (s : State) : Host.Outcome State Fault Refusal :=
  runCommand s (illegalCommand c)

end Sys2Proof.Machine
end

