-- ==== Sys2Proof/Machine/Dispatch.lean ====
section
/-! DEFINITION. One arm per command, each one call of its meaning. -/

namespace Sys2Proof.Machine

def exec (i : Instr) (s : State) : Host.Outcome State Fault Refusal :=
  match i with
  | .sreset => Sys2Proof.Machine.execSreset s
  | .pack32 w => Sys2Proof.Machine.execPack32 w s
  | .unpack32 w => Sys2Proof.Machine.execUnpack32 w s
  | .fpfSelect => Sys2Proof.Machine.execFpfSelect s
  | .fpfEncpage => Sys2Proof.Machine.execFpfEncpage s
  | .fpfDecpage => Sys2Proof.Machine.execFpfDecpage s
  | .fpfCompress => Sys2Proof.Machine.execFpfCompress s
  | .fpfUncompress => Sys2Proof.Machine.execFpfUncompress s
  | .opdSelect => Sys2Proof.Machine.execOpdSelect s
  | .opdEncpage => Sys2Proof.Machine.execOpdEncpage s
  | .opdDecpage => Sys2Proof.Machine.execOpdDecpage s
  | .opdCompress => Sys2Proof.Machine.execOpdCompress s
  | .opdUncompress => Sys2Proof.Machine.execOpdUncompress s

end Sys2Proof.Machine
end

