-- ==== Sys2Proof/Machine/HostPort.lean ====
section
/-! DEFINITION. What each action of the host does: register access, command issue, memory access
between commands, hardware reset (45_system.md R241 to R243; 20_memory.md R52;
70_reset_and_hazards.md R280), and the host-program notation (30_encoding.md R75, R76). -/

namespace Sys2Proof.Machine

/-- Command issue: a host write of word `c` to `CMD` (R243). The meaning of a command itself answers
a faulted block (60_exceptions.md R252), `SRESET` excepted. -/
def issueCommand (c : Word) (s : State) : Host.Outcome State Fault Refusal :=
  match decode c with
  | .command i => exec i s
  | .illegal _ => execIllegal c s

/-- A host write to a register other than `CMD` (R242, 10_state.md R23): registers 4 to 7 take the
value, in any state; every other number changes nothing. -/
def writeReg (r : Nat) (v : Word) (s : State) : State :=
  match r with
  | 4 => { s with inpos := .known v }
  | 5 => { s with outpos := .known v }
  | 6 => { s with inlen := v }
  | 7 => { s with thissize := v }
  | _ => s

/-- What a host read of a register returns (R241; 10_state.md R23, R25 to R29), where `free` is the
free value an unspecified register reads as. -/
def readReg (r : Nat) (free : Word) (s : State) : Word :=
  match r with
  | 1 => s.statusRead
  | 2 => s.fcause
  | 3 => s.finfo
  | 4 => s.inpos.read free
  | 5 => s.outpos.read free
  | 6 => s.inlen
  | 7 => s.thissize
  | 8 => s.bestb.read free
  | 9 => s.cexcept.read free
  | 10 => s.maxb.read free
  | 11 => BitVec.ofNat 32 (pageSize s.params)
  | 12 => s.params.srcLen
  | 13 => s.params.dstLen
  | _ => 0

/-- Return `v` to the host; a free value may have been drawn for it (log entries 2, 7). -/
def State.answer (s : State) (v : Word) : State := { s.draw 1 with rdata := v }

/-- One action of the host. An access to a word a memory does not have is a fault of the model
(log entry 8). -/
def hostAction (op : HostOp) (s : State) : Host.Outcome State Fault Refusal :=
  match op with
  | .wr r v => if r = 0 then issueCommand v s else .next (writeReg r v s)
  | .rd r => .next (s.answer (readReg r (Config.freeWord s.tick) s))
  | .writeSrc a v =>
    if a < s.params.srcLen.toNat then .next { s with src := s.src.write a [v] }
    else .fault (.noSuchSrcWord a)
  | .writeDst a v =>
    if a < s.params.dstLen.toNat then .next { s with dst := s.dst.write a [v] }
    else .fault (.noSuchDstWord a)
  | .readSrc a =>
    if a < s.params.srcLen.toNat then
      .next (s.answer (drawn (s.src.get? a) (Config.freeWord s.tick)))
    else .fault (.noSuchSrcWord a)
  | .readDst a =>
    if a < s.params.dstLen.toNat then
      .next (s.answer (drawn (s.dst.get? a) (Config.freeWord s.tick)))
    else .fault (.noSuchDstWord a)
  | .hardReset => .next (softReset s)

/-- The next pending action is taken; with none the block waits for the host (R280; log entry 6). -/
def hostStep (s : State) : Host.Outcome State Fault Refusal :=
  match s.host with
  | [] => .next s
  | op :: rest => hostAction op { s with host := rest }

/-- A command line of a host program: the command word written to `CMD` (R75). -/
def cmdLine (i : Instr) : HostOp := .wr 0 (encode i)

/-- The pseudo-instruction `SETUP i, o, n` (R76). -/
def setupLines (i o n : Word) : List HostOp := [.wr 4 i, .wr 5 o, .wr 6 n]

/-- The pseudo-instruction `PACKBLK w` (R76). -/
def packblkLines (w : BitVec 6) : List HostOp := List.replicate 4 (cmdLine (.pack32 w))

/-- The pseudo-instruction `UNPACKBLK w` (R76). -/
def unpackblkLines (w : BitVec 6) : List HostOp := List.replicate 4 (cmdLine (.unpack32 w))

end Sys2Proof.Machine
end

