-- ==== Sys2Proof/Machine/Step.lean ====
section
/-! DEFINITION. One step of the machine, and the state whose next step runs a given command word. -/

namespace Sys2Proof.Machine

/-- One step: the host's next action, a command being one atomic step (45_system.md R243). -/
def step (s : State) : Host.Outcome State Fault Refusal := hostStep s

/-- The state whose very next step issues the command word that the table's number `w` of `nbits` bits
stands for: the host's next action writes it to `CMD` (30_encoding.md R70; log entry 6). -/
def State.withFetchWord (s : State) (nbits w : Nat) : State :=
  { s with host := .wr 0 (BitVec.ofNat 32 (w % 2 ^ nbits)) :: s.host }

end Sys2Proof.Machine
end

