-- ==== Sys2Proof/Machine/StreamFormat.lean ====
section
/-! DEFINITION. The normative stream formats as pure functions of the values a stream holds
(30_encoding.md R80 to R94). No command calls these: they say, independently of the encoders, what
the words of a well-formed stream are. -/

namespace Sys2Proof.Machine

/-- The blocks of 128 values of a list, an incomplete last block dropped. -/
def blocksOf (vs : List Word) : List (List Word) :=
  (List.range (vs.length / 128)).map fun j => (vs.drop (128 * j)).take 128

/-- The pages of at most `size` values of a list (R81). -/
def pagesOf (size : Nat) (vs : List Word) : List (List Word) :=
  (List.range (ceilDiv vs.length size)).map fun i => (vs.drop (size * i)).take size

/-- `(b_j, c_j, m_j)`: what the FastPFOR selector gives a block (R85). -/
def fpfSelected (blk : List Word) : Nat × Nat × Nat := fpfChoose (histogram [] blk)

/-- The positions of a block's exceptions at width `b`, ascending (R88). -/
def exceptionPositions (blk : List Word) (b : Nat) : List Nat :=
  (List.range blk.length).filter fun k => decide (high (blk.getD k 0) b ≠ 0)

/-- The high parts of a block's exceptions at width `b`, in ascending position (R90). -/
def exceptionHighs (blk : List Word) (b : Nat) : List Word :=
  (blk.filter fun v => decide (high v b ≠ 0)).map fun v => BitVec.ofNat 32 (high v b)

/-- The `4 * b` low-bit words of a block: four groups of its values cut to `b` bits (R86, R94). -/
def lowBitsWords (blk : List Word) (b : Nat) : List Word :=
  [0, 1, 2, 3].flatMap fun g =>
    pack32 ((groupOf blk g).map fun v => BitVec.ofNat 32 (low v b)) b

/-- A block's byte-buffer record `b, cexcept[, maxb, pos_0, pos_1, ...]` (R88). -/
def blockRecord (blk : List Word) : List Byte :=
  let r := fpfSelected blk
  [BitVec.ofNat 8 r.1, BitVec.ofNat 8 r.2.1] ++
    if r.2.1 > 0 then
      BitVec.ofNat 8 r.2.2 :: (exceptionPositions blk r.1).map (BitVec.ofNat 8)
    else []

/-- The exception values of bucket `k`: blocks in page order, ascending position within a block
(R85, R90). -/
def bucketValues (blks : List (List Word)) (k : Nat) : List Word :=
  blks.flatMap fun blk =>
    let r := fpfSelected blk
    if r.2.1 > 0 ∧ r.2.2 - r.1 = k then exceptionHighs blk r.1 else []

/-- Bytes as little-endian words, zero padded (R87). -/
def byteWords (bytes : List Byte) : List Word :=
  (List.range (ceilDiv bytes.length 4)).map fun i =>
    wordOfBytes (bytes.getD (4 * i) 0) (bytes.getD (4 * i + 1) 0) (bytes.getD (4 * i + 2) 0)
      (bytes.getD (4 * i + 3) 0)

/-- The section of bucket `k`: its count and its values packed at width `k` in groups of 32, zero
padded; no word for an empty bucket (R90). -/
def bucketSection (k : Nat) (vals : List Word) : List Word :=
  if vals.length > 0 then
    BitVec.ofNat 32 vals.length ::
      (List.range (ceilDiv vals.length 32)).flatMap fun g =>
        pack32 ((List.range 32).map fun i => vals.getD (32 * g + i) 0) k
  else []

/-- The bitmap word: bit `k-1` for each bucket `k` present (R89). -/
def bitmapWord (blks : List (List Word)) : Word :=
  BitVec.ofNat 32
    ((List.range 32).map fun j => if (bucketValues blks (j + 1)).length > 0 then 2 ^ j else 0).sum

/-- The low-bits section of a page (R85, R86). -/
def lowBitsSection (blks : List (List Word)) : List Word :=
  blks.flatMap fun blk => lowBitsWords blk (fpfSelected blk).1

/-- The byte buffer of a page (R88). -/
def byteBuffer (blks : List (List Word)) : List Byte := blks.flatMap blockRecord

/-- The words of one FastPFOR page (R85). -/
def pageImage (blks : List (List Word)) : List Word :=
  let lows := lowBitsSection blks
  let bytes := byteBuffer blks
  BitVec.ofNat 32 (1 + lows.length) :: lows ++ BitVec.ofNat 32 bytes.length :: byteWords bytes ++
    bitmapWord blks :: bucketNumbers.flatMap fun k => bucketSection k (bucketValues blks k)

/-- The words of a FastPFOR stream of the values `vs` for a page size (R80, R81). -/
def streamImage (size : Nat) (vs : List Word) : List Word :=
  BitVec.ofNat 32 vs.length :: (pagesOf size vs).flatMap fun page => pageImage (blocksOf page)

/-- What the OptPFD selector gives a block, for a coder `S`. -/
def optSelected (S : S16) (blk : List Word) : Nat × Nat × Nat :=
  (opdSelect S Scratch.unspecified blk).1

/-- The `2n` integers handed to the coder: the payloads, then the positions (R94). -/
def optStaged (blk : List Word) (b : Nat) : List Word :=
  exceptionHighs blk b ++ (exceptionPositions blk b).map (BitVec.ofNat 32)

/-- The S16 payload of a block, present if it has exceptions (R94). -/
def optPayload (S : S16) (blk : List Word) : List Word :=
  let r := optSelected S blk
  if r.2.1 > 0 then S.compress (optStaged blk (widthOf r.1)) (2 * r.2.1) else []

/-- The record of one OptPFD block: header, payload, low-bit words (R92 to R94). -/
def optRecord (S : S16) (blk : List Word) : List Word :=
  let r := optSelected S blk
  opdHeader r.1 r.2.1 (optPayload S blk).length :: optPayload S blk ++
    lowBitsWords blk (widthOf r.1)

/-- The words of an OptPFD page: nothing but its block records (R92). -/
def optImage (S : S16) (blks : List (List Word)) : List Word := blks.flatMap (optRecord S)

/-- The words of an OptPFD stream (R92). -/
def optStream (S : S16) (vs : List Word) : List Word :=
  BitVec.ofNat 32 vs.length :: optImage S (blocksOf vs)

end Sys2Proof.Machine
end

