-- ==== Sys2Proof/Safety.lean ====
section
/-! DEFINITION. The terms claims about the machine are stated in: the invariant, what a memory holds,
what a completed command leaves, and the second forms the spec gives of some functions. -/

namespace Sys2Proof

/-- The row of `opcode_table.json` a command stands in: `match` and `mask` (30_encoding.md R72). -/
def Instr.tableRow (i : Instr) : Word × Word :=
  match i with
  | .sreset => (0x00000001, 0xFFFFFFFF)
  | .pack32 _ => (0x00000010, 0xFFFFC0FF)
  | .unpack32 _ => (0x00000011, 0xFFFFC0FF)
  | .fpfSelect => (0x00000020, 0xFFFFFFFF)
  | .fpfEncpage => (0x00000021, 0xFFFFFFFF)
  | .fpfDecpage => (0x00000022, 0xFFFFFFFF)
  | .fpfCompress => (0x00000023, 0xFFFFFFFF)
  | .fpfUncompress => (0x00000024, 0xFFFFFFFF)
  | .opdSelect => (0x00000030, 0xFFFFFFFF)
  | .opdEncpage => (0x00000031, 0xFFFFFFFF)
  | .opdDecpage => (0x00000032, 0xFFFFFFFF)
  | .opdCompress => (0x00000033, 0xFFFFFFFF)
  | .opdUncompress => (0x00000034, 0xFFFFFFFF)

/-- A word selects the row of a command when `c & mask = match`, the word's width field is the
command's, and for `PACK32` and `UNPACK32` that width is at most 32 (30_encoding.md R72). -/
def Instr.rowSelects (i : Instr) (c : Word) : Prop :=
  c &&& i.tableRow.2 = i.tableRow.1 ∧ Field.w c = i.widthField ∧ (Field.w c).toNat ≤ 32

/-- The thirteen values of `OPC` in the table of R72. -/
def commandOpcodes : List (BitVec 8) :=
  [0x01, 0x10, 0x11, 0x20, 0x21, 0x22, 0x23, 0x24, 0x30, 0x31, 0x32, 0x33, 0x34]

/-- The two `OPC` values that take a width (30_encoding.md R70). -/
def widthOpcodes : List (BitVec 8) := [0x10, 0x11]

/-- The two `SELECT` commands. -/
def Instr.isSelect (i : Instr) : Bool := i == .fpfSelect || i == .opdSelect

end Sys2Proof

namespace Sys2Proof.Machine

/-- A register content that, where it is specified, is at most `n`. -/
def Content.atMost (c : Content) (n : Nat) : Prop := ∀ w, c = .known w → w.toNat ≤ n

/-- A register content that is specified. -/
def Content.isKnown (c : Content) : Bool :=
  match c with
  | .known _ => true
  | .unspecified => false

/-- What holds of the block at reset and after every step. -/
structure State.Inv (s : State) : Prop where
  /-- `SRC` has its canonical form, every index below `SRC_LEN` (R50). -/
  srcWf : s.src.wf s.params.srcLen.toNat = true
  /-- `DST` has its canonical form, every index below `DST_LEN` (R50, R56). -/
  dstWf : s.dst.wf s.params.dstLen.toNat = true
  /-- Bits 31:1 of `STATUS` are 0 (10_state.md R25). -/
  statusBits : s.status.toNat ≤ 1
  /-- `FCAUSE` never holds a value above 13 (60_exceptions.md R253). -/
  causeRange : s.fcause.toNat ≤ 13
  /-- `FCAUSE` and `FINFO` are 0 while `STATUS.FAULT = 0` (10_state.md R26). -/
  noCauseUnfaulted : s.faulted = false → s.fcause = 0 ∧ s.finfo = 0
  /-- A faulted block has a cause (60_exceptions.md R250, R253). -/
  causeFaulted : s.faulted = true → s.fcause ≠ 0
  /-- The cursors are specified except after a fault (60_exceptions.md R251). -/
  cursorsKnown : s.faulted = false → s.inpos.isKnown = true ∧ s.outpos.isKnown = true
  /-- `BESTB`, where specified, is a width or a width index (10_state.md R22). -/
  bestbRange : s.bestb.atMost 32
  /-- `CEXCEPT`, where specified, is at most 127 (10_state.md R22). -/
  cexceptRange : s.cexcept.atMost 127
  /-- `MAXB`, where specified, is at most 32 (10_state.md R22). -/
  maxbRange : s.maxb.atMost 32
  /-- Scratch carries nothing from one command to the next (10_state.md R36). -/
  scratchOpen : s.scratch = Scratch.unspecified

/-- An unfaulted block whose cursors hold `ip` and `op`. -/
abbrev State.ready (s : State) (ip op : Word) : Prop :=
  s.faulted = false ∧ s.inpos = .known ip ∧ s.outpos = .known op

/-- The memory holds the words of a list, all specified, from index `a` on. -/
abbrev Memory.holds (m : Memory) (a : Nat) (ws : List Word) : Prop :=
  ∀ j, j < ws.length → m.get? (a + j) = ws[j]?

/-- A list is one that reading the memory from index `a` on can give: it has the specified words
where there are some, any word elsewhere (00_scope.md R18). -/
abbrev Memory.mayRead (m : Memory) (a : Nat) (ws : List Word) : Prop :=
  ∀ j, j < ws.length → ∀ x, m.get? (a + j) = some x → ws[j]? = some x

/-- Two memories agree outside the `n` words from index `a` on. -/
def Memory.sameOutside (m m' : Memory) (a n : Nat) : Prop :=
  ∀ i, i < a ∨ a + n ≤ i → m'.get? i = m.get? i

/-- What a command that moves the cursors leaves when it completes from `s` with cursors `ip` and
`op`, having consumed `used` words of `SRC` and produced the words `out`: every field but the
model's own `tick`. -/
structure State.Completes (s t : State) (ip op used : Nat) (out : List Word) : Prop where
  params : t.params = s.params
  status : t.status = s.status
  fcause : t.fcause = s.fcause
  finfo : t.finfo = s.finfo
  inpos : t.inpos = .known (BitVec.ofNat 32 (ip + used))
  outpos : t.outpos = .known (BitVec.ofNat 32 (op + out.length))
  inlen : t.inlen = s.inlen
  thissize : t.thissize = s.thissize
  bestb : t.bestb = .unspecified
  cexcept : t.cexcept = .unspecified
  maxb : t.maxb = .unspecified
  scratch : t.scratch = Scratch.unspecified
  src : t.src = s.src
  host : t.host = s.host
  rdata : t.rdata = s.rdata
  written : t.dst.holds op out
  kept : s.dst.sameOutside t.dst op out.length

/-- Registers 1 to 10 are 0 and scratch is unspecified: what hardware reset and `SRESET` leave
(10_state.md R39). -/
structure State.RegistersReset (t : State) : Prop where
  status : t.status = 0
  fcause : t.fcause = 0
  finfo : t.finfo = 0
  inpos : t.inpos = .known 0
  outpos : t.outpos = .known 0
  inlen : t.inlen = 0
  thissize : t.thissize = 0
  bestb : t.bestb = .known 0
  cexcept : t.cexcept = .known 0
  maxb : t.maxb = .known 0
  scratch : t.scratch = Scratch.unspecified

/-- What hardware reset and `SRESET` do to a state `s`: the registers and scratch are reset, and
everything else, the memories above all, is left alone (10_state.md R39). -/
structure State.ResetOf (s t : State) : Prop where
  registers : t.RegistersReset
  params : t.params = s.params
  src : t.src = s.src
  dst : t.dst = s.dst
  host : t.host = s.host
  rdata : t.rdata = s.rdata

/-- The state a `SELECT` that completes from `s` with the results `b`, `c`, `m` leaves; `k` stands for
the model's own count of free values. -/
def State.afterSelect (s : State) (b c m k : Nat) : State :=
  { s with bestb := .known (BitVec.ofNat 32 b), cexcept := .known (BitVec.ofNat 32 c),
           maxb := .known (BitVec.ofNat 32 m), scratch := Scratch.unspecified, tick := k }

/-- The state a fault that is raised before anything is read or written leaves (R251(c)). -/
def State.afterEarlyFault (s : State) (code : Nat) (info : Word) : State :=
  { s with status := s.status ||| 1, fcause := BitVec.ofNat 32 code, finfo := info }

/-- What every other fault of a command that started from `s` with `OUTPOS = o` leaves (R251(a), (b),
(d)): every field but the model's own `tick`. -/
structure State.LateFault (s t : State) (o code : Nat) (info : Word) : Prop where
  params : t.params = s.params
  status : t.status = s.status ||| 1
  fcause : t.fcause = BitVec.ofNat 32 code
  finfo : t.finfo = info
  inpos : t.inpos = .unspecified
  outpos : t.outpos = .unspecified
  inlen : t.inlen = s.inlen
  thissize : t.thissize = s.thissize
  bestb : t.bestb = .unspecified
  cexcept : t.cexcept = .unspecified
  maxb : t.maxb = .unspecified
  scratch : t.scratch = Scratch.unspecified
  src : t.src = s.src
  host : t.host = s.host
  rdata : t.rdata = s.rdata
  below : ∀ a, a < o → t.dst.get? a = s.dst.get? a
  above : ∀ a, o ≤ a → t.dst.get? a = none

/-- The words `o[0 .. w-1]` of R104's packer after value `i`: one shift, or two where the value
straddles a word boundary (40_bitpacking.md R104). -/
def packShiftStep (w : Nat) (o : List Word) (iv : Nat × Word) : List Word :=
  let x := BitVec.ofNat 32 (low iv.2 w)
  let p := iv.1 * w
  let j := p / 32
  let sh := p % 32
  let o1 := o.set j (o.getD j 0 ||| shl32 x sh)
  if sh + w > 32 then o1.set (j + 1) (o1.getD (j + 1) 0 ||| BitVec.ofNat 32 (high x (32 - sh))) else o1

/-- The word-by-word form of `pack32` (40_bitpacking.md R104). -/
def packShift (v : List Word) (w : Nat) : List Word :=
  if w = 0 then []
  else ((List.range v.length).zip v).foldl (packShiftStep w) (List.replicate w 0)

/-- The word-by-word form of `unpack32` (40_bitpacking.md R104). -/
def unpackShift (o : List Word) (w : Nat) : List Word :=
  (List.range 32).map fun i =>
    let p := i * w
    let j := p / 32
    let sh := p % 32
    BitVec.ofNat 32
      ((BitVec.ofNat 32 (high (o.getD j 0) sh) |||
        (if sh + w > 32 then shl32 (o.getD (j + 1) 0) (32 - sh) else 0)).toNat % 2 ^ w)

/-- The number of values of a block that need more than `b` bits. -/
def above (blk : List Word) (b : Nat) : Nat := blk.countP fun v => decide (high v b ≠ 0)

/-- The candidates of the FastPFOR descent: widths below `maxb` with at most 127 exceptions
(41_fastpfor_selector.md R121, R123). -/
def fpfCandidate (blk : List Word) (maxb b : Nat) : Prop := b < maxb ∧ above blk b ≤ 127

/-- The cost of the FastPFOR choice `b`: the baseline at `b = maxb`, else R124. -/
def fpfCostOf (blk : List Word) (maxb b : Nat) : Nat :=
  if b = maxb then maxb * 128 else above blk b * 8 + above blk b * (maxb - b) + b * 128 + 8

/-- The cost of an OptPFD candidate `i`: the block's low-bit words and what the coder says its
exceptions take (44_optpfd.md R206). -/
def optCostOf (S : S16) (blk : List Word) (i : Nat) : Nat :=
  widthOf i * 4 + S.estimate (optStaged blk (widthOf i)) (2 * above blk (widthOf i))

/-- The candidates of the OptPFD walk that are not skipped (44_optpfd.md R206). -/
def optCandidate (blk : List Word) (mb i : Nat) : Prop :=
  opdMini mb ≤ i ∧ i ≤ 15 ∧ above blk (widthOf i) ≠ 128

/-- `m` is the true maximum width of a block (41_fastpfor_selector.md R128(e)). -/
def isMaxWidth (blk : List Word) (m : Nat) : Prop :=
  (∀ v ∈ blk, bitlen v ≤ m) ∧ ∃ v ∈ blk, bitlen v = m

/-- The words of an OptPFD record without exceptions: header, then the low-bit words
(30_encoding.md R92, R93). -/
def plainRecord (r : Nat × List Word) : List Word := opdHeader r.1 0 0 :: r.2

/-- The 128 values of an OptPFD record without exceptions: its four groups unpacked
(44_optpfd.md R221). -/
def plainValues (r : Nat × List Word) : List Word :=
  [0, 1, 2, 3].flatMap fun g =>
    unpack32 ((r.2.drop (widthOf r.1 * g)).take (widthOf r.1)) (widthOf r.1)

/-- A record without exceptions a decoder accepts. -/
abbrev plainOk (r : Nat × List Word) : Prop := r.1 ≤ 16 ∧ r.2.length = 4 * widthOf r.1

end Sys2Proof.Machine
end

