-- ==== Sys2Proof/Certificates/Slice0/Obligations.lean ====
section
/-! DEFINITION. The statements for the provers. Each docstring says which rule of the spec it
formalises. -/

open Sys2Proof Sys2Proof.Machine

/-! ### Command words -/

/-- R72: the decoder reads a command from a word exactly when the word selects that command's row of
the opcode table. -/
def Obligations.DecodeSelectsTableRow : Prop :=
  ∀ (c : Word) (i : Instr), decode c = .command i ↔ i.rowSelects c

/-- The decoder and the encoder agree on every command and every word (R70, R72, R73): a word decodes
to a command exactly when the command is well formed and encodes to that word. -/
def Obligations.DecodeEncodeAgree : Prop :=
  ∀ (c : Word) (i : Instr), decode c = .command i ↔ i.wellFormed = true ∧ encode i = c

/-- Words written out from R70 and R72, one for each family: system, packer, FastPFOR, OptPFD, and four
illegal ones. -/
def Obligations.WrittenOutWordsDecode : Prop :=
  decode 0x00000001 = .command .sreset ∧
  decode 0x00000510 = .command (.pack32 5) ∧
  decode 0x00002011 = .command (.unpack32 32) ∧
  decode 0x00000022 = .command .fpfDecpage ∧
  decode 0x00000033 = .command .opdCompress ∧
  decode 0x00000000 = .illegal .unknownOpcode ∧
  decode 0x00000101 = .illegal .strayWidth ∧
  decode 0x00004010 = .illegal .nonzeroZ ∧
  decode 0x00002110 = .illegal .widthAbove32

/-- R73: which words are illegal, that no word selects two commands, and that issuing an illegal word
raises `ILLEGAL_COMMAND` with that word and does nothing else. -/
def Obligations.IllegalWordFaultsAlone : Prop :=
  ∀ c : Word,
    ((∀ i : Instr, ¬ i.rowSelects c) ↔
      Field.opc c ∉ commandOpcodes ∨ Field.z c ≠ 0 ∨
      (Field.opc c ∉ widthOpcodes ∧ Field.w c ≠ 0) ∨
      (Field.opc c ∈ widthOpcodes ∧ 32 < (Field.w c).toNat)) ∧
    (∀ i j : Instr, i.rowSelects c → j.rowSelects c → i = j) ∧
    ∀ s : State, s.faulted = false → (∀ i : Instr, ¬ i.rowSelects c) →
      issueCommand c s = .next (s.afterEarlyFault 1 c)

/-- A term `PACK32 w` or `UNPACK32 w` with `w` above 32, which no word decodes to: `exec` answers what
issuing its encoded word answers, `ILLEGAL_COMMAND` with that word and nothing else changed. THE MODEL'S
CHOICE, log entry 12 (DEDUCED): the spec's R73 speaks of issued words only, and what it says of them
is `IllegalWordFaultsAlone`. -/
def Obligations.WidthAbove32IsIllegal : Prop :=
  ∀ (s : State) (k : BitVec 6), s.faulted = false → 32 < k.toNat →
    exec (.pack32 k) s = .next (s.afterEarlyFault 1 (encode (.pack32 k))) ∧
    exec (.unpack32 k) s = .next (s.afterEarlyFault 1 (encode (.unpack32 k)))

/-- A step takes the host's next action, and where that action writes a command word to `CMD` the step
runs the decoded command (R243). The list of host actions is the model's (log entry 6). -/
def Obligations.StepRunsDecodedCommand : Prop :=
  (∀ (s : State) (op : HostOp) (rest : List HostOp), s.host = op :: rest →
    step s = hostAction op { s with host := rest }) ∧
  (∀ (s : State) (c : Word) (i : Instr) (rest : List HostOp), s.host = .wr 0 c :: rest →
    decode c = .command i → step s = exec i { s with host := rest }) ∧
  ∀ (s : State) (i : Instr), i.wellFormed = true →
    step (s.withFetchWord 32 (encode i).toNat) = exec i s

/-! ### The faulted state, reset, and the host's access -/

/-- R252: in the faulted state every command word but `SRESET` does nothing at all, illegal words too,
`SRESET` is executed, and the host's writes and reads of registers work as always. -/
def Obligations.FaultedBlockRefuses : Prop :=
  ∀ s : State, s.faulted = true →
    (∀ c : Word, c ≠ 1 → issueCommand c s = .next s) ∧
    (∃ t, issueCommand 1 s = .next t ∧ s.ResetOf t) ∧
    (∀ (r : Nat) (v : Word), r ≠ 0 → hostAction (.wr r v) s = .next (writeReg r v s)) ∧
    (∀ r : Nat, ∃ t, hostAction (.rd r) s = .next t ∧
      t.rdata = readReg r (Config.freeWord s.tick) s)

/-- A faulted block stays faulted, with the record of its fault untouched, through every step but
`SRESET` and hardware reset (R25, R26, R258). -/
def Obligations.OnlyResetLeavesTheFaultedState : Prop :=
  ∀ s t : State, s.faulted = true → step s = .next t →
    (t.faulted = true ∧ t.fcause = s.fcause ∧ t.finfo = s.finfo) ∨
    (∃ rest, s.host = .hardReset :: rest ∨ s.host = .wr 0 1 :: rest)

/-- R240: `SRESET` runs in every state, faulted or not, resets the registers and scratch and leaves the
memories alone; `0x00000001` is its only word, and a word with `OPC = 0x01` and any other bit set is
illegal; besides hardware reset nothing else the host does leaves the faulted state. -/
def Obligations.SresetRestoresTheResetState : Prop :=
  (∀ s : State, ∃ t, exec .sreset s = .next t ∧ s.ResetOf t) ∧
  (∀ c : Word, decode c = .command .sreset ↔ c = 1) ∧
  (∀ (s : State) (c : Word), Field.opc c = 1 → c ≠ 1 →
    issueCommand c s = .next (if s.faulted then s else s.afterEarlyFault 1 c)) ∧
  (∀ (s t : State) (op : HostOp), s.faulted = true → hostAction op s = .next t →
    t.faulted = false → op = .hardReset ∨ op = .wr 0 1)

/-- R39: what hardware reset, at power-up and later, and `SRESET` leave, for every build; and what
registers 11 to 13 read in every state. -/
def Obligations.ResetLeavesTheStatedValues : Prop :=
  (∀ p : Params, (State.powerUp p).RegistersReset ∧ (State.powerUp p).params = p ∧
    (State.powerUp p).src = [] ∧ (State.powerUp p).dst = []) ∧
  (∀ s : State, ∃ t, hostAction .hardReset s = .next t ∧ s.ResetOf t) ∧
  (∀ s : State, ∃ t, exec .sreset s = .next t ∧ s.ResetOf t) ∧
  (∀ (s : State) (free : Word), (readReg 11 free s).toNat = pageSize s.params ∧
    readReg 12 free s = s.params.srcLen ∧ readReg 13 free s = s.params.dstLen)

/-- R241: a host read returns the register's value and has no side effect on any state but the model's
own record of the value returned; a register whose value is unspecified may return any. -/
def Obligations.RegisterReadsReturnTheirValues : Prop :=
  ∀ (s : State) (r : Nat),
    ∃ t, hostAction (.rd r) s = .next t ∧
      { t with rdata := s.rdata, tick := s.tick } = s ∧
      (r = 0 ∨ 14 ≤ r → t.rdata = 0) ∧
      (r = 1 → t.rdata = if s.faulted then 1 else 0) ∧
      (r = 2 → t.rdata = s.fcause) ∧ (r = 3 → t.rdata = s.finfo) ∧
      (∀ v, r = 4 → s.inpos = .known v → t.rdata = v) ∧
      (∀ v, r = 5 → s.outpos = .known v → t.rdata = v) ∧
      (r = 6 → t.rdata = s.inlen) ∧ (r = 7 → t.rdata = s.thissize) ∧
      (∀ v, r = 8 → s.bestb = .known v → t.rdata = v) ∧
      (∀ v, r = 9 → s.cexcept = .known v → t.rdata = v) ∧
      (∀ v, r = 10 → s.maxb = .known v → t.rdata = v) ∧
      (r = 11 → t.rdata.toNat = pageSize s.params) ∧
      (r = 12 → t.rdata = s.params.srcLen) ∧ (r = 13 → t.rdata = s.params.dstLen)

/-- R242 and R23: a host write to 4 to 7 stores the value in any state, unchecked, a write to `CMD`
issues the value as a command, a write to any other number changes nothing; `CMD` and the numbers
from 14 on read 0. -/
def Obligations.RegisterWritesStoreOrChangeNothing : Prop :=
  ∀ s : State,
    (∀ (r : Nat) (v : Word), r ≠ 0 →
      hostAction (.wr r v) s = .next
        (if r = 4 then { s with inpos := .known v }
         else if r = 5 then { s with outpos := .known v }
         else if r = 6 then { s with inlen := v }
         else if r = 7 then { s with thissize := v }
         else s)) ∧
    (∀ v : Word, hostAction (.wr 0 v) s = issueCommand v s) ∧
    (∀ r : Nat, r = 0 ∨ 14 ≤ r → ∃ t, hostAction (.rd r) s = .next t ∧ t.rdata = 0)

/-- R52: between commands the host reads and writes any word of either memory; a word neither memory
has stops the model (log entry 8). -/
def Obligations.HostReachesEveryMemoryWord : Prop :=
  ∀ (s : State) (rest : List HostOp) (a : Nat) (v : Word),
    (s.host = .writeSrc a v :: rest → a < s.params.srcLen.toNat →
      ∃ m : Memory, step s = .next { s with host := rest, src := m } ∧ m.get? a = some v ∧
        s.src.sameOutside m a 1) ∧
    (s.host = .writeDst a v :: rest → a < s.params.dstLen.toNat →
      ∃ m : Memory, step s = .next { s with host := rest, dst := m } ∧ m.get? a = some v ∧
        s.dst.sameOutside m a 1) ∧
    (s.host = .readSrc a :: rest → a < s.params.srcLen.toNat → s.src.get? a = some v →
      ∃ k, step s = .next { s with host := rest, rdata := v, tick := k }) ∧
    (s.host = .readDst a :: rest → a < s.params.dstLen.toNat → s.dst.get? a = some v →
      ∃ k, step s = .next { s with host := rest, rdata := v, tick := k }) ∧
    (s.host = .writeSrc a v :: rest ∨ s.host = .readSrc a :: rest → s.params.srcLen.toNat ≤ a →
      step s = .fault (.noSuchSrcWord a)) ∧
    (s.host = .writeDst a v :: rest ∨ s.host = .readDst a :: rest → s.params.dstLen.toNat ≤ a →
      step s = .fault (.noSuchDstWord a))

/-! ### What every command keeps -/

/-- The invariant holds at power-up of every build, `State.reset` among them (R39). -/
def Obligations.InvariantHoldsAtReset : Prop :=
  (∀ p : Params, (State.powerUp p).Inv) ∧ State.reset.Inv

/-- Every step keeps the invariant: both memories in canonical form and in bounds, the reserved bits of
`STATUS`, the range of `FCAUSE` and its agreement with `STATUS.FAULT`, the ranges of the result
registers, specified cursors while unfaulted, and no scratch carried over (R22, R25, R26, R36,
R253). -/
def Obligations.EveryStepKeepsTheInvariant : Prop :=
  ∀ s t : State, s.Inv → step s = .next t → t.Inv

/-- R254: every command on every state ends in a next state; none stops the model. -/
def Obligations.EveryCommandAnswersANextState : Prop :=
  ∀ (i : Instr) (s : State), ∃ t, exec i s = .next t

/-- No command writes `SRC`, a parameter, the host's pending actions or the value it last read, and
none but `SRESET` writes `INLEN` or `THISSIZE`, whether it completes, is refused or faults (R21, R28,
R51, R251). -/
def Obligations.CommandsKeepSourceAndOperands : Prop :=
  ∀ (i : Instr) (s t : State), exec i s = .next t →
    t.params = s.params ∧ t.src = s.src ∧ t.host = s.host ∧ t.rdata = s.rdata ∧
    (i ≠ .sreset → t.inlen = s.inlen ∧ t.thissize = s.thissize)

/-- The frame rule the spec derives (R62): a command that completes has written every word of `DST`
between the old and the new `OUTPOS`, no other word of `DST` and no word of `SRC`. -/
def Obligations.CompletedCommandWritesExactlyItsOutput : Prop :=
  ∀ (i : Instr) (s t : State) (o o' : Word), s.faulted = false ∨ i = .sreset →
    s.outpos = .known o → exec i s = .next t → t.faulted = false → t.outpos = .known o' →
    (i ≠ .sreset → o.toNat ≤ o'.toNat) ∧
    (∀ a, o.toNat ≤ a → a < o'.toNat → (t.dst.get? a).isSome = true) ∧
    s.dst.sameOutside t.dst o.toNat (o'.toNat - o.toNat) ∧ t.src = s.src

/-- R251: the state after a fault, whatever the command word and the cause. -/
def Obligations.FaultLeavesExactlyWhatIsStated : Prop :=
  ∀ (c : Word) (s t : State) (o : Word), s.faulted = false → s.outpos = .known o →
    issueCommand c s = .next t → t.faulted = true →
    ∃ (code : Nat) (info : Word), 1 ≤ code ∧ code ≤ 13 ∧
      (code = 1 ∨ code = 12 → t = s.afterEarlyFault code info) ∧
      (code ≠ 1 ∧ code ≠ 12 → s.LateFault t o.toNat code info)

/-- R250 and the numbers of R253: a command whose body raises a fault ends in the faulted state with that
cause's code and information; the thirteen codes. -/
def Obligations.FaultRecordsItsCauseAndInfo : Prop :=
  (∀ (s : State) (body : State → Except Trap State) (e : Trap), s.faulted = false →
    body s = .error e →
    ∃ t, runCommand s body = .next t ∧ t.faulted = true ∧
      t.fcause = BitVec.ofNat 32 (causeCode e.cause) ∧ t.finfo = BitVec.ofNat 32 e.info) ∧
  causeCode .illegalCommand = 1 ∧ causeCode .srcBounds = 2 ∧ causeCode .dstBounds = 3 ∧
  causeCode .badWidth = 4 ∧ causeCode .badMaxb = 5 ∧ causeCode .badExceptCount = 6 ∧
  causeCode .badPosition = 7 ∧ causeCode .bytebufOverrun = 8 ∧ causeCode .bucketOverrun = 9 ∧
  causeCode .badCount = 10 ∧ causeCode .badOptHeader = 11 ∧ causeCode .badParam = 12 ∧
  causeCode .s16Fault = 13

/-- R22: after a command other than the two `SELECT`s and `SRESET` completes, the result registers are
unspecified; after a `SELECT` completes they hold values in their ranges. -/
def Obligations.ResultRegistersAfterEachCommand : Prop :=
  ∀ (i : Instr) (s t : State), i ≠ .sreset → s.faulted = false → exec i s = .next t →
    t.faulted = false →
    (i.isSelect = false →
      t.bestb = .unspecified ∧ t.cexcept = .unspecified ∧ t.maxb = .unspecified) ∧
    (i.isSelect = true →
      ∃ b c m : Word, t.bestb = .known b ∧ t.cexcept = .known c ∧ t.maxb = .known m ∧
        b.toNat ≤ (if i = .fpfSelect then 32 else 16) ∧ c.toNat ≤ 127 ∧ m.toNat ≤ 32)

/-- Scratch carries nothing from one command to the next (R36, R38): whatever scratch holds when a
command starts, the command ends in the same state but for scratch itself, which the existential
leaves open, also where the command completes (that it is unspecified then is said by
`EveryStepKeepsTheInvariant`). The two runs start with the same count of free values and so draw the
same ones: THE MODEL'S mechanism, log entry 2 (DESIGN CHOICE). -/
def Obligations.ScratchIsNotObservable : Prop :=
  ∀ (i : Instr) (s t : State) (sc : Scratch), exec i s = .next t →
    ∃ sc', exec i { s with scratch := sc } = .next { t with scratch := sc' }

/-- The four page commands turn away a `THISSIZE` above their page size with `BAD_PARAM`, having
changed nothing else (R140, R170, R210, R220, R251(c)). -/
def Obligations.OversizedPageIsBadParam : Prop :=
  ∀ s : State, s.faulted = false →
    (pageSize s.params < s.thissize.toNat →
      exec .fpfEncpage s = .next (s.afterEarlyFault 12 s.thissize) ∧
      exec .fpfDecpage s = .next (s.afterEarlyFault 12 s.thissize)) ∧
    (65536 < s.thissize.toNat →
      exec .opdEncpage s = .next (s.afterEarlyFault 12 s.thissize) ∧
      exec .opdDecpage s = .next (s.afterEarlyFault 12 s.thissize))

/-- `EmptyInput` (R254): the compressors with `INLEN < 128` and the decompressors with `INLEN = 0`
complete with cursors and memories as they were. That the result registers are unspecified then is
the reading of log entry 9. -/
def Obligations.EmptyInputCompletes : Prop :=
  ∀ (s : State) (ip op : Word), s.ready ip op →
    (s.inlen.toNat < 128 →
      (∃ t, exec .fpfCompress s = .next t ∧ s.Completes t ip.toNat op.toNat 0 []) ∧
      ∃ t, exec .opdCompress s = .next t ∧ s.Completes t ip.toNat op.toNat 0 []) ∧
    (s.inlen.toNat = 0 →
      (∃ t, exec .fpfUncompress s = .next t ∧ s.Completes t ip.toNat op.toNat 0 []) ∧
      ∃ t, exec .opdUncompress s = .next t ∧ s.Completes t ip.toNat op.toNat 0 [])

/-! ### Words, bytes and widths -/

/-- R12: the width table and its inverse. -/
def Obligations.WidthTableAndItsInverse : Prop :=
  (∀ i, i ≤ 13 → widthOf i = i) ∧ widthOf 14 = 16 ∧ widthOf 15 = 20 ∧ widthOf 16 = 32 ∧
  ∀ mb, mb ≤ 32 →
    invbits mb ≤ 16 ∧ mb ≤ widthOf (invbits mb) ∧ ∀ i, i < invbits mb → widthOf i < mb

/-- R14: every word is its low part with its high part above it, `bitlen` is the number of bits a value
needs, and an exception at width `b` is a value of more than `b` bits (R122). -/
def Obligations.LowAndHighPartsMakeTheWord : Prop :=
  ∀ (v : Word) (b : Nat), b ≤ 32 →
    v = BitVec.ofNat 32 (low v b) ||| shl32 (BitVec.ofNat 32 (high v b)) b ∧
    (bitlen v ≤ b ↔ v.toNat < 2 ^ b) ∧ (high v b ≠ 0 ↔ b < bitlen v)

/-- R53: the byte order of the side byte buffer is little-endian, and the two conversions undo each
other. -/
def Obligations.ByteBufferIsLittleEndian : Prop :=
  (∀ y0 y1 y2 y3 : Byte,
    (wordOfBytes y0 y1 y2 y3).toNat =
      y0.toNat + 256 * y1.toNat + 65536 * y2.toNat + 16777216 * y3.toNat ∧
    bytesOfWord (wordOfBytes y0 y1 y2 y3) = [y0, y1, y2, y3]) ∧
  ∀ w : Word, ∃ y0 y1 y2 y3, bytesOfWord w = [y0, y1, y2, y3] ∧ wordOfBytes y0 y1 y2 y3 = w

/-! ### The packer -/

/-- R103: the laws of `pack32` and `unpack32`. -/
def Obligations.PackerLaws : Prop :=
  ∀ w, w ≤ 32 →
    (∀ v : List Word, v.length = 32 →
      unpack32 (pack32 v w) w = v.map (fun x => BitVec.ofNat 32 (low x w)) ∧
      ((∀ x ∈ v, x.toNat < 2 ^ w) → unpack32 (pack32 v w) w = v)) ∧
    (∀ o : List Word, o.length = w → pack32 (unpack32 o w) w = o) ∧
    (∀ v : List Word, v.length = 32 → pack32 v 0 = [] ∧ pack32 v 32 = v) ∧
    unpack32 [] 0 = List.replicate 32 0 ∧
    (∀ o : List Word, o.length = 32 → unpack32 o 32 = o) ∧
    (∀ o : List Word, o.length = w → ∀ x ∈ unpack32 o w, x.toNat < 2 ^ w) ∧
    (∀ v v' : List Word, v.map (low · w) = v'.map (low · w) → pack32 v w = pack32 v' w)

/-- R104: the word-by-word forms compute the same words. -/
def Obligations.PackerWordByWordForm : Prop :=
  ∀ w, w ≤ 32 →
    (∀ v : List Word, v.length = 32 → packShift v w = pack32 v w) ∧
    (∀ o : List Word, o.length = w → unpackShift o w = unpack32 o w)

/-- R105: `PACK32 w` in every state with known cursors: it completes, or faults with `SRC_BOUNDS`,
or, within `SRC`, with `DST_BOUNDS`; its word, and the words with its `OPC` that are illegal. -/
def Obligations.Pack32MeetsItsRule : Prop :=
  ∀ (s : State) (ip op : Word) (k : BitVec 6), s.ready ip op →
    (k.toNat ≤ 32 → ip.toNat + 32 ≤ s.params.srcLen.toNat →
      (k.toNat = 0 ∨ op.toNat + k.toNat ≤ s.params.dstLen.toNat) →
      ∃ (t : State) (v : List Word), v.length = 32 ∧ s.src.mayRead ip.toNat v ∧
        exec (.pack32 k) s = .next t ∧
        s.Completes t ip.toNat op.toNat 32 (pack32 v k.toNat)) ∧
    (k.toNat ≤ 32 → s.params.srcLen.toNat < ip.toNat + 32 →
      ∃ t, exec (.pack32 k) s = .next t ∧
        s.LateFault t op.toNat 2 (BitVec.ofNat 32 (ip.toNat + 31))) ∧
    (k.toNat ≤ 32 → ip.toNat + 32 ≤ s.params.srcLen.toNat → 1 ≤ k.toNat →
      s.params.dstLen.toNat < op.toNat + k.toNat →
      ∃ t, exec (.pack32 k) s = .next t ∧
        s.LateFault t op.toNat 3 (BitVec.ofNat 32 (op.toNat + k.toNat - 1))) ∧
    (k.toNat ≤ 32 → decode ((0x10 : Word) ||| k.zeroExtend 32 <<< 8) = .command (.pack32 k)) ∧
    (∀ c : Word, Field.opc c = 0x10 → 32 < (Field.w c).toNat ∨ Field.z c ≠ 0 →
      issueCommand c s = .next (s.afterEarlyFault 1 c))

/-- R106: `UNPACK32 w` in every state with known cursors: it completes, or faults with `SRC_BOUNDS`,
or, within `SRC`, with `DST_BOUNDS`; its word, and the words with its `OPC` that are illegal. -/
def Obligations.Unpack32MeetsItsRule : Prop :=
  ∀ (s : State) (ip op : Word) (k : BitVec 6), s.ready ip op →
    (k.toNat ≤ 32 → (k.toNat = 0 ∨ ip.toNat + k.toNat ≤ s.params.srcLen.toNat) →
      op.toNat + 32 ≤ s.params.dstLen.toNat →
      ∃ (t : State) (o : List Word), o.length = k.toNat ∧ s.src.mayRead ip.toNat o ∧
        exec (.unpack32 k) s = .next t ∧
        s.Completes t ip.toNat op.toNat k.toNat (unpack32 o k.toNat)) ∧
    (k.toNat ≤ 32 → 1 ≤ k.toNat → s.params.srcLen.toNat < ip.toNat + k.toNat →
      ∃ t, exec (.unpack32 k) s = .next t ∧
        s.LateFault t op.toNat 2 (BitVec.ofNat 32 (ip.toNat + k.toNat - 1))) ∧
    (k.toNat ≤ 32 → (k.toNat = 0 ∨ ip.toNat + k.toNat ≤ s.params.srcLen.toNat) →
      s.params.dstLen.toNat < op.toNat + 32 →
      ∃ t, exec (.unpack32 k) s = .next t ∧
        s.LateFault t op.toNat 3 (BitVec.ofNat 32 (op.toNat + 31))) ∧
    (k.toNat ≤ 32 → decode ((0x11 : Word) ||| k.zeroExtend 32 <<< 8) = .command (.unpack32 k)) ∧
    (∀ c : Word, Field.opc c = 0x11 → 32 < (Field.w c).toNat ∨ Field.z c ≠ 0 →
      issueCommand c s = .next (s.afterEarlyFault 1 c))

/-! ### The FastPFOR selector -/

/-- R120: `FPF.SELECT` writes the three results and nothing else, or faults. -/
def Obligations.FpfSelectMeetsItsRule : Prop :=
  ∀ (s : State) (ip op : Word), s.ready ip op →
    (ip.toNat + 128 ≤ s.params.srcLen.toNat →
      ∃ (blk : List Word) (k : Nat), blk.length = 128 ∧ s.src.mayRead ip.toNat blk ∧
        exec .fpfSelect s = .next (s.afterSelect (fpfSelected blk).1 (fpfSelected blk).2.1
          (fpfSelected blk).2.2 k)) ∧
    (s.params.srcLen.toNat < ip.toNat + 128 →
      ∃ t, exec .fpfSelect s = .next t ∧
        s.LateFault t op.toNat 2 (BitVec.ofNat 32 (ip.toNat + 127)))

/-- R128: the properties of the selector's result `(b, c, m)`, above all that it is the cheapest
candidate, the largest among equals, whatever scratch holds. -/
def Obligations.FpfSelectorIsOptimal : Prop :=
  ∀ (sc : Scratch) (blk : List Word) (b c m : Nat), blk.length = 128 →
    (fpfSelect sc blk).1 = (b, c, m) →
    b ≤ m ∧ m ≤ 32 ∧ (c = 0 ↔ b = m) ∧ c = above blk b ∧ c ≤ 127 ∧
    (∀ v ∈ blk, high v b ≠ 0 → 1 ≤ high v b ∧ high v b < 2 ^ (m - b)) ∧
    isMaxWidth blk m ∧ (m = 0 ↔ ∀ v ∈ blk, v = 0) ∧ (m = 0 → b = 0 ∧ c = 0) ∧
    (b = m ∨ fpfCandidate blk m b) ∧
    (∀ b', b' = m ∨ fpfCandidate blk m b' →
      fpfCostOf blk m b ≤ fpfCostOf blk m b' ∧
      (fpfCostOf blk m b' = fpfCostOf blk m b → b' ≤ b))

/-! ### The FastPFOR encoder -/

/-- The dispatch of one block (R143): positions go to the byte buffer and high parts to the one bucket
`idx`, both in ascending position; no other bucket and no earlier byte changes. -/
def Obligations.DispatchFillsOneBucketInOrder : Prop :=
  ∀ (b idx : Nat) (blk : List Word) (sc : Scratch) (n d : Nat), blk.length = 128 →
    sc.bblen = some n → sc.dp.get? idx = some d → d + 128 ≤ 65536 →
    let sc' := dispatch b idx 0 blk sc
    let ps := exceptionPositions blk b
    sc'.bblen = some (n + ps.length) ∧
    (∀ j, j < ps.length → sc'.bb.get? (n + j) = (ps[j]?).map (BitVec.ofNat 8)) ∧
    (∀ j, j < n → sc'.bb.get? j = sc.bb.get? j) ∧
    sc'.dp.get? idx = some (d + ps.length) ∧
    (∀ k, k ≠ idx → sc'.dp.get? k = sc.dp.get? k) ∧
    (∀ j, j < ps.length → sc'.bk.get? (bkIndex idx (d + j)) = (exceptionHighs blk b)[j]?) ∧
    (∀ a, a < bkIndex idx d ∨ bkIndex idx (d + ps.length) ≤ a →
      sc'.bk.get? a = sc.bk.get? a) ∧
    (exceptionHighs blk b).length = ps.length

/-- The length of a page in words, and its `meta_offset` (R85, R146). -/
def Obligations.PageLength : Prop :=
  ∀ blks : List (List Word), (∀ blk ∈ blks, blk.length = 128) →
    let L := (blks.map fun blk => 4 * (fpfSelected blk).1).sum
    let bytesize := (blks.map fun blk =>
      2 + if (fpfSelected blk).2.1 > 0 then 1 + (fpfSelected blk).2.1 else 0).sum
    let n := fun k => (bucketValues blks k).length
    (pageImage blks).length =
      3 + L + ceilDiv bytesize 4 +
        (bucketNumbers.map fun k => if n k > 0 then 1 + k * ceilDiv (n k) 32 else 0).sum ∧
    (pageImage blks)[0]? = some (BitVec.ofNat 32 (1 + L)) ∧
    (pageImage blks)[1 + L]? = some (BitVec.ofNat 32 bytesize)

/-- A page of no blocks (R140, corner case): `THISSIZE < 128` writes the three words 1, 0, 0 and
leaves `INPOS`. -/
def Obligations.FpfEncpageOfNoBlocks : Prop :=
  ∀ (s : State) (ip op : Word), s.ready ip op → s.thissize.toNat < 128 →
    op.toNat + 3 ≤ s.params.dstLen.toNat →
    ∃ t, exec .fpfEncpage s = .next t ∧ s.Completes t ip.toNat op.toNat 0 [1, 0, 0]

/-- The page encoder writes the page format (R85 to R90, R140 to R149): on specified values
`FPF.ENCPAGE` completes, having written the page image of its blocks. -/
def Obligations.FpfEncpageWritesThePageFormat : Prop :=
  ∀ (s : State) (ip op : Word) (vs : List Word), s.ready ip op →
    s.thissize.toNat ≤ pageSize s.params → vs.length = 128 * (s.thissize.toNat / 128) →
    s.src.holds ip.toNat vs → ip.toNat + vs.length ≤ s.params.srcLen.toNat →
    op.toNat + (pageImage (blocksOf vs)).length ≤ s.params.dstLen.toNat →
    ∃ t, exec .fpfEncpage s = .next t ∧
      s.Completes t ip.toNat op.toNat vs.length (pageImage (blocksOf vs))

/-- The facade writes the stream format (R80, R81, R150, R151): on specified values `FPF.COMPRESS`
completes, having written the stream of the whole blocks; the tail is dropped. -/
def Obligations.FpfCompressWritesTheStreamFormat : Prop :=
  ∀ (s : State) (ip op : Word) (vs : List Word), s.ready ip op →
    vs.length = 128 * (s.inlen.toNat / 128) → 128 ≤ s.inlen.toNat →
    s.src.holds ip.toNat vs → ip.toNat + vs.length ≤ s.params.srcLen.toNat →
    op.toNat + (streamImage (pageSize s.params) vs).length ≤ s.params.dstLen.toNat →
    ∃ t, exec .fpfCompress s = .next t ∧
      s.Completes t ip.toNat op.toNat vs.length (streamImage (pageSize s.params) vs)

/-! ### The FastPFOR decoder -/

/-- The checks on a block's first two bytes, in order (R176, R256): running out of bytes, then the
width, then the exception count. -/
def Obligations.FpfBlockHeaderChecks : Prop :=
  ∀ (w : Work) (p n : Nat) (b c : Byte), w.s.scratch.bbpos = some p → w.s.scratch.bblen = some n →
    (n ≤ p → ∃ e, fpfDecodeBlock w = .error e ∧ e.cause = .bytebufOverrun ∧ e.info = p) ∧
    (n = p + 1 → ∃ e, fpfDecodeBlock w = .error e ∧ e.cause = .bytebufOverrun ∧ e.info = p + 1) ∧
    (p + 2 ≤ n → w.s.scratch.bb.get? p = some b → w.s.scratch.bb.get? (p + 1) = some c →
      (32 < b.toNat → ∃ e, fpfDecodeBlock w = .error e ∧ e.cause = .badWidth ∧ e.info = b.toNat) ∧
      (b.toNat ≤ 32 → 128 < c.toNat →
        ∃ e, fpfDecodeBlock w = .error e ∧ e.cause = .badExceptCount ∧ e.info = c.toNat))

/-- The `maxb` byte of a block with `c` exceptions at width `b` (R176, R256): without exceptions nothing is
read; else running out of bytes, then `maxb > 32` or `maxb <= b`, then one multiplex step for each
exception, all with bucket `maxb - b`. -/
def Obligations.FpfMaxbChecks : Prop :=
  ∀ (w : Work) (b c p n : Nat), w.s.scratch.bbpos = some p → w.s.scratch.bblen = some n →
    (c = 0 → mergeExceptions b c w = .ok w) ∧
    (0 < c → n ≤ p →
      ∃ e, mergeExceptions b c w = .error e ∧ e.cause = .bytebufOverrun ∧ e.info = p) ∧
    ∀ m : Byte, 0 < c → p < n → w.s.scratch.bb.get? p = some m →
      (32 < m.toNat ∨ m.toNat ≤ b →
        ∃ e, mergeExceptions b c w = .error e ∧ e.cause = .badMaxb ∧ e.info = m.toNat) ∧
      (b < m.toNat → m.toNat ≤ 32 →
        mergeExceptions b c w = iter (multiplex (m.toNat - b) b) c
          (w.onScratch fun sc => { sc with bbpos := some (p + 1) }))

/-- The multiplex step for one exception (R177, R256): running out of bytes, then the position, then the
bucket, then the place in `DST`; else the next value of the selected bucket is ORed into its place,
`BBPOS` and `DP[idx]` advance, and nothing else changes. -/
def Obligations.MultiplexTakesTheNextBucketValue : Prop :=
  ∀ (w : Work) (idx b p n : Nat), w.s.scratch.bbpos = some p → w.s.scratch.bblen = some n →
    (n ≤ p → ∃ e, multiplex idx b w = .error e ∧ e.cause = .bytebufOverrun ∧ e.info = p) ∧
    ∀ (pos : Byte) (d k : Nat), p < n → w.s.scratch.bb.get? p = some pos →
      w.s.scratch.dp.get? idx = some d → w.s.scratch.bsize.get? idx = some k →
      (128 ≤ pos.toNat →
        ∃ e, multiplex idx b w = .error e ∧ e.cause = .badPosition ∧ e.info = pos.toNat) ∧
      (pos.toNat < 128 → k ≤ d →
        ∃ e, multiplex idx b w = .error e ∧ e.cause = .bucketOverrun ∧ e.info = idx) ∧
      (pos.toNat < 128 → d < k → w.s.params.dstLen.toNat ≤ w.op + pos.toNat →
        ∃ e, multiplex idx b w = .error e ∧ e.cause = .dstBounds ∧ e.info = w.op + pos.toNat) ∧
      ∀ val x : Word, pos.toNat < 128 → d < k → w.op + pos.toNat < w.s.params.dstLen.toNat →
        w.s.scratch.bk.get? (bkIndex idx d) = some val →
        w.s.dst.get? (w.op + pos.toNat) = some x →
        ∃ w', multiplex idx b w = .ok w' ∧ w'.ip = w.ip ∧ w'.op = w.op ∧
          w'.s = { w.s with
            dst := w'.s.dst
            tick := w'.s.tick
            scratch := { w.s.scratch with bbpos := some (p + 1), dp := w'.s.scratch.dp } } ∧
          w'.s.scratch.dp.get? idx = some (d + 1) ∧
          (∀ j, j ≠ idx → w'.s.scratch.dp.get? j = w.s.scratch.dp.get? j) ∧
          w'.s.dst.get? (w.op + pos.toNat) = some (x ||| shl32 val b) ∧
          w.s.dst.sameOutside w'.s.dst (w.op + pos.toNat) 1

/-- The count word of a stream, on both decompressors (R180, R225): a count that is no multiple of 128
is `BAD_COUNT`, a count of 0 consumes one word and writes nothing, and a cursor at or past the end of
`SRC` is `SRC_BOUNDS`. -/
def Obligations.UncompressChecksTheCountWord : Prop :=
  ∀ (s : State) (ip op n : Word), s.ready ip op → s.inlen.toNat ≠ 0 →
    ∀ i : Instr, i = .fpfUncompress ∨ i = .opdUncompress →
      (s.params.srcLen.toNat ≤ ip.toNat →
        ∃ t, exec i s = .next t ∧ s.LateFault t op.toNat 2 ip) ∧
      (ip.toNat < s.params.srcLen.toNat → s.src.get? ip.toNat = some n → n.toNat % 128 ≠ 0 →
        ∃ t, exec i s = .next t ∧ s.LateFault t op.toNat 10 n) ∧
      (ip.toNat < s.params.srcLen.toNat → s.src.get? ip.toNat = some n → n = 0 →
        ∃ t, exec i s = .next t ∧ s.Completes t ip.toNat op.toNat 1 [])

/-- Decoding no blocks (R170, corner case; R171 to R174): `THISSIZE < 128` writes nothing, and `INPOS` ends
after the meta section, wherever the page's head word says that section lies, and whatever byte buffer
and buckets within the capacities it holds: `cnt k` and `ws k` are the count and the words of bucket
`k`, for each bit of the bitmap that is set. -/
def Obligations.FpfDecpageOfNoBlocks : Prop :=
  ∀ (s : State) (ip op m size bitmap : Word) (bytes : List Word) (cnt : Nat → Word)
    (ws : Nat → List Word), s.ready ip op → s.thissize.toNat < 128 →
    bytes.length = ceilDiv size.toNat 4 → 4 * bytes.length ≤ byteBufCap s.params →
    (∀ k, 1 ≤ k → k ≤ 32 → bitmap.getLsbD (k - 1) = true →
      (cnt k).toNat ≤ bucketCap s.params ∧ (ws k).length = k * ceilDiv (cnt k).toNat 32) →
    let section_ := size :: bytes ++ bitmap :: bucketNumbers.flatMap fun k =>
      if bitmap.getLsbD (k - 1) then cnt k :: ws k else []
    s.src.get? ip.toNat = some m → s.src.holds (ip.toNat + m.toNat) section_ →
    ip.toNat + m.toNat + section_.length ≤ s.params.srcLen.toNat →
    ∃ t, exec .fpfDecpage s = .next t ∧
      s.Completes t ip.toNat op.toNat (m.toNat + section_.length) []

/-- The two capacity checks of the meta section: a byte count whose padded size exceeds `BYTEBUF_CAP`
(R172) and a bucket count above `BUCKET_CAP` (R174), each with the count read; a bucket the bitmap does
not name reads nothing. Then the same two of `FPF.DECPAGE`, the second for the lowest bucket of a page
whose byte buffer is empty. -/
def Obligations.FpfMetaCapacityChecks : Prop :=
  (∀ (w : Work) (size : Word), w.ip < w.s.params.srcLen.toNat → w.s.src.get? w.ip = some size →
    byteBufCap w.s.params < 4 * ceilDiv size.toNat 4 →
    ∃ e, loadBytes w = .error e ∧ e.cause = .bytebufOverrun ∧ e.info = size.toNat) ∧
  (∀ (w : Work) (bitmap size : Word) (k : Nat),
    (bitmap.getLsbD (k - 1) = false → loadBucket bitmap k w = .ok w) ∧
    (bitmap.getLsbD (k - 1) = true → w.ip < w.s.params.srcLen.toNat →
      w.s.src.get? w.ip = some size → bucketCap w.s.params < size.toNat →
      ∃ e, loadBucket bitmap k w = .error e ∧ e.cause = .bucketOverrun ∧ e.info = size.toNat)) ∧
  ∀ (s : State) (ip op m size : Word), s.ready ip op → s.thissize.toNat ≤ pageSize s.params →
    ip.toNat < s.params.srcLen.toNat → s.src.get? ip.toNat = some m →
    (ip.toNat + m.toNat < s.params.srcLen.toNat → s.src.get? (ip.toNat + m.toNat) = some size →
      byteBufCap s.params < 4 * ceilDiv size.toNat 4 →
      ∃ t, exec .fpfDecpage s = .next t ∧ s.LateFault t op.toNat 8 size) ∧
    ∀ (bitmap : Word) (k : Nat), 1 ≤ k → bitmap.getLsbD (k - 1) = true →
      (∀ j, j < k - 1 → bitmap.getLsbD j = false) →
      ip.toNat + m.toNat + 2 < s.params.srcLen.toNat →
      s.src.get? (ip.toNat + m.toNat) = some 0 →
      s.src.get? (ip.toNat + m.toNat + 1) = some bitmap →
      s.src.get? (ip.toNat + m.toNat + 2) = some size → bucketCap s.params < size.toNat →
      ∃ t, exec .fpfDecpage s = .next t ∧ s.LateFault t op.toNat 9 size

/-- The page decoder reverses the page format (R182(a), for one page): on the page of any values that
fit a page, `FPF.DECPAGE` completes, having written those values. -/
def Obligations.FpfDecpageReversesThePage : Prop :=
  ∀ (s : State) (ip op : Word) (vs : List Word), s.ready ip op →
    s.thissize.toNat ≤ pageSize s.params → vs.length = 128 * (s.thissize.toNat / 128) →
    s.src.holds ip.toNat (pageImage (blocksOf vs)) →
    ip.toNat + (pageImage (blocksOf vs)).length ≤ s.params.srcLen.toNat →
    op.toNat + vs.length ≤ s.params.dstLen.toNat →
    ∃ t, exec .fpfDecpage s = .next t ∧
      s.Completes t ip.toNat op.toNat (pageImage (blocksOf vs)).length vs

/-- The round trip of FastPFOR (R19(1), R153(b), R182(a)): on the stream of any whole number of blocks,
`FPF.UNCOMPRESS` completes, having written those values and consumed exactly the stream. -/
def Obligations.FpfUncompressReversesTheStream : Prop :=
  ∀ (s : State) (ip op : Word) (vs : List Word), s.ready ip op → s.inlen.toNat ≠ 0 →
    vs.length % 128 = 0 → vs.length < 2 ^ 32 →
    s.src.holds ip.toNat (streamImage (pageSize s.params) vs) →
    ip.toNat + (streamImage (pageSize s.params) vs).length ≤ s.params.srcLen.toNat →
    op.toNat + vs.length ≤ s.params.dstLen.toNat →
    ∃ t, exec .fpfUncompress s = .next t ∧
      s.Completes t ip.toNat op.toNat (streamImage (pageSize s.params) vs).length vs

/-! ### OptPFD -/

/-- R205: `OPD.SELECT` writes the three results, `BESTB` the width index, and nothing else, or
faults. The coder is whatever the block has. -/
def Obligations.OpdSelectMeetsItsRule : Prop :=
  ∀ (s : State) (ip op : Word), s.ready ip op →
    (ip.toNat + 128 ≤ s.params.srcLen.toNat →
      ∃ (blk : List Word) (k : Nat), blk.length = 128 ∧ s.src.mayRead ip.toNat blk ∧
        exec .opdSelect s = .next (s.afterSelect (optSelected Config.s16 blk).1
          (optSelected Config.s16 blk).2.1 (optSelected Config.s16 blk).2.2 k)) ∧
    (s.params.srcLen.toNat < ip.toNat + 128 →
      ∃ t, exec .opdSelect s = .next t ∧
        s.LateFault t op.toNat 2 (BitVec.ofNat 32 (ip.toNat + 127)))

/-- R209: the properties of the OptPFD selector's result, for every coder and whatever scratch
holds. -/
def Obligations.OpdSelectorProperties : Prop :=
  ∀ (S : S16) (sc : Scratch) (blk : List Word) (besti n mb : Nat), blk.length = 128 →
    (opdSelect S sc blk).1 = (besti, n, mb) →
    besti ≤ 16 ∧ n ≤ 127 ∧ n = above blk (widthOf besti) ∧ (besti = 16 → n = 0) ∧
    opdMini mb ≤ widthOf besti ∧ (n = 0 → mb ≤ widthOf besti) ∧ isMaxWidth blk mb ∧
    (S.Empty → (∀ v ∈ blk, v = 0) → besti = 0 ∧ n = 0 ∧ mb = 0) ∧
    (∀ (S' : S16) (sc' : Scratch), S'.estimate = S.estimate →
      (opdSelect S' sc' blk).1 = (besti, n, mb))

/-- R208: the OptPFD selector returns the candidate of least cost, the smallest width among equals,
and the baseline only when every candidate costs more than 128 or is skipped. -/
def Obligations.OpdSelectorIsOptimal : Prop :=
  ∀ (S : S16) (sc : Scratch) (blk : List Word) (besti n mb : Nat), blk.length = 128 →
    (opdSelect S sc blk).1 = (besti, n, mb) →
    (besti = 16 ∧ ∀ i, optCandidate blk mb i → 128 < optCostOf S blk i) ∨
    (optCandidate blk mb besti ∧ optCostOf S blk besti ≤ 128 ∧
      ∀ i, optCandidate blk mb i →
        optCostOf S blk besti ≤ optCostOf S blk i ∧
        (optCostOf S blk i = optCostOf S blk besti → besti ≤ i))

/-- The page encoder writes the record format (R92 to R94, R210 to R212), with the payloads of the
block's own coder, as long as each fits its header field. -/
def Obligations.OpdEncpageWritesTheRecordFormat : Prop :=
  ∀ (s : State) (ip op : Word) (vs : List Word), s.ready ip op →
    s.thissize.toNat ≤ 65536 → vs.length = 128 * (s.thissize.toNat / 128) →
    s.src.holds ip.toNat vs → ip.toNat + vs.length ≤ s.params.srcLen.toNat →
    (∀ blk ∈ blocksOf vs, (optPayload Config.s16 blk).length ≤ 65535) →
    op.toNat + (optImage Config.s16 (blocksOf vs)).length ≤ s.params.dstLen.toNat →
    ∃ t, exec .opdEncpage s = .next t ∧
      s.Completes t ip.toNat op.toNat vs.length (optImage Config.s16 (blocksOf vs))

/-- The facade writes the OptPFD stream format (R92, R215). -/
def Obligations.OpdCompressWritesTheStreamFormat : Prop :=
  ∀ (s : State) (ip op : Word) (vs : List Word), s.ready ip op →
    vs.length = 128 * (s.inlen.toNat / 128) → 128 ≤ s.inlen.toNat →
    s.src.holds ip.toNat vs → ip.toNat + vs.length ≤ s.params.srcLen.toNat →
    (∀ blk ∈ blocksOf vs, (optPayload Config.s16 blk).length ≤ 65535) →
    op.toNat + (optStream Config.s16 vs).length ≤ s.params.dstLen.toNat →
    ∃ t, exec .opdCompress s = .next t ∧
      s.Completes t ip.toNat op.toNat vs.length (optStream Config.s16 vs)

/-- A payload too long for its header field, in `opd_encode_block` (R212), for every coder and on every
working state whose block lies in `SRC`: the block raises `S16_FAULT` with the payload's length. -/
def Obligations.OpdBlockOverlongPayloadFaults : Prop :=
  ∀ (S : S16) (w : Work) (blk : List Word), blk.length = 128 → w.s.src.holds w.ip blk →
    w.ip + 128 ≤ w.s.params.srcLen.toNat → 65535 < (optPayload S blk).length →
    ∃ e, opdEncodeBlock S w = .error e ∧ e.cause = .s16Fault ∧
      e.info = (optPayload S blk).length

/-- `OPD.DECPAGE` on records without exceptions (R220, R221), whatever the coder: it completes, having
written the unpacked values. -/
def Obligations.OpdDecpageOfPlainRecords : Prop :=
  ∀ (s : State) (ip op : Word) (rs : List (Nat × List Word)), s.ready ip op →
    s.thissize.toNat ≤ 65536 → rs.length = s.thissize.toNat / 128 → (∀ r ∈ rs, plainOk r) →
    s.src.holds ip.toNat (rs.flatMap plainRecord) →
    ip.toNat + (rs.flatMap plainRecord).length ≤ s.params.srcLen.toNat →
    op.toNat + 128 * rs.length ≤ s.params.dstLen.toNat →
    ∃ t, exec .opdDecpage s = .next t ∧
      s.Completes t ip.toNat op.toNat (rs.flatMap plainRecord).length (rs.flatMap plainValues)

/-- `OPD.DECPAGE` on records with and without exceptions (R220 to R222): the command is its procedure at
the block's own coder, and for every coder with the named properties `S16_ROUNDTRIP` and `S16_LEN` that
procedure turns the records the coder gives for any values of a page back into the values (the page
form of R226(b)). -/
def Obligations.OpdDecpageReversesTheRecords : Prop :=
  (∀ s : State, exec .opdDecpage s = runCommand s (opdDecpageBody Config.s16)) ∧
  ∀ S : S16, S.Roundtrip → S.Len →
    ∀ (s : State) (ip op : Word) (vs : List Word), s.ready ip op → s.thissize.toNat ≤ 65536 →
      vs.length = 128 * (s.thissize.toNat / 128) →
      s.src.holds ip.toNat (optImage S (blocksOf vs)) →
      ip.toNat + (optImage S (blocksOf vs)).length ≤ s.params.srcLen.toNat →
      op.toNat + vs.length ≤ s.params.dstLen.toNat →
      ∃ t, runCommand s (opdDecpageBody S) = .next t ∧
        s.Completes t ip.toNat op.toNat (optImage S (blocksOf vs)).length vs

/-- `OPD.UNCOMPRESS` on a stream of records without exceptions (R225), whatever the coder. -/
def Obligations.OpdUncompressOfPlainRecords : Prop :=
  ∀ (s : State) (ip op : Word) (rs : List (Nat × List Word)), s.ready ip op →
    s.inlen.toNat ≠ 0 → 128 * rs.length < 2 ^ 32 → (∀ r ∈ rs, plainOk r) →
    s.src.holds ip.toNat (BitVec.ofNat 32 (128 * rs.length) :: rs.flatMap plainRecord) →
    ip.toNat + (1 + (rs.flatMap plainRecord).length) ≤ s.params.srcLen.toNat →
    op.toNat + 128 * rs.length ≤ s.params.dstLen.toNat →
    ∃ t, exec .opdUncompress s = .next t ∧
      s.Completes t ip.toNat op.toNat (1 + (rs.flatMap plainRecord).length)
        (rs.flatMap plainValues)

/-- The header checks of the OptPFD decoder (R221, R223), at the start of a block: a header that fails
one is `BAD_OPT_HEADER` with the header word, for every coder. -/
def Obligations.OpdHeaderChecks : Prop :=
  ∀ (S : S16) (w : Work) (h : Word), w.ip < w.s.params.srcLen.toNat → w.s.src.get? w.ip = some h →
    let besti := (h.extractLsb' 0 8).toNat
    let n := (h.extractLsb' 8 8).toNat
    let es := (h.extractLsb' 16 16).toNat
    (16 < besti ∨ 128 < n ∨ (n = 0 ∧ es ≠ 0) ∨ (besti = 16 ∧ 0 < n)) →
    ∃ e, opdDecodeBlock S w = .error e ∧ e.cause = .badOptHeader ∧ e.info = h.toNat

/-- The payload of a block with `n` exceptions (R221, R223), for every coder: without exceptions nothing is
read; else the `es` words are read, a coder that fails on them is `S16_FAULT` with `es`, and one that
does not fills `EB[0 .. 2n-1]`, nothing else changing. Then the fault of the `OPD.DECPAGE` procedure
whose first block has such a payload. -/
def Obligations.OpdPayloadIsDecodedOrFaults : Prop :=
  ∀ S : S16,
    (∀ (n es : Nat) (w : Work),
      (n = 0 → loadPayload S n es w = .ok w) ∧
      (0 < n → 0 < es → w.s.params.srcLen.toNat < w.ip + es →
        ∃ e, loadPayload S n es w = .error e ∧ e.cause = .srcBounds ∧ e.info = w.ip + es - 1) ∧
      ∀ pl : List Word, 0 < n → (es = 0 ∨ w.ip + es ≤ w.s.params.srcLen.toNat) → pl.length = es →
        w.s.src.holds w.ip pl →
        (S.uncompress pl es (2 * n) = none →
          ∃ e, loadPayload S n es w = .error e ∧ e.cause = .s16Fault ∧ e.info = es) ∧
        ∀ r : Vector Word (2 * n), S.uncompress pl es (2 * n) = some r →
          ∃ w', loadPayload S n es w = .ok w' ∧ w'.ip = w.ip + es ∧ w'.op = w.op ∧
            w'.s = { w.s with
              tick := w'.s.tick
              scratch := { w.s.scratch with eb := w'.s.scratch.eb } } ∧
            (∀ j, j < 2 * n → w'.s.scratch.eb.get? j = r.toList[j]?) ∧
            ∀ j, 2 * n ≤ j → w'.s.scratch.eb.get? j = w.s.scratch.eb.get? j) ∧
    ∀ (s : State) (ip op h : Word) (pl : List Word), s.ready ip op → 128 ≤ s.thissize.toNat →
      s.thissize.toNat ≤ 65536 → s.src.get? ip.toNat = some h →
      let besti := (h.extractLsb' 0 8).toNat
      let n := (h.extractLsb' 8 8).toNat
      let es := (h.extractLsb' 16 16).toNat
      besti ≤ 15 → 1 ≤ n → n ≤ 128 → pl.length = es → s.src.holds (ip.toNat + 1) pl →
      ip.toNat + 1 + es ≤ s.params.srcLen.toNat → S.uncompress pl es (2 * n) = none →
      ∃ t, runCommand s (opdDecpageBody S) = .next t ∧
        s.LateFault t op.toNat 13 (BitVec.ofNat 32 es)

/-- The patch step of the OptPFD decoder (R222): the position check, then the place in `DST`, then the
payload ORed in at its width; nothing else of the working state changes but the model's own count of
free values. -/
def Obligations.OpdPatchOrsThePayload : Prop :=
  ∀ (w : Work) (n b k : Nat) (pos v x : Word), w.s.scratch.eb.get? (n + k) = some pos →
    w.s.scratch.eb.get? k = some v →
    (128 ≤ pos.toNat →
      ∃ e, opdPatch n b k w = .error e ∧ e.cause = .badPosition ∧ e.info = pos.toNat) ∧
    (pos.toNat < 128 → w.s.params.dstLen.toNat ≤ w.op + pos.toNat →
      ∃ e, opdPatch n b k w = .error e ∧ e.cause = .dstBounds ∧ e.info = w.op + pos.toNat) ∧
    (pos.toNat < 128 → w.op + pos.toNat < w.s.params.dstLen.toNat →
      w.s.dst.get? (w.op + pos.toNat) = some x →
      ∃ w', opdPatch n b k w = .ok w' ∧ w'.ip = w.ip ∧ w'.op = w.op ∧
        w'.s = { w.s with dst := w'.s.dst, tick := w'.s.tick } ∧
        w'.s.dst.get? (w.op + pos.toNat) = some (x ||| shl32 v b) ∧
        w.s.dst.sameOutside w'.s.dst (w.op + pos.toNat) 1)

/-- The round trip of OptPFD (R226(b)): for every coder with the named properties `S16_ROUNDTRIP` and
`S16_LEN`, the decompressor built on it turns the stream that coder gives back into its values. -/
def Obligations.OpdUncompressReversesTheStream : Prop :=
  ∀ S : S16, S.Roundtrip → S.Len →
    ∀ (s : State) (ip op : Word) (vs : List Word), s.ready ip op → s.inlen.toNat ≠ 0 →
      vs.length % 128 = 0 → vs.length < 2 ^ 32 →
      s.src.holds ip.toNat (optStream S vs) →
      ip.toNat + (optStream S vs).length ≤ s.params.srcLen.toNat →
      op.toNat + vs.length ≤ s.params.dstLen.toNat →
      ∃ t, runCommand s (opdUncompressBody S) = .next t ∧
        s.Completes t ip.toNat op.toNat (optStream S vs).length vs
end

