-- ==== Sys2Proof/Laws/Arr.lean ====
section
/-! SUPPORT. Sparse arrays and memories: read after write, reads elsewhere, and the canonical form is
kept by every operation. -/

namespace Sys2Proof.Machine

variable {α : Type}

@[simp] theorem get?_nil (a : Nat) : Arr.get? ([] : Arr α) a = none := rfl

/-- Reading past an append looks in the first part first. -/
theorem get?_append (m m' : Arr α) (a : Nat) :
    Arr.get? (m ++ m') a = (Arr.get? m a).or (Arr.get? m' a) := by
  induction m with
  | nil => simp
  | cons c m ih =>
    obtain ⟨k, v⟩ := c
    by_cases h : k = a <;> simp [Arr.get?, h, ih]

/-- Reading after a filter on indices. -/
theorem get?_filter (m : Arr α) (p : Nat → Bool) (a : Nat) :
    Arr.get? (m.filter fun c => p c.1) a = if p a then Arr.get? m a else none := by
  induction m with
  | nil => simp
  | cons c m ih =>
    obtain ⟨k, v⟩ := c
    by_cases hk : p k <;> by_cases h : k = a <;> simp_all [Arr.get?]

/-- The cells of a list hold its elements from index `a` on and nothing else. -/
theorem get?_cells (a : Nat) (vs : List α) (i : Nat) :
    Arr.get? (Arr.cells a vs) i = if a ≤ i then vs[i - a]? else none := by
  induction vs generalizing a with
  | nil => simp [Arr.cells]
  | cons v vs ih =>
    rw [Arr.cells, Arr.get?, ih]
    rcases Nat.lt_trichotomy a i with h | h | h
    · obtain ⟨d, rfl⟩ := Nat.exists_eq_add_of_lt h
      have : a + d + 1 - a = d + 1 := by omega
      have h2 : a + d + 1 - (a + 1) = d := by omega
      simp [this, h2, show ¬ a = a + d + 1 by omega, show a + 1 ≤ a + d + 1 by omega, show a ≤ a + d + 1 by omega]
    · simp [h]
    · simp [show ¬ a = i by omega, show ¬ a ≤ i by omega, show ¬ a + 1 ≤ i by omega]

/-- READ AFTER WRITE: after `Arr.write m a vs` the elements `a .. a + length - 1` are those of `vs`, and
every other element reads as before. -/
theorem get?_write (m : Arr α) (a : Nat) (vs : List α) (i : Nat) :
    (Arr.write m a vs).get? i =
      if a ≤ i ∧ i < a + vs.length then vs[i - a]? else m.get? i := by
  unfold Arr.write
  rw [get?_append, get?_append, get?_filter m (fun k => decide (k < a)),
    get?_filter m (fun k => decide (a + vs.length ≤ k)), get?_cells]
  by_cases h1 : i < a
  · simp [h1, show ¬ a ≤ i by omega, show ¬ a + vs.length ≤ i by omega]
  · by_cases h2 : a + vs.length ≤ i
    · have : vs.length ≤ i - a := by omega
      simp [h1, h2, show a ≤ i by omega, this, show ¬ i < a + vs.length by omega]
    · have : i - a < vs.length := by omega
      simp [h1, h2, show a ≤ i by omega, this, show i < a + vs.length by omega]

/-- A written element reads as written. -/
theorem get?_write_one (m : Arr α) (a : Nat) (v : α) (i : Nat) :
    (Arr.write m a [v]).get? i = if i = a then some v else m.get? i := by
  rw [get?_write]
  by_cases h : i = a
  · simp [h]
  · rw [if_neg (by simp only [List.length_singleton]; omega), if_neg h]

/-- After `forget` nothing at or above `a` is specified, and everything below reads as before. -/
theorem get?_forget (m : Arr α) (a i : Nat) :
    (Arr.forget m a).get? i = if i < a then m.get? i else none := by
  have := get?_filter m (fun k => decide (k < a)) i
  simpa [Arr.forget] using this

/-- Writing nothing changes no element. -/
@[simp] theorem get?_write_nil (m : Arr α) (a i : Nat) : (Arr.write m a []).get? i = m.get? i := by
  rw [get?_write]; simp

/-- The canonical form, unfolded once. -/
theorem wf_iff (m : Arr α) (len : Nat) :
    Arr.wf m len = true ↔ m.Pairwise (fun c d => c.1 < d.1) ∧ ∀ c ∈ m, c.1 < len := by
  induction m with
  | nil => simp [Arr.wf]
  | cons c m ih =>
    obtain ⟨k, v⟩ := c
    simp only [Arr.wf, Bool.and_eq_true, decide_eq_true_eq, List.all_eq_true, ih, List.pairwise_cons,
      List.mem_cons, forall_eq_or_imp]
    tauto

/-- The indices of the cells of a list. -/
theorem mem_cells {a : Nat} {vs : List α} {c : Nat × α} (h : c ∈ Arr.cells a vs) :
    a ≤ c.1 ∧ c.1 < a + vs.length := by
  induction vs generalizing a with
  | nil => simp [Arr.cells] at h
  | cons v vs ih =>
    simp only [Arr.cells, List.mem_cons] at h
    rcases h with rfl | h
    · simp
    · have := ih h
      simp only [List.length_cons]
      omega

/-- The cells of a list rise strictly. -/
theorem cells_pairwise (a : Nat) (vs : List α) :
    (Arr.cells a vs).Pairwise (fun c d => c.1 < d.1) := by
  induction vs generalizing a with
  | nil => simp [Arr.cells]
  | cons v vs ih =>
    simp only [Arr.cells, List.pairwise_cons]
    exact ⟨fun c hc => by have := mem_cells hc; omega, ih (a + 1)⟩

/-- A write within the memory keeps the canonical form. -/
theorem wf_write {m : Arr α} {len a : Nat} {vs : List α} (hm : Arr.wf m len = true)
    (h : vs.length = 0 ∨ a + vs.length ≤ len) : Arr.wf (Arr.write m a vs) len = true := by
  rw [wf_iff] at hm ⊢
  obtain ⟨hp, hb⟩ := hm
  refine ⟨?_, ?_⟩
  · unfold Arr.write
    refine List.pairwise_append.2 ⟨List.pairwise_append.2
      ⟨hp.filter _, cells_pairwise a vs, ?_⟩, hp.filter _, ?_⟩
    · intro c hc d hd
      have := mem_cells hd
      simp only [List.mem_filter, decide_eq_true_eq] at hc
      omega
    · intro c hc d hd
      simp only [List.mem_filter, decide_eq_true_eq] at hd
      rcases List.mem_append.1 hc with hc | hc
      · simp only [List.mem_filter, decide_eq_true_eq] at hc
        omega
      · have := mem_cells hc
        omega
  · intro c hc
    unfold Arr.write at hc
    simp only [List.mem_append, List.mem_filter] at hc
    rcases hc with (hc | hc) | hc
    · exact hb c hc.1
    · have := mem_cells hc
      omega
    · exact hb c hc.1

/-- Forgetting keeps the canonical form. -/
theorem wf_forget {m : Arr α} {len : Nat} (a : Nat) (hm : Arr.wf m len = true) :
    Arr.wf (Arr.forget m a) len = true := by
  rw [wf_iff] at hm ⊢
  exact ⟨hm.1.filter _, fun c hc => hm.2 c (List.mem_filter.1 hc).1⟩

/-- The empty memory has the canonical form: reset's memories do. -/
@[simp] theorem wf_nil (len : Nat) : Arr.wf ([] : Arr α) len = true := rfl

/-- A list placed in an empty array is held by it. -/
theorem get?_cells_zero (vs : List α) (i : Nat) : (Arr.cells 0 vs).get? i = vs[i]? := by
  simp [get?_cells]

/-- EQUAL MEMORIES ARE EQUAL DATA: two arrays in canonical form that read the same everywhere are
the same list. -/
theorem eq_of_get?_eq {m m' : Arr α} {len len' : Nat} (h : Arr.wf m len = true)
    (h' : Arr.wf m' len' = true) (hg : ∀ i, m.get? i = m'.get? i) : m = m' := by
  have low : ∀ (k i : Nat) (m : Arr α), (∀ c ∈ m, k < c.1) → i ≤ k → Arr.get? m i = none := by
    intro k i m hm hi
    induction m with
    | nil => rfl
    | cons c m ih =>
      have hc := hm c (by simp)
      rw [Arr.get?, if_neg (by omega)]
      exact ih fun d hd => hm d (by simp [hd])
  rw [wf_iff] at h h'
  have hp := h.1
  have hp' := h'.1
  clear h h'
  induction m generalizing m' with
  | nil =>
    cases m' with
    | nil => rfl
    | cons c m' => have := hg c.1; simp [Arr.get?] at this
  | cons c m ih =>
    cases m' with
    | nil => have := hg c.1; simp [Arr.get?] at this
    | cons c' m' =>
      obtain ⟨k, v⟩ := c
      obtain ⟨k', v'⟩ := c'
      rw [List.pairwise_cons] at hp hp'
      have hk : k = k' := by
        rcases Nat.lt_trichotomy k k' with hlt | heq | hlt
        · have h1 := hg k
          rw [Arr.get?, if_pos rfl, Arr.get?, if_neg (by omega), low k' k m' hp'.1 (by omega)] at h1
          simp at h1
        · exact heq
        · have h1 := hg k'
          rw [Arr.get?, if_neg (by omega), low k k' m hp.1 (by omega), Arr.get?, if_pos rfl] at h1
          simp at h1
      subst hk
      have hv := hg k
      simp only [Arr.get?, if_true, Option.some.injEq] at hv
      subst hv
      congr 1
      refine ih (fun i => ?_) hp.2 hp'.2
      by_cases hi : k = i
      · subst hi
        rw [low k k m hp.1 le_rfl, low k k m' hp'.1 le_rfl]
      · have := hg i
        simpa [Arr.get?, hi] using this

end Sys2Proof.Machine
end

