-- ==== Sys2Proof/Laws/State.lean ====
section
/-! SUPPORT. One lemma per field per update of the state, all by definition, so that no later proof
unfolds a record update. -/

namespace Sys2Proof.Machine

/-! ### `draw` -/

@[simp] theorem draw_params (s : State) (n : Nat) : (s.draw n).params = s.params := rfl
@[simp] theorem draw_status (s : State) (n : Nat) : (s.draw n).status = s.status := rfl
@[simp] theorem draw_fcause (s : State) (n : Nat) : (s.draw n).fcause = s.fcause := rfl
@[simp] theorem draw_finfo (s : State) (n : Nat) : (s.draw n).finfo = s.finfo := rfl
@[simp] theorem draw_inpos (s : State) (n : Nat) : (s.draw n).inpos = s.inpos := rfl
@[simp] theorem draw_outpos (s : State) (n : Nat) : (s.draw n).outpos = s.outpos := rfl
@[simp] theorem draw_inlen (s : State) (n : Nat) : (s.draw n).inlen = s.inlen := rfl
@[simp] theorem draw_thissize (s : State) (n : Nat) : (s.draw n).thissize = s.thissize := rfl
@[simp] theorem draw_bestb (s : State) (n : Nat) : (s.draw n).bestb = s.bestb := rfl
@[simp] theorem draw_cexcept (s : State) (n : Nat) : (s.draw n).cexcept = s.cexcept := rfl
@[simp] theorem draw_maxb (s : State) (n : Nat) : (s.draw n).maxb = s.maxb := rfl
@[simp] theorem draw_scratch (s : State) (n : Nat) : (s.draw n).scratch = s.scratch := rfl
@[simp] theorem draw_src (s : State) (n : Nat) : (s.draw n).src = s.src := rfl
@[simp] theorem draw_dst (s : State) (n : Nat) : (s.draw n).dst = s.dst := rfl
@[simp] theorem draw_host (s : State) (n : Nat) : (s.draw n).host = s.host := rfl
@[simp] theorem draw_rdata (s : State) (n : Nat) : (s.draw n).rdata = s.rdata := rfl
@[simp] theorem draw_tick (s : State) (n : Nat) : (s.draw n).tick = s.tick + n := rfl

/-! ### `closeResults` -/

@[simp] theorem closeResults_params (s : State) : (s.closeResults).params = s.params := rfl
@[simp] theorem closeResults_status (s : State) : (s.closeResults).status = s.status := rfl
@[simp] theorem closeResults_fcause (s : State) : (s.closeResults).fcause = s.fcause := rfl
@[simp] theorem closeResults_finfo (s : State) : (s.closeResults).finfo = s.finfo := rfl
@[simp] theorem closeResults_inpos (s : State) : (s.closeResults).inpos = s.inpos := rfl
@[simp] theorem closeResults_outpos (s : State) : (s.closeResults).outpos = s.outpos := rfl
@[simp] theorem closeResults_inlen (s : State) : (s.closeResults).inlen = s.inlen := rfl
@[simp] theorem closeResults_thissize (s : State) : (s.closeResults).thissize = s.thissize := rfl
@[simp] theorem closeResults_bestb (s : State) : (s.closeResults).bestb = .unspecified := rfl
@[simp] theorem closeResults_cexcept (s : State) : (s.closeResults).cexcept = .unspecified := rfl
@[simp] theorem closeResults_maxb (s : State) : (s.closeResults).maxb = .unspecified := rfl
@[simp] theorem closeResults_scratch (s : State) : (s.closeResults).scratch = Scratch.unspecified := rfl
@[simp] theorem closeResults_src (s : State) : (s.closeResults).src = s.src := rfl
@[simp] theorem closeResults_dst (s : State) : (s.closeResults).dst = s.dst := rfl
@[simp] theorem closeResults_host (s : State) : (s.closeResults).host = s.host := rfl
@[simp] theorem closeResults_rdata (s : State) : (s.closeResults).rdata = s.rdata := rfl
@[simp] theorem closeResults_tick (s : State) : (s.closeResults).tick = s.tick := rfl

/-! ### `recordFault` -/

@[simp] theorem recordFault_params (s : State) (c : Cause) (info : Nat) : (s.recordFault c info).params = s.params := rfl
@[simp] theorem recordFault_status (s : State) (c : Cause) (info : Nat) : (s.recordFault c info).status = setFault s.status := rfl
@[simp] theorem recordFault_fcause (s : State) (c : Cause) (info : Nat) : (s.recordFault c info).fcause = BitVec.ofNat 32 (causeCode c) := rfl
@[simp] theorem recordFault_finfo (s : State) (c : Cause) (info : Nat) : (s.recordFault c info).finfo = BitVec.ofNat 32 info := rfl
@[simp] theorem recordFault_inpos (s : State) (c : Cause) (info : Nat) : (s.recordFault c info).inpos = s.inpos := rfl
@[simp] theorem recordFault_outpos (s : State) (c : Cause) (info : Nat) : (s.recordFault c info).outpos = s.outpos := rfl
@[simp] theorem recordFault_inlen (s : State) (c : Cause) (info : Nat) : (s.recordFault c info).inlen = s.inlen := rfl
@[simp] theorem recordFault_thissize (s : State) (c : Cause) (info : Nat) : (s.recordFault c info).thissize = s.thissize := rfl
@[simp] theorem recordFault_bestb (s : State) (c : Cause) (info : Nat) : (s.recordFault c info).bestb = s.bestb := rfl
@[simp] theorem recordFault_cexcept (s : State) (c : Cause) (info : Nat) : (s.recordFault c info).cexcept = s.cexcept := rfl
@[simp] theorem recordFault_maxb (s : State) (c : Cause) (info : Nat) : (s.recordFault c info).maxb = s.maxb := rfl
@[simp] theorem recordFault_scratch (s : State) (c : Cause) (info : Nat) : (s.recordFault c info).scratch = s.scratch := rfl
@[simp] theorem recordFault_src (s : State) (c : Cause) (info : Nat) : (s.recordFault c info).src = s.src := rfl
@[simp] theorem recordFault_dst (s : State) (c : Cause) (info : Nat) : (s.recordFault c info).dst = s.dst := rfl
@[simp] theorem recordFault_host (s : State) (c : Cause) (info : Nat) : (s.recordFault c info).host = s.host := rfl
@[simp] theorem recordFault_rdata (s : State) (c : Cause) (info : Nat) : (s.recordFault c info).rdata = s.rdata := rfl
@[simp] theorem recordFault_tick (s : State) (c : Cause) (info : Nat) : (s.recordFault c info).tick = s.tick := rfl

/-! ### `loseWork` -/

@[simp] theorem loseWork_params (s : State) (o : Nat) : (s.loseWork o).params = s.params := rfl
@[simp] theorem loseWork_status (s : State) (o : Nat) : (s.loseWork o).status = s.status := rfl
@[simp] theorem loseWork_fcause (s : State) (o : Nat) : (s.loseWork o).fcause = s.fcause := rfl
@[simp] theorem loseWork_finfo (s : State) (o : Nat) : (s.loseWork o).finfo = s.finfo := rfl
@[simp] theorem loseWork_inpos (s : State) (o : Nat) : (s.loseWork o).inpos = .unspecified := rfl
@[simp] theorem loseWork_outpos (s : State) (o : Nat) : (s.loseWork o).outpos = .unspecified := rfl
@[simp] theorem loseWork_inlen (s : State) (o : Nat) : (s.loseWork o).inlen = s.inlen := rfl
@[simp] theorem loseWork_thissize (s : State) (o : Nat) : (s.loseWork o).thissize = s.thissize := rfl
@[simp] theorem loseWork_bestb (s : State) (o : Nat) : (s.loseWork o).bestb = .unspecified := rfl
@[simp] theorem loseWork_cexcept (s : State) (o : Nat) : (s.loseWork o).cexcept = .unspecified := rfl
@[simp] theorem loseWork_maxb (s : State) (o : Nat) : (s.loseWork o).maxb = .unspecified := rfl
@[simp] theorem loseWork_scratch (s : State) (o : Nat) : (s.loseWork o).scratch = Scratch.unspecified := rfl
@[simp] theorem loseWork_src (s : State) (o : Nat) : (s.loseWork o).src = s.src := rfl
@[simp] theorem loseWork_dst (s : State) (o : Nat) : (s.loseWork o).dst = s.dst.forget o := rfl
@[simp] theorem loseWork_host (s : State) (o : Nat) : (s.loseWork o).host = s.host := rfl
@[simp] theorem loseWork_rdata (s : State) (o : Nat) : (s.loseWork o).rdata = s.rdata := rfl
@[simp] theorem loseWork_tick (s : State) (o : Nat) : (s.loseWork o).tick = s.tick := rfl

/-! ### `answer` -/

@[simp] theorem answer_params (s : State) (v : Word) : (s.answer v).params = s.params := rfl
@[simp] theorem answer_status (s : State) (v : Word) : (s.answer v).status = s.status := rfl
@[simp] theorem answer_fcause (s : State) (v : Word) : (s.answer v).fcause = s.fcause := rfl
@[simp] theorem answer_finfo (s : State) (v : Word) : (s.answer v).finfo = s.finfo := rfl
@[simp] theorem answer_inpos (s : State) (v : Word) : (s.answer v).inpos = s.inpos := rfl
@[simp] theorem answer_outpos (s : State) (v : Word) : (s.answer v).outpos = s.outpos := rfl
@[simp] theorem answer_inlen (s : State) (v : Word) : (s.answer v).inlen = s.inlen := rfl
@[simp] theorem answer_thissize (s : State) (v : Word) : (s.answer v).thissize = s.thissize := rfl
@[simp] theorem answer_bestb (s : State) (v : Word) : (s.answer v).bestb = s.bestb := rfl
@[simp] theorem answer_cexcept (s : State) (v : Word) : (s.answer v).cexcept = s.cexcept := rfl
@[simp] theorem answer_maxb (s : State) (v : Word) : (s.answer v).maxb = s.maxb := rfl
@[simp] theorem answer_scratch (s : State) (v : Word) : (s.answer v).scratch = s.scratch := rfl
@[simp] theorem answer_src (s : State) (v : Word) : (s.answer v).src = s.src := rfl
@[simp] theorem answer_dst (s : State) (v : Word) : (s.answer v).dst = s.dst := rfl
@[simp] theorem answer_host (s : State) (v : Word) : (s.answer v).host = s.host := rfl
@[simp] theorem answer_rdata (s : State) (v : Word) : (s.answer v).rdata = v := rfl
@[simp] theorem answer_tick (s : State) (v : Word) : (s.answer v).tick = s.tick + 1 := rfl

/-! ### `softReset` -/

@[simp] theorem softReset_params (s : State) : (softReset s).params = s.params := rfl
@[simp] theorem softReset_status (s : State) : (softReset s).status = 0 := rfl
@[simp] theorem softReset_fcause (s : State) : (softReset s).fcause = 0 := rfl
@[simp] theorem softReset_finfo (s : State) : (softReset s).finfo = 0 := rfl
@[simp] theorem softReset_inpos (s : State) : (softReset s).inpos = .known 0 := rfl
@[simp] theorem softReset_outpos (s : State) : (softReset s).outpos = .known 0 := rfl
@[simp] theorem softReset_inlen (s : State) : (softReset s).inlen = 0 := rfl
@[simp] theorem softReset_thissize (s : State) : (softReset s).thissize = 0 := rfl
@[simp] theorem softReset_bestb (s : State) : (softReset s).bestb = .known 0 := rfl
@[simp] theorem softReset_cexcept (s : State) : (softReset s).cexcept = .known 0 := rfl
@[simp] theorem softReset_maxb (s : State) : (softReset s).maxb = .known 0 := rfl
@[simp] theorem softReset_scratch (s : State) : (softReset s).scratch = Scratch.unspecified := rfl
@[simp] theorem softReset_src (s : State) : (softReset s).src = s.src := rfl
@[simp] theorem softReset_dst (s : State) : (softReset s).dst = s.dst := rfl
@[simp] theorem softReset_host (s : State) : (softReset s).host = s.host := rfl
@[simp] theorem softReset_rdata (s : State) : (softReset s).rdata = s.rdata := rfl
@[simp] theorem softReset_tick (s : State) : (softReset s).tick = s.tick := rfl

/-! ### `Work.onScratch` -/

@[simp] theorem onScratch_params (w : Work) (f : Scratch → Scratch) : (w.onScratch f).s.params = w.s.params := rfl
@[simp] theorem onScratch_status (w : Work) (f : Scratch → Scratch) : (w.onScratch f).s.status = w.s.status := rfl
@[simp] theorem onScratch_fcause (w : Work) (f : Scratch → Scratch) : (w.onScratch f).s.fcause = w.s.fcause := rfl
@[simp] theorem onScratch_finfo (w : Work) (f : Scratch → Scratch) : (w.onScratch f).s.finfo = w.s.finfo := rfl
@[simp] theorem onScratch_inpos (w : Work) (f : Scratch → Scratch) : (w.onScratch f).s.inpos = w.s.inpos := rfl
@[simp] theorem onScratch_outpos (w : Work) (f : Scratch → Scratch) : (w.onScratch f).s.outpos = w.s.outpos := rfl
@[simp] theorem onScratch_inlen (w : Work) (f : Scratch → Scratch) : (w.onScratch f).s.inlen = w.s.inlen := rfl
@[simp] theorem onScratch_thissize (w : Work) (f : Scratch → Scratch) : (w.onScratch f).s.thissize = w.s.thissize := rfl
@[simp] theorem onScratch_bestb (w : Work) (f : Scratch → Scratch) : (w.onScratch f).s.bestb = w.s.bestb := rfl
@[simp] theorem onScratch_cexcept (w : Work) (f : Scratch → Scratch) : (w.onScratch f).s.cexcept = w.s.cexcept := rfl
@[simp] theorem onScratch_maxb (w : Work) (f : Scratch → Scratch) : (w.onScratch f).s.maxb = w.s.maxb := rfl
@[simp] theorem onScratch_scratch (w : Work) (f : Scratch → Scratch) : (w.onScratch f).s.scratch = f w.s.scratch := rfl
@[simp] theorem onScratch_src (w : Work) (f : Scratch → Scratch) : (w.onScratch f).s.src = w.s.src := rfl
@[simp] theorem onScratch_dst (w : Work) (f : Scratch → Scratch) : (w.onScratch f).s.dst = w.s.dst := rfl
@[simp] theorem onScratch_host (w : Work) (f : Scratch → Scratch) : (w.onScratch f).s.host = w.s.host := rfl
@[simp] theorem onScratch_rdata (w : Work) (f : Scratch → Scratch) : (w.onScratch f).s.rdata = w.s.rdata := rfl
@[simp] theorem onScratch_tick (w : Work) (f : Scratch → Scratch) : (w.onScratch f).s.tick = w.s.tick := rfl
@[simp] theorem onScratch_ip (w : Work) (f : Scratch → Scratch) : (w.onScratch f).ip = w.ip := rfl
@[simp] theorem onScratch_op (w : Work) (f : Scratch → Scratch) : (w.onScratch f).op = w.op := rfl

/-! ### `Work.commit` -/

@[simp] theorem commit_params (w : Work) : w.commit.params = w.s.params := rfl
@[simp] theorem commit_status (w : Work) : w.commit.status = w.s.status := rfl
@[simp] theorem commit_fcause (w : Work) : w.commit.fcause = w.s.fcause := rfl
@[simp] theorem commit_finfo (w : Work) : w.commit.finfo = w.s.finfo := rfl
@[simp] theorem commit_inpos (w : Work) : w.commit.inpos = .known (BitVec.ofNat 32 w.ip) := rfl
@[simp] theorem commit_outpos (w : Work) : w.commit.outpos = .known (BitVec.ofNat 32 w.op) := rfl
@[simp] theorem commit_inlen (w : Work) : w.commit.inlen = w.s.inlen := rfl
@[simp] theorem commit_thissize (w : Work) : w.commit.thissize = w.s.thissize := rfl
@[simp] theorem commit_bestb (w : Work) : w.commit.bestb = .unspecified := rfl
@[simp] theorem commit_cexcept (w : Work) : w.commit.cexcept = .unspecified := rfl
@[simp] theorem commit_maxb (w : Work) : w.commit.maxb = .unspecified := rfl
@[simp] theorem commit_scratch (w : Work) : w.commit.scratch = Scratch.unspecified := rfl
@[simp] theorem commit_src (w : Work) : w.commit.src = w.s.src := rfl
@[simp] theorem commit_dst (w : Work) : w.commit.dst = w.s.dst := rfl
@[simp] theorem commit_host (w : Work) : w.commit.host = w.s.host := rfl
@[simp] theorem commit_rdata (w : Work) : w.commit.rdata = w.s.rdata := rfl
@[simp] theorem commit_tick (w : Work) : w.commit.tick = w.s.tick := rfl

/-! ### `Work.commitSelect` -/

@[simp] theorem commitSelect_params (w : Work) (b c m : Nat) : (w.commitSelect b c m).params = w.s.params := rfl
@[simp] theorem commitSelect_status (w : Work) (b c m : Nat) : (w.commitSelect b c m).status = w.s.status := rfl
@[simp] theorem commitSelect_fcause (w : Work) (b c m : Nat) : (w.commitSelect b c m).fcause = w.s.fcause := rfl
@[simp] theorem commitSelect_finfo (w : Work) (b c m : Nat) : (w.commitSelect b c m).finfo = w.s.finfo := rfl
@[simp] theorem commitSelect_inpos (w : Work) (b c m : Nat) : (w.commitSelect b c m).inpos = w.s.inpos := rfl
@[simp] theorem commitSelect_outpos (w : Work) (b c m : Nat) : (w.commitSelect b c m).outpos = w.s.outpos := rfl
@[simp] theorem commitSelect_inlen (w : Work) (b c m : Nat) : (w.commitSelect b c m).inlen = w.s.inlen := rfl
@[simp] theorem commitSelect_thissize (w : Work) (b c m : Nat) : (w.commitSelect b c m).thissize = w.s.thissize := rfl
@[simp] theorem commitSelect_bestb (w : Work) (b c m : Nat) : (w.commitSelect b c m).bestb = .known (BitVec.ofNat 32 b) := rfl
@[simp] theorem commitSelect_cexcept (w : Work) (b c m : Nat) : (w.commitSelect b c m).cexcept = .known (BitVec.ofNat 32 c) := rfl
@[simp] theorem commitSelect_maxb (w : Work) (b c m : Nat) : (w.commitSelect b c m).maxb = .known (BitVec.ofNat 32 m) := rfl
@[simp] theorem commitSelect_scratch (w : Work) (b c m : Nat) : (w.commitSelect b c m).scratch = Scratch.unspecified := rfl
@[simp] theorem commitSelect_src (w : Work) (b c m : Nat) : (w.commitSelect b c m).src = w.s.src := rfl
@[simp] theorem commitSelect_dst (w : Work) (b c m : Nat) : (w.commitSelect b c m).dst = w.s.dst := rfl
@[simp] theorem commitSelect_host (w : Work) (b c m : Nat) : (w.commitSelect b c m).host = w.s.host := rfl
@[simp] theorem commitSelect_rdata (w : Work) (b c m : Nat) : (w.commitSelect b c m).rdata = w.s.rdata := rfl
@[simp] theorem commitSelect_tick (w : Work) (b c m : Nat) : (w.commitSelect b c m).tick = w.s.tick := rfl

/-! ### `State.start` -/

@[simp] theorem start_params (s : State) : s.start.s.params = s.params := rfl
@[simp] theorem start_status (s : State) : s.start.s.status = s.status := rfl
@[simp] theorem start_fcause (s : State) : s.start.s.fcause = s.fcause := rfl
@[simp] theorem start_finfo (s : State) : s.start.s.finfo = s.finfo := rfl
@[simp] theorem start_inpos (s : State) : s.start.s.inpos = s.inpos := rfl
@[simp] theorem start_outpos (s : State) : s.start.s.outpos = s.outpos := rfl
@[simp] theorem start_inlen (s : State) : s.start.s.inlen = s.inlen := rfl
@[simp] theorem start_thissize (s : State) : s.start.s.thissize = s.thissize := rfl
@[simp] theorem start_bestb (s : State) : s.start.s.bestb = s.bestb := rfl
@[simp] theorem start_cexcept (s : State) : s.start.s.cexcept = s.cexcept := rfl
@[simp] theorem start_maxb (s : State) : s.start.s.maxb = s.maxb := rfl
@[simp] theorem start_scratch (s : State) : s.start.s.scratch = s.scratch := rfl
@[simp] theorem start_src (s : State) : s.start.s.src = s.src := rfl
@[simp] theorem start_dst (s : State) : s.start.s.dst = s.dst := rfl
@[simp] theorem start_host (s : State) : s.start.s.host = s.host := rfl
@[simp] theorem start_rdata (s : State) : s.start.s.rdata = s.rdata := rfl
@[simp] theorem start_tick (s : State) : s.start.s.tick = s.tick + 2 := rfl

/-- A command starts at the source cursor the state holds. -/
theorem start_ip_known (s : State) (ip : Word) (h : s.inpos = .known ip) : s.start.ip = ip.toNat := by
  simp [State.start, h, Content.read]

/-- A command starts at the destination cursor the state holds. -/
theorem start_op_known (s : State) (op : Word) (h : s.outpos = .known op) : s.start.op = op.toNat := by
  simp [State.start, h, Content.read]

/-! ### `State.powerUp` -/

@[simp] theorem powerUp_params (p : Params) : (State.powerUp p).params = p := rfl
@[simp] theorem powerUp_status (p : Params) : (State.powerUp p).status = 0 := rfl
@[simp] theorem powerUp_fcause (p : Params) : (State.powerUp p).fcause = 0 := rfl
@[simp] theorem powerUp_finfo (p : Params) : (State.powerUp p).finfo = 0 := rfl
@[simp] theorem powerUp_inpos (p : Params) : (State.powerUp p).inpos = .known 0 := rfl
@[simp] theorem powerUp_outpos (p : Params) : (State.powerUp p).outpos = .known 0 := rfl
@[simp] theorem powerUp_inlen (p : Params) : (State.powerUp p).inlen = 0 := rfl
@[simp] theorem powerUp_thissize (p : Params) : (State.powerUp p).thissize = 0 := rfl
@[simp] theorem powerUp_bestb (p : Params) : (State.powerUp p).bestb = .known 0 := rfl
@[simp] theorem powerUp_cexcept (p : Params) : (State.powerUp p).cexcept = .known 0 := rfl
@[simp] theorem powerUp_maxb (p : Params) : (State.powerUp p).maxb = .known 0 := rfl
@[simp] theorem powerUp_scratch (p : Params) : (State.powerUp p).scratch = Scratch.unspecified := rfl
@[simp] theorem powerUp_src (p : Params) : (State.powerUp p).src = [] := rfl
@[simp] theorem powerUp_dst (p : Params) : (State.powerUp p).dst = [] := rfl
@[simp] theorem powerUp_host (p : Params) : (State.powerUp p).host = [] := rfl
@[simp] theorem powerUp_rdata (p : Params) : (State.powerUp p).rdata = 0 := rfl
@[simp] theorem powerUp_tick (p : Params) : (State.powerUp p).tick = 0 := rfl

/-! ### `writeReg` -/

@[simp] theorem writeReg_inpos (v : Word) (s : State) : writeReg 4 v s = { s with inpos := .known v } := rfl
@[simp] theorem writeReg_outpos (v : Word) (s : State) : writeReg 5 v s = { s with outpos := .known v } := rfl
@[simp] theorem writeReg_inlen (v : Word) (s : State) : writeReg 6 v s = { s with inlen := v } := rfl
@[simp] theorem writeReg_thissize (v : Word) (s : State) : writeReg 7 v s = { s with thissize := v } := rfl

/-! ### the fault flag -/

/-- `STATUS.FAULT` after it is set (60_exceptions.md R250). -/
@[simp] theorem recordFault_faulted (s : State) (c : Cause) (info : Nat) :
    (s.recordFault c info).faulted = true := by
  simp [State.faulted, setFault]

/-- `SRESET` clears `STATUS.FAULT` (45_system.md R240). -/
@[simp] theorem softReset_faulted (s : State) : (softReset s).faulted = false := by
  simp [State.faulted]

/-- The fault flag depends on `STATUS` alone. -/
theorem faulted_of_status {s t : State} (h : t.status = s.status) : t.faulted = s.faulted := by
  simp [State.faulted, h]

end Sys2Proof.Machine
end

