-- ==== Sys2Proof/Laws/Ops.lean ====
section
/-! SUPPORT. What each shared operation can do, said once: if it answers `ok`, then these are the
conditions and the result; if it answers `error`, then this is the fault. Later proofs cite these
and unfold nothing. -/

namespace Sys2Proof.Machine

/-! ### Sequencing -/

section
variable {ε α β : Type}

@[simp] theorem ok_bind (a : α) (f : α → Except ε β) : (Except.ok a >>= f) = f a := rfl

@[simp] theorem error_bind (e : ε) (f : α → Except ε β) :
    ((Except.error e : Except ε α) >>= f) = .error e := rfl

/-- A sequence completes iff its first part does and then the rest does. -/
theorem bind_eq_ok {x : Except ε α} {f : α → Except ε β} {b : β} :
    (x >>= f) = .ok b ↔ ∃ a, x = .ok a ∧ f a = .ok b := by
  cases x <;> simp

/-- A sequence raises iff its first part does, or that completes and the rest raises. -/
theorem bind_eq_error {x : Except ε α} {f : α → Except ε β} {e : ε} :
    (x >>= f) = .error e ↔ x = .error e ∨ ∃ a, x = .ok a ∧ f a = .error e := by
  cases x <;> simp
end

/-! ### Raising -/

/-- A check passes iff its condition holds (`raise Fault`, 60_exceptions.md R250). -/
theorem check_eq_ok {w : Work} {ok : Bool} {c : Cause} {info : Nat} {u : Unit} :
    w.check ok c info = .ok u ↔ ok = true := by
  cases ok <;> simp [Work.check, Work.trap]

/-- A check that fails raises its own cause and information. -/
theorem check_eq_error {w : Work} {ok : Bool} {c : Cause} {info : Nat} {e : Trap} :
    w.check ok c info = .error e ↔ ok = false ∧ e = ⟨c, info, w.s.tick⟩ := by
  cases ok <;> simp [Work.check, Work.trap, eq_comm]

/-! ### Reading -/

@[simp] theorem readWords_length (m : Memory) (a n tick : Nat) : (readWords m a n tick).length = n := by
  simp [readWords]

theorem readWords_getElem? (m : Memory) (a n tick j : Nat) (h : j < n) :
    (readWords m a n tick)[j]? = some (drawn (m.get? (a + j)) (Config.freeWord (tick + j))) := by
  simp [readWords, h]

/-- Where the memory holds the words of a list, reading gives that list. -/
theorem readWords_of_holds (m : Memory) (a tick : Nat) (ws : List Word)
    (h : ∀ j, j < ws.length → m.get? (a + j) = ws[j]?) : readWords m a ws.length tick = ws := by
  refine List.ext_getElem? fun j => ?_
  by_cases hj : j < ws.length
  · rw [readWords_getElem? _ _ _ _ _ hj, h j hj, List.getElem?_eq_getElem hj]
    rfl
  · rw [List.getElem?_eq_none (by simpa using hj), List.getElem?_eq_none (by simpa using hj)]

/-- `MemRead(SRC, a, n)` completes iff it is within `SRC` or reads nothing (20_memory.md R55); it gives
the words and changes nothing but the count of free values. -/
theorem readSrc_eq_ok {w : Work} {a n : Nat} {r : List Word × Work} :
    w.readSrc a n = .ok r ↔
      (n = 0 ∨ a + n ≤ w.s.params.srcLen.toNat) ∧
        r = (readWords w.s.src a n w.s.tick, { w with s := w.s.draw n }) := by
  unfold Work.readSrc
  split <;> simp_all [Work.trap, eq_comm]

/-- `MemRead(SRC, a, n)` out of bounds raises `SRC_BOUNDS` with the last index (20_memory.md R55). -/
theorem readSrc_eq_error {w : Work} {a n : Nat} {e : Trap} :
    w.readSrc a n = .error e ↔
      ¬ (n = 0 ∨ a + n ≤ w.s.params.srcLen.toNat) ∧ e = ⟨.srcBounds, a + n - 1, w.s.tick⟩ := by
  unfold Work.readSrc
  split <;> simp_all [Work.trap, eq_comm]

theorem readSrc1_eq_ok {w : Work} {a : Nat} {r : Word × Work} :
    w.readSrc1 a = .ok r ↔
      a + 1 ≤ w.s.params.srcLen.toNat ∧
        r = (drawn (w.s.src.get? a) (Config.freeWord w.s.tick), { w with s := w.s.draw 1 }) := by
  unfold Work.readSrc1
  split <;> simp_all [Work.trap, eq_comm]

theorem readSrc1_eq_error {w : Work} {a : Nat} {e : Trap} :
    w.readSrc1 a = .error e ↔
      ¬ a + 1 ≤ w.s.params.srcLen.toNat ∧ e = ⟨.srcBounds, a, w.s.tick⟩ := by
  unfold Work.readSrc1
  split <;> simp_all [Work.trap, eq_comm]

theorem readDst1_eq_ok {w : Work} {a : Nat} {r : Word × Work} :
    w.readDst1 a = .ok r ↔
      a + 1 ≤ w.s.params.dstLen.toNat ∧
        r = (drawn (w.s.dst.get? a) (Config.freeWord w.s.tick), { w with s := w.s.draw 1 }) := by
  unfold Work.readDst1
  split <;> simp_all [Work.trap, eq_comm]

theorem readDst1_eq_error {w : Work} {a : Nat} {e : Trap} :
    w.readDst1 a = .error e ↔
      ¬ a + 1 ≤ w.s.params.dstLen.toNat ∧ e = ⟨.dstBounds, a, w.s.tick⟩ := by
  unfold Work.readDst1
  split <;> simp_all [Work.trap, eq_comm]

/-- Taking `n` words: `readSrc` at the running source position, which then moves past them. -/
theorem takeSrc_eq_ok {w : Work} {n : Nat} {r : List Word × Work} :
    w.takeSrc n = .ok r ↔
      (n = 0 ∨ w.ip + n ≤ w.s.params.srcLen.toNat) ∧
        r = (readWords w.s.src w.ip n w.s.tick, ⟨w.s.draw n, w.ip + n, w.op⟩) := by
  simp only [Work.takeSrc, bind_eq_ok, readSrc_eq_ok]
  constructor
  · rintro ⟨_, ⟨h, rfl⟩, h2⟩
    exact ⟨h, (Except.ok.inj h2).symm⟩
  · rintro ⟨h, rfl⟩
    exact ⟨_, ⟨h, rfl⟩, rfl⟩

theorem takeSrc_eq_error {w : Work} {n : Nat} {e : Trap} :
    w.takeSrc n = .error e ↔
      ¬ (n = 0 ∨ w.ip + n ≤ w.s.params.srcLen.toNat) ∧ e = ⟨.srcBounds, w.ip + n - 1, w.s.tick⟩ := by
  simp only [Work.takeSrc, bind_eq_error, readSrc_eq_error]
  constructor
  · rintro (h | ⟨_, _, h2⟩)
    · exact h
    · exact absurd h2 (by simp)
  · exact Or.inl

theorem takeSrc1_eq_ok {w : Work} {r : Word × Work} :
    w.takeSrc1 = .ok r ↔
      w.ip + 1 ≤ w.s.params.srcLen.toNat ∧
        r = (drawn (w.s.src.get? w.ip) (Config.freeWord w.s.tick), ⟨w.s.draw 1, w.ip + 1, w.op⟩) := by
  simp only [Work.takeSrc1, bind_eq_ok, readSrc1_eq_ok]
  constructor
  · rintro ⟨_, ⟨h, rfl⟩, h2⟩
    exact ⟨h, (Except.ok.inj h2).symm⟩
  · rintro ⟨h, rfl⟩
    exact ⟨_, ⟨h, rfl⟩, rfl⟩

theorem takeSrc1_eq_error {w : Work} {e : Trap} :
    w.takeSrc1 = .error e ↔
      ¬ w.ip + 1 ≤ w.s.params.srcLen.toNat ∧ e = ⟨.srcBounds, w.ip, w.s.tick⟩ := by
  simp only [Work.takeSrc1, bind_eq_error, readSrc1_eq_error]
  constructor
  · rintro (h | ⟨_, _, h2⟩)
    · exact h
    · exact absurd h2 (by simp)
  · exact Or.inl

/-! ### Writing -/

/-- `MemWrite(DST, a, n, ws)` completes iff it is within `DST` or writes nothing (20_memory.md R56); it
changes those words of `DST` and nothing else. -/
theorem writeDst_eq_ok {w w' : Work} {a : Nat} {ws : List Word} :
    w.writeDst a ws = .ok w' ↔
      (ws.length = 0 ∨ a + ws.length ≤ w.s.params.dstLen.toNat) ∧
        w' = { w with s := { w.s with dst := w.s.dst.write a ws } } := by
  unfold Work.writeDst
  split <;> simp_all [Work.trap, eq_comm]

/-- `MemWrite(DST, a, n, ws)` out of bounds raises `DST_BOUNDS` with the last index (20_memory.md
R56). -/
theorem writeDst_eq_error {w : Work} {a : Nat} {ws : List Word} {e : Trap} :
    w.writeDst a ws = .error e ↔
      ¬ (ws.length = 0 ∨ a + ws.length ≤ w.s.params.dstLen.toNat) ∧
        e = ⟨.dstBounds, a + ws.length - 1, w.s.tick⟩ := by
  unfold Work.writeDst
  split <;> simp_all [Work.trap, eq_comm]

/-- Putting words: `writeDst` at the running output position, which then moves past them. -/
theorem putDst_eq_ok {w w' : Work} {ws : List Word} :
    w.putDst ws = .ok w' ↔
      (ws.length = 0 ∨ w.op + ws.length ≤ w.s.params.dstLen.toNat) ∧
        w' = ⟨{ w.s with dst := w.s.dst.write w.op ws }, w.ip, w.op + ws.length⟩ := by
  simp only [Work.putDst, bind_eq_ok, writeDst_eq_ok]
  constructor
  · rintro ⟨_, ⟨h, rfl⟩, h2⟩
    exact ⟨h, (Except.ok.inj h2).symm⟩
  · rintro ⟨h, rfl⟩
    exact ⟨_, ⟨h, rfl⟩, rfl⟩

theorem putDst_eq_error {w : Work} {ws : List Word} {e : Trap} :
    w.putDst ws = .error e ↔
      ¬ (ws.length = 0 ∨ w.op + ws.length ≤ w.s.params.dstLen.toNat) ∧
        e = ⟨.dstBounds, w.op + ws.length - 1, w.s.tick⟩ := by
  simp only [Work.putDst, bind_eq_error, writeDst_eq_error]
  constructor
  · rintro (h | ⟨_, _, h2⟩)
    · exact h
    · exact absurd h2 (by simp)
  · exact Or.inl

/-- `MemWrite(DST, a, MemRead(DST, a) | x)` (43_fastpfor_decode.md R177). -/
theorem orDst_eq_ok {a : Nat} {x : Word} {w w' : Work} :
    orDst a x w = .ok w' ↔
      a + 1 ≤ w.s.params.dstLen.toNat ∧
        w' = { w with s := { w.s.draw 1 with
          dst := w.s.dst.write a [drawn (w.s.dst.get? a) (Config.freeWord w.s.tick) ||| x] } } := by
  simp only [orDst, bind_eq_ok, readDst1_eq_ok]
  constructor
  · rintro ⟨_, ⟨h, rfl⟩, h2⟩
    exact ⟨h, (writeDst_eq_ok.1 h2).2⟩
  · rintro ⟨h, rfl⟩
    exact ⟨_, ⟨h, rfl⟩, writeDst_eq_ok.2 ⟨Or.inr h, rfl⟩⟩

/-! ### The byte buffer -/

/-- `bb_get()` gives the byte at `BBPOS` and advances, iff `BBPOS < BBLEN` (43_fastpfor_decode.md
R179). -/
theorem bbGet_eq_ok {w : Work} {r : Byte × Work} :
    bbGet w = .ok r ↔
      w.s.scratch.bbPos < w.s.scratch.bbLen ∧
        r = (w.s.scratch.bbAt w.s.scratch.bbPos,
          w.onScratch fun sc => { sc with bbpos := some (sc.bbPos + 1) }) := by
  unfold bbGet
  split
  · simp [Work.trap]; omega
  · simp [eq_comm]; omega

theorem bbGet_eq_error {w : Work} {e : Trap} :
    bbGet w = .error e ↔
      w.s.scratch.bbLen ≤ w.s.scratch.bbPos ∧
        e = ⟨.bytebufOverrun, w.s.scratch.bbPos, w.s.tick⟩ := by
  unfold bbGet
  split
  · simp_all [Work.trap, eq_comm]
  · simp; omega

/-! ### Loops -/

/-- A property of the working state that one round of a loop body keeps, `iter` keeps. -/
theorem iter_induct {body : Work → Except Trap Work} {P : Work → Prop}
    (h : ∀ w w', P w → body w = .ok w' → P w') :
    ∀ n w w', P w → iter body n w = .ok w' → P w' := by
  intro n
  induction n with
  | zero => intro w w' hp hw; cases hw; exact hp
  | succ n ih =>
    intro w w' hp hw
    obtain ⟨w1, h1, h2⟩ := bind_eq_ok.1 hw
    exact ih w1 w' (h w w1 hp h1) h2

/-- A property of the working state that every round of a loop body keeps, `forEach` keeps. -/
theorem forEach_induct {body : Nat → Work → Except Trap Work} {P : Work → Prop} {ks : List Nat}
    (h : ∀ k ∈ ks, ∀ w w', P w → body k w = .ok w' → P w') :
    ∀ w w', P w → forEach body ks w = .ok w' → P w' := by
  induction ks with
  | nil => intro w w' hp hw; cases hw; exact hp
  | cons k ks ih =>
    intro w w' hp hw
    obtain ⟨w1, h1, h2⟩ := bind_eq_ok.1 hw
    exact ih (fun k' hk => h k' (by simp [hk])) w1 w' (h k (by simp) w w1 hp h1) h2

/-- A property of the working state that every page keeps, the page loop keeps. -/
theorem forPages_induct {page : Nat → Work → Except Trap Work} {P : Work → Prop}
    (h : ∀ t w w', P w → page t w = .ok w' → P w') (size : Nat) :
    ∀ n w w', P w → forPages page size n w = .ok w' → P w' := by
  have key : ∀ rounds n w w', P w → pageRounds page size rounds n w = .ok w' → P w' := by
    intro rounds
    induction rounds with
    | zero => intro n w w' hp hw; cases hw; exact hp
    | succ k ih =>
      intro n w w' hp hw
      obtain ⟨w1, h1, h2⟩ := bind_eq_ok.1 hw
      exact ih _ w1 w' (h _ w w1 hp h1) h2
  exact fun n => key _ n

@[simp] theorem iter_zero (body : Work → Except Trap Work) (w : Work) : iter body 0 w = .ok w := rfl

@[simp] theorem iter_succ (body : Work → Except Trap Work) (n : Nat) (w : Work) :
    iter body (n + 1) w = (body w >>= iter body n) := rfl

@[simp] theorem forEach_nil (body : Nat → Work → Except Trap Work) (w : Work) :
    forEach body [] w = .ok w := rfl

@[simp] theorem forEach_cons (body : Nat → Work → Except Trap Work) (k : Nat) (ks : List Nat) (w : Work) :
    forEach body (k :: ks) w = (body k w >>= forEach body ks) := rfl

/-! ### Running a command and taking a fault -/

/-- Everything the frame of a command can do (60_exceptions.md R250 to R252): it always answers a
next state, which is the same state while faulted, the completed state, or the fault taken. -/
theorem runCommand_cases {s t : State} {body : State → Except Trap State}
    (h : runCommand s body = .next t) :
    (s.faulted = true ∧ t = s) ∨
    (s.faulted = false ∧ body s = .ok t) ∨
    (s.faulted = false ∧ ∃ e, body s = .error e ∧ t = takeFault s e) := by
  unfold runCommand at h
  cases hf : s.faulted
  · simp only [hf, Bool.false_eq_true, if_false] at h
    cases hb : body s with
    | ok u => rw [hb] at h; cases h; exact .inr (.inl ⟨rfl, rfl⟩)
    | error e => rw [hb] at h; cases h; exact .inr (.inr ⟨rfl, e, rfl, rfl⟩)
  · simp only [hf, if_true] at h
    cases h
    exact .inl ⟨rfl, rfl⟩

theorem runCommand_faulted {s : State} {body : State → Except Trap State} (h : s.faulted = true) :
    runCommand s body = .next s := by
  simp [runCommand, h]

theorem runCommand_ok {s t : State} {body : State → Except Trap State} (h : s.faulted = false)
    (hb : body s = .ok t) : runCommand s body = .next t := by
  simp [runCommand, h, hb]

theorem runCommand_error {s : State} {e : Trap} {body : State → Except Trap State}
    (h : s.faulted = false) (hb : body s = .error e) :
    runCommand s body = .next (takeFault s e) := by
  simp [runCommand, h, hb]

/-- A fault raised before anything is read or written changes the three fault registers alone
(60_exceptions.md R251(c)). -/
theorem takeFault_early {s : State} {e : Trap} (h : causeIsEarly e.cause = true) :
    takeFault s e = s.recordFault e.cause e.info := by
  simp [takeFault, h]

/-- Every other fault (60_exceptions.md R251(d)). -/
theorem takeFault_late {s : State} {e : Trap} (h : causeIsEarly e.cause = false) :
    takeFault s e = { (s.loseWork s.start.op).recordFault e.cause e.info with tick := e.tick } := by
  simp [takeFault, h]

/-- A fault taken leaves `STATUS.FAULT` set, whatever its cause. -/
@[simp] theorem takeFault_faulted (s : State) (e : Trap) : (takeFault s e).faulted = true := by
  unfold takeFault
  split <;> simp [State.faulted, State.recordFault, setFault]

/-- The cause codes are 1 to 13 (60_exceptions.md R253). -/
theorem causeCode_range (c : Cause) : 1 ≤ causeCode c ∧ causeCode c ≤ 13 := by
  cases c <;> decide

/-- Different causes have different codes (60_exceptions.md R253). -/
theorem causeCode_injective {c d : Cause} (h : causeCode c = causeCode d) : c = d := by
  cases c <;> cases d <;> simp_all [causeCode]

end Sys2Proof.Machine
end

