-- ==== Sys2Proof/Laws/Frame.lean ====
section
/-! SUPPORT. What the procedures of the page commands can change, said once: `OPD` and FastPFOR,
encoders and decoders, move only the running positions, `DST` at and above where the command
started, scratch, and the count of free values. -/

namespace Sys2Proof.Machine

/-- A running command that started from `s0` with output position `o` has written the words
`o .. hi - 1` of `DST`, no other, and nothing else of the state but scratch and the count of free
values. -/
structure Ran (s0 : State) (o hi : Nat) (w : Work) : Prop where
  state : w.s = { s0 with dst := w.s.dst, scratch := w.s.scratch, tick := w.s.tick }
  written : ∀ a, o ≤ a → a < hi → (w.s.dst.get? a).isSome = true
  kept : ∀ a, a < o ∨ hi ≤ a → w.s.dst.get? a = s0.dst.get? a
  bound : hi = o ∨ hi ≤ s0.params.dstLen.toNat
  order : o ≤ hi
  form : s0.dst.wf s0.params.dstLen.toNat = true → w.s.dst.wf s0.params.dstLen.toNat = true

section
variable {s0 : State} {o hi : Nat} {w w' : Work}

/-- Where nothing has been written yet. -/
theorem Ran.start (s : State) : Ran s s.start.op s.start.op s.start where
  state := rfl
  written := by intro a h h'; omega
  kept := fun _ _ => rfl
  bound := .inl rfl
  order := le_rfl
  form := id

theorem Ran.params (h : Ran s0 o hi w) : w.s.params = s0.params := by rw [h.state]

/-- A change of scratch, positions or the count of free values is no write. -/
theorem Ran.quiet (h : Ran s0 o hi w) (hw : w'.s = { w.s with scratch := w'.s.scratch, tick := w'.s.tick }) :
    Ran s0 o hi w' where
  state := by rw [hw, h.state]
  written := by rw [hw]; exact h.written
  kept := by rw [hw]; exact h.kept
  bound := h.bound
  order := h.order
  form := by rw [hw]; exact h.form

/-- A write that starts within or at the end of what is written extends it. -/
theorem Ran.write (h : Ran s0 o hi w) {a : Nat} {ws : List Word} (hw : w.writeDst a ws = .ok w')
    (ha : o ≤ a) (ha' : a ≤ hi) : Ran s0 o (max hi (a + ws.length)) w' := by
  obtain ⟨hb, rfl⟩ := writeDst_eq_ok.1 hw
  rw [h.params] at hb
  refine ⟨by rw [h.state], ?_, ?_, ?_, le_trans h.order (le_max_left _ _), ?_⟩
  · intro i h1 h2
    show ((Arr.write w.s.dst a ws).get? i).isSome = true
    rw [get?_write]
    split
    · next hc => simp [List.getElem?_eq_getElem (show i - a < ws.length by omega)]
    · exact h.written i h1 (by omega)
  · intro i hi'
    show (Arr.write w.s.dst a ws).get? i = _
    rw [get?_write, if_neg (by omega)]
    exact h.kept i (by omega)
  · have := h.bound
    omega
  · intro hwf
    exact wf_write (h.form hwf) hb

theorem Ran.putDst (h : Ran s0 o w.op w) {ws : List Word} (hw : w.putDst ws = .ok w') :
    Ran s0 o w'.op w' := by
  obtain ⟨hb, rfl⟩ := putDst_eq_ok.1 hw
  have h1 : w.writeDst w.op ws = .ok { w with s := { w.s with dst := w.s.dst.write w.op ws } } :=
    writeDst_eq_ok.2 ⟨hb, rfl⟩
  have h2 := h.write h1 h.order le_rfl
  rw [max_eq_right (by omega)] at h2
  exact h2.quiet rfl

theorem Ran.takeSrc (h : Ran s0 o hi w) {n : Nat} {ws : List Word} (hw : w.takeSrc n = .ok (ws, w')) :
    Ran s0 o hi w' ∧ w'.op = w.op := by
  obtain ⟨_, h2⟩ := takeSrc_eq_ok.1 hw
  cases h2
  exact ⟨h.quiet rfl, rfl⟩

theorem Ran.takeSrc1 (h : Ran s0 o hi w) {x : Word} (hw : w.takeSrc1 = .ok (x, w')) :
    Ran s0 o hi w' ∧ w'.op = w.op := by
  obtain ⟨_, h2⟩ := takeSrc1_eq_ok.1 hw
  cases h2
  exact ⟨h.quiet rfl, rfl⟩

theorem Ran.bbGet (h : Ran s0 o hi w) {y : Byte} (hw : bbGet w = .ok (y, w')) :
    Ran s0 o hi w' ∧ w'.op = w.op := by
  obtain ⟨_, h2⟩ := bbGet_eq_ok.1 hw
  cases h2
  exact ⟨h.quiet rfl, rfl⟩

/-- An OR into a word already written writes nothing new. -/
theorem Ran.orDst (h : Ran s0 o hi w) {a : Nat} {x : Word} (hw : orDst a x w = .ok w')
    (ha : o ≤ a) (ha' : a < hi) : Ran s0 o hi w' ∧ w'.op = w.op := by
  obtain ⟨⟨y, w1⟩, h1, h2⟩ := bind_eq_ok.1 hw
  obtain ⟨_, h3⟩ := readDst1_eq_ok.1 h1
  cases h3
  have h4 := (h.quiet (w' := { w with s := w.s.draw 1 }) rfl).write h2 ha (by omega)
  rw [max_eq_left (by simp; omega)] at h4
  obtain ⟨_, rfl⟩ := writeDst_eq_ok.1 h2
  exact ⟨h4, rfl⟩

theorem Ran.packBlock (h : Ran s0 o w.op w) {blk : List Word} {b : Nat}
    (hw : packBlock blk b w = .ok w') : Ran s0 o w'.op w' :=
  forEach_induct (P := fun w => Ran s0 o w.op w) (fun _ _ _ _ hp hb => hp.putDst hb) w w' h hw

/-- Packing a block only moves the output position forward. -/
theorem packBlock_op_le {blk : List Word} {b : Nat} (hw : packBlock blk b w = .ok w') :
    w.op ≤ w'.op := by
  refine forEach_induct (P := fun x => w.op ≤ x.op) (fun _ _ x x' hx hb => ?_) w w' le_rfl hw
  obtain ⟨_, rfl⟩ := putDst_eq_ok.1 hb
  exact le_trans hx (Nat.le_add_right _ _)

/-- Encoding a block only moves the output position forward. -/
theorem fpfEncodeBlock_op_le (hw : fpfEncodeBlock w = .ok w') : w.op ≤ w'.op := by
  obtain ⟨⟨blk, w1⟩, h1, h2⟩ := bind_eq_ok.1 hw
  obtain ⟨_, h3⟩ := takeSrc_eq_ok.1 h1
  have h4 : w1.op = w.op := by cases h3; rfl
  have h5 := packBlock_op_le (w := w1.onScratch _) h2
  rw [← h4]
  exact h5

theorem Ran.fpfEncodeBlock (h : Ran s0 o w.op w) (hw : fpfEncodeBlock w = .ok w') :
    Ran s0 o w'.op w' := by
  obtain ⟨⟨blk, w1⟩, h1, h2⟩ := bind_eq_ok.1 hw
  obtain ⟨h3, h4⟩ := h.takeSrc h1
  rw [← h4] at h3
  exact Ran.packBlock (w := w1.onScratch _) (h3.quiet rfl) h2

theorem Ran.flushBucket (h : Ran s0 o w.op w) {k : Nat} (hw : flushBucket k w = .ok w') :
    Ran s0 o w'.op w' := by
  unfold Machine.flushBucket at hw
  split at hw
  · obtain ⟨w1, h1, h2⟩ := bind_eq_ok.1 hw
    exact forEach_induct (P := fun w => Ran s0 o w.op w) (fun _ _ _ _ hp hb => hp.putDst hb) w1 w'
      (h.putDst h1) h2
  · cases hw; exact h

theorem Ran.fpfFlushPage (h : Ran s0 o w.op w) {hp : Nat} (hw : fpfFlushPage hp w = .ok w')
    (hlo : o ≤ hp) (hhi : hp < w.op) : Ran s0 o w'.op w' := by
  obtain ⟨w1, h1, hw⟩ := bind_eq_ok.1 hw
  have g1 := h.write h1 hlo (by omega)
  rw [max_eq_left (by simp; omega)] at g1
  have e1 : w1.op = w.op := by obtain ⟨_, rfl⟩ := writeDst_eq_ok.1 h1; rfl
  obtain ⟨w3, h3, hw⟩ := bind_eq_ok.1 hw
  have g3 : Ran s0 o w3.op w3 :=
    Ran.putDst (w := w1.onScratch (padBytes 3)) (by rw [← e1] at g1; exact g1.quiet rfl) h3
  obtain ⟨w4, h4, hw⟩ := bind_eq_ok.1 hw
  have g4 : Ran s0 o w4.op w4 :=
    forEach_induct (P := fun w => Ran s0 o w.op w) (fun _ _ _ _ hp hb => hp.putDst hb) w3 w4 g3 h4
  obtain ⟨w5, h5, hw⟩ := bind_eq_ok.1 hw
  exact forEach_induct (P := fun w => Ran s0 o w.op w) (fun _ _ _ _ hp hb => hp.flushBucket hb)
    w5 w' (g4.putDst h5) hw

theorem Ran.fpfEncodePage (h : Ran s0 o w.op w) {n : Nat} (hw : fpfEncodePage n w = .ok w') :
    Ran s0 o w'.op w' := by
  obtain ⟨w1, h1, hw⟩ := bind_eq_ok.1 hw
  obtain ⟨w3, h3, hw⟩ := bind_eq_ok.1 hw
  have e1 : w1.op = w.op + 1 := by obtain ⟨_, rfl⟩ := putDst_eq_ok.1 h1; rfl
  have g1 := h.putDst h1
  have key := iter_induct (P := fun v => Ran s0 o v.op v ∧ w.op + 1 ≤ v.op)
    (fun v v' hv hb => ⟨hv.1.fpfEncodeBlock hb, ?_⟩) _
    (w1.onScratch fun sc => { sc.clearDp with bblen := some 0 }) w3
    ⟨g1.quiet rfl, le_of_eq e1.symm⟩ h3
  · exact key.1.fpfFlushPage hw h.order key.2
  · exact le_trans hv.2 (fpfEncodeBlock_op_le hb)

/-- Unpacking a block writes the 128 words from the block's base on. -/
theorem Ran.unpackBlock (h : Ran s0 o w.op w) {b : Nat} (hw : unpackBlock b w = .ok w') :
    Ran s0 o (w.op + 128) w' ∧ w'.op = w.op := by
  have step : ∀ g (v v' : Work), Ran s0 o (w.op + 32 * g) v ∧ v.op = w.op →
      (do let (ws, v1) ← v.takeSrc b; v1.writeDst (v1.op + 32 * g) (unpack32 ws b)) = .ok v' →
      Ran s0 o (w.op + 32 * (g + 1)) v' ∧ v'.op = w.op := by
    intro g v v' hv hb
    obtain ⟨⟨ws, v1⟩, h1, h2⟩ := bind_eq_ok.1 hb
    obtain ⟨h3, h4⟩ := hv.1.takeSrc h1
    have ho := h.order
    have h5 := h3.write h2 (by simp [h4, hv.2]; omega) (by simp [h4, hv.2])
    have h6 : v'.op = v1.op := by obtain ⟨_, rfl⟩ := writeDst_eq_ok.1 h2; rfl
    have h7 : (unpack32 ws b).length = 32 := by simp [unpack32]
    rw [h7, h4, hv.2, max_eq_right (by omega)] at h5
    exact ⟨h5, h6.trans (h4.trans hv.2)⟩
  simp only [Machine.unpackBlock, forEach_cons] at hw
  obtain ⟨w1, h1, hw⟩ := bind_eq_ok.1 hw
  obtain ⟨w2, h2, hw⟩ := bind_eq_ok.1 hw
  obtain ⟨w3, h3, hw⟩ := bind_eq_ok.1 hw
  obtain ⟨w4, h4, hw⟩ := bind_eq_ok.1 hw
  cases hw
  exact step 3 w3 _ (step 2 w2 w3 (step 1 w1 w2 (step 0 w w1 ⟨h, rfl⟩ h1) h2) h3) h4

/-- The multiplex step stays within the block at the running output position. -/
theorem Ran.multiplex {idx b : Nat} (h : Ran s0 o (w.op + 128) w ∧ o ≤ w.op)
    (hw : multiplex idx b w = .ok w') : Ran s0 o (w.op + 128) w' ∧ w'.op = w.op := by
  obtain ⟨⟨pos, w1⟩, h1, hw⟩ := bind_eq_ok.1 hw
  obtain ⟨h2, e2⟩ := h.1.bbGet h1
  obtain ⟨_, h3, hw⟩ := bind_eq_ok.1 hw
  obtain ⟨_, _, hw⟩ := bind_eq_ok.1 hw
  have hpos : pos.toNat < 128 := by simpa using check_eq_ok.1 h3
  have := Ran.orDst (w := w1.onScratch fun sc => { sc with dp := sc.dp.write idx [w1.s.scratch.dpAt idx + 1] })
    (h2.quiet rfl) hw (by simp [e2]; omega) (by simp [e2]; omega)
  exact ⟨this.1, by simpa [e2] using this.2⟩

theorem Ran.mergeExceptions {b c : Nat} (h : Ran s0 o (w.op + 128) w ∧ o ≤ w.op)
    (hw : mergeExceptions b c w = .ok w') : Ran s0 o (w.op + 128) w' ∧ w'.op = w.op := by
  unfold Machine.mergeExceptions at hw
  split at hw
  · obtain ⟨⟨m, w1⟩, h1, hw⟩ := bind_eq_ok.1 hw
    obtain ⟨_, _, hw⟩ := bind_eq_ok.1 hw
    refine iter_induct (P := fun v => Ran s0 o (w.op + 128) v ∧ v.op = w.op) ?_ _ w1 w'
      (h.1.bbGet h1) hw
    rintro v v' ⟨hv, ev⟩ hb
    have := Ran.multiplex (by rw [ev]; exact ⟨hv, h.2⟩) hb
    rw [ev] at this
    exact this
  · cases hw
    exact ⟨h.1, rfl⟩

theorem Ran.fpfDecodeBlock (h : Ran s0 o w.op w) (hw : fpfDecodeBlock w = .ok w') :
    Ran s0 o w'.op w' := by
  obtain ⟨⟨b, w1⟩, h1, hw⟩ := bind_eq_ok.1 hw
  obtain ⟨g1, e1⟩ := h.bbGet h1
  obtain ⟨⟨c, w2⟩, h2, hw⟩ := bind_eq_ok.1 hw
  obtain ⟨g2, e2⟩ := g1.bbGet h2
  obtain ⟨_, _, hw⟩ := bind_eq_ok.1 hw
  obtain ⟨_, _, hw⟩ := bind_eq_ok.1 hw
  obtain ⟨w3, h3, hw⟩ := bind_eq_ok.1 hw
  obtain ⟨w4, h4, hw⟩ := bind_eq_ok.1 hw
  cases hw
  rw [← e1, ← e2] at g2
  obtain ⟨g3, e3⟩ := g2.unpackBlock h3
  have g4 := Ran.mergeExceptions (by rw [e3]; exact ⟨g3, g2.order⟩) h4
  exact (g4.2 ▸ g4.1).quiet rfl

theorem Ran.loadBytes (h : Ran s0 o hi w) (hw : loadBytes w = .ok w') :
    Ran s0 o hi w' ∧ w'.op = w.op := by
  obtain ⟨⟨size, w1⟩, h1, hw⟩ := bind_eq_ok.1 hw
  obtain ⟨g1, e1⟩ := h.takeSrc1 h1
  obtain ⟨_, _, hw⟩ := bind_eq_ok.1 hw
  obtain ⟨w2, h2, hw⟩ := bind_eq_ok.1 hw
  cases hw
  have := forEach_induct (P := fun v => Ran s0 o hi v ∧ v.op = w.op) (fun k _ v v' hv hb => ?_) w1 w2
    ⟨g1, e1⟩ h2
  · exact ⟨this.1.quiet rfl, this.2⟩
  · obtain ⟨⟨x, v1⟩, h3, hb⟩ := bind_eq_ok.1 hb
    obtain ⟨g3, e3⟩ := hv.1.takeSrc1 h3
    cases hb
    exact ⟨g3.quiet rfl, e3.trans hv.2⟩

theorem Ran.loadBuckets (h : Ran s0 o hi w) (hw : loadBuckets w = .ok w') :
    Ran s0 o hi w' ∧ w'.op = w.op := by
  obtain ⟨⟨bitmap, w1⟩, h1, hw⟩ := bind_eq_ok.1 hw
  obtain ⟨g1, e1⟩ := h.takeSrc1 h1
  refine forEach_induct (P := fun v => Ran s0 o hi v ∧ v.op = w.op) (fun k _ v v' hv hb => ?_)
    (w1.onScratch fun sc => { sc with bsize := sc.bsize.write 1 (List.replicate 32 0) }) w'
    ⟨g1.quiet rfl, e1⟩ hw
  unfold loadBucket at hb
  split at hb
  · obtain ⟨⟨x, v1⟩, h3, hb⟩ := bind_eq_ok.1 hb
    obtain ⟨g3, e3⟩ := hv.1.takeSrc1 h3
    obtain ⟨_, _, hb⟩ := bind_eq_ok.1 hb
    refine forEach_induct (P := fun v => Ran s0 o hi v ∧ v.op = w.op) (fun k _ x x' hx hb => ?_)
      (v1.onScratch _) v' ⟨g3.quiet rfl, e3.trans hv.2⟩ hb
    obtain ⟨⟨ws, x1⟩, h4, hb⟩ := bind_eq_ok.1 hb
    obtain ⟨g4, e4⟩ := hx.1.takeSrc h4
    cases hb
    exact ⟨g4.quiet rfl, e4.trans hx.2⟩
  · cases hb; exact hv

theorem Ran.fpfDecodePage (h : Ran s0 o w.op w) {n : Nat} (hw : fpfDecodePage n w = .ok w') :
    Ran s0 o w'.op w' := by
  obtain ⟨⟨x, w1⟩, h1, hw⟩ := bind_eq_ok.1 hw
  obtain ⟨_, h1'⟩ := readSrc1_eq_ok.1 h1
  cases h1'
  obtain ⟨w2, h2, hw⟩ := bind_eq_ok.1 hw
  obtain ⟨g2, e2⟩ := Ran.loadBytes (w := ⟨w.s.draw 1, _, w.op⟩) (hi := w.op) (h.quiet rfl) h2
  obtain ⟨w3, h3, hw⟩ := bind_eq_ok.1 hw
  obtain ⟨g3, e3⟩ := g2.loadBuckets h3
  obtain ⟨w4, h4, hw⟩ := bind_eq_ok.1 hw
  cases hw
  have e : w3.op = w.op := e3.trans e2
  rw [← e] at g3
  have g4 := iter_induct (P := fun v => Ran s0 o v.op v) (fun _ _ hv hb => hv.fpfDecodeBlock hb) _
    (Work.onScratch ⟨w3.s, w.ip + 1, w3.op⟩ Scratch.clearDp) _ (g3.quiet rfl) h4
  exact g4.quiet rfl

theorem Ran.opdEncodeBlock {S : S16} (h : Ran s0 o w.op w) (hw : opdEncodeBlock S w = .ok w') :
    Ran s0 o w'.op w' := by
  obtain ⟨⟨blk, w1⟩, h1, hw⟩ := bind_eq_ok.1 hw
  obtain ⟨g1, e1⟩ := h.takeSrc h1
  obtain ⟨_, _, hw⟩ := bind_eq_ok.1 hw
  obtain ⟨w3, h3, hw⟩ := bind_eq_ok.1 hw
  obtain ⟨w4, h4, hw⟩ := bind_eq_ok.1 hw
  exact Ran.packBlock (Ran.putDst (Ran.putDst (by rw [← e1] at g1; exact g1.quiet rfl) h3) h4) hw

theorem Ran.loadPayload {S : S16} {n es : Nat} (h : Ran s0 o hi w)
    (hw : loadPayload S n es w = .ok w') : Ran s0 o hi w' ∧ w'.op = w.op := by
  unfold Machine.loadPayload at hw
  split at hw
  · obtain ⟨⟨pl, w1⟩, h1, hw⟩ := bind_eq_ok.1 hw
    obtain ⟨g1, e1⟩ := h.takeSrc h1
    simp only at hw
    split at hw
    · simp [Work.trap] at hw
    · cases hw; exact ⟨g1.quiet rfl, e1⟩
  · cases hw; exact ⟨h, rfl⟩

theorem Ran.opdPatch {n b k : Nat} (h : Ran s0 o (w.op + 128) w ∧ o ≤ w.op)
    (hw : opdPatch n b k w = .ok w') : Ran s0 o (w.op + 128) w' ∧ w'.op = w.op := by
  obtain ⟨_, h1, hw⟩ := bind_eq_ok.1 hw
  have hpos := of_decide_eq_true (check_eq_ok.1 h1)
  exact h.1.orDst hw (by omega) (by omega)

theorem Ran.opdDecodeBlock {S : S16} (h : Ran s0 o w.op w) (hw : opdDecodeBlock S w = .ok w') :
    Ran s0 o w'.op w' := by
  obtain ⟨⟨x, w1⟩, h1, hw⟩ := bind_eq_ok.1 hw
  obtain ⟨g1, e1⟩ := h.takeSrc1 h1
  obtain ⟨_, _, hw⟩ := bind_eq_ok.1 hw
  obtain ⟨w2, h2, hw⟩ := bind_eq_ok.1 hw
  obtain ⟨g2, e2⟩ := g1.loadPayload h2
  obtain ⟨w3, h3, hw⟩ := bind_eq_ok.1 hw
  obtain ⟨w4, h4, hw⟩ := bind_eq_ok.1 hw
  cases hw
  rw [← e1, ← e2] at g2
  obtain ⟨g3, e3⟩ := g2.unpackBlock h3
  have g4 := forEach_induct (P := fun v => Ran s0 o (w2.op + 128) v ∧ v.op = w2.op)
    (fun k _ v v' hv hb => ?_) w3 w4 ⟨g3, e3⟩ h4
  · exact (g4.2 ▸ g4.1).quiet rfl
  · have := Ran.opdPatch (by rw [hv.2]; exact ⟨hv.1, g2.order⟩) hb
    rw [hv.2] at this
    exact this

theorem Ran.opdEncodePage {S : S16} {n : Nat} (h : Ran s0 o w.op w)
    (hw : opdEncodePage S n w = .ok w') : Ran s0 o w'.op w' :=
  iter_induct (P := fun v => Ran s0 o v.op v) (fun _ _ hv hb => hv.opdEncodeBlock hb) _ _ _ h hw

theorem Ran.opdDecodePage {S : S16} {n : Nat} (h : Ran s0 o w.op w)
    (hw : opdDecodePage S n w = .ok w') : Ran s0 o w'.op w' :=
  iter_induct (P := fun v => Ran s0 o v.op v) (fun _ _ hv hb => hv.opdDecodeBlock hb) _ _ _ h hw

end

end Sys2Proof.Machine
end

