-- ==== Sys2Proof/Laws/PerInstr.lean ====
section
/-! SUPPORT. The per-instruction family `TableMatch`: the encoded word of a well-formed command
matches its row of the opcode table (30_encoding.md R72). -/

namespace Sys2Proof

/-- `encode i & mask = match` for the row of `i`. -/
def Laws.TableMatch.Statement (i : Instr) : Prop :=
  encode i &&& i.tableRow.2 = i.tableRow.1

theorem Laws.TableMatch.sreset : Laws.TableMatch.Statement .sreset := by
  unfold Laws.TableMatch.Statement; decide

theorem Laws.TableMatch.pack32 (w : BitVec 6) : Laws.TableMatch.Statement (.pack32 w) := by
  unfold Laws.TableMatch.Statement
  revert w
  decide

theorem Laws.TableMatch.unpack32 (w : BitVec 6) : Laws.TableMatch.Statement (.unpack32 w) := by
  unfold Laws.TableMatch.Statement
  revert w
  decide

theorem Laws.TableMatch.fpfSelect : Laws.TableMatch.Statement .fpfSelect := by
  unfold Laws.TableMatch.Statement; decide

theorem Laws.TableMatch.fpfEncpage : Laws.TableMatch.Statement .fpfEncpage := by
  unfold Laws.TableMatch.Statement; decide

theorem Laws.TableMatch.fpfDecpage : Laws.TableMatch.Statement .fpfDecpage := by
  unfold Laws.TableMatch.Statement; decide

theorem Laws.TableMatch.fpfCompress : Laws.TableMatch.Statement .fpfCompress := by
  unfold Laws.TableMatch.Statement; decide

theorem Laws.TableMatch.fpfUncompress : Laws.TableMatch.Statement .fpfUncompress := by
  unfold Laws.TableMatch.Statement; decide

theorem Laws.TableMatch.opdSelect : Laws.TableMatch.Statement .opdSelect := by
  unfold Laws.TableMatch.Statement; decide

theorem Laws.TableMatch.opdEncpage : Laws.TableMatch.Statement .opdEncpage := by
  unfold Laws.TableMatch.Statement; decide

theorem Laws.TableMatch.opdDecpage : Laws.TableMatch.Statement .opdDecpage := by
  unfold Laws.TableMatch.Statement; decide

theorem Laws.TableMatch.opdCompress : Laws.TableMatch.Statement .opdCompress := by
  unfold Laws.TableMatch.Statement; decide

theorem Laws.TableMatch.opdUncompress : Laws.TableMatch.Statement .opdUncompress := by
  unfold Laws.TableMatch.Statement; decide

end Sys2Proof
end

