-- ==== Sys2Proof/Tests/Slice0.lean ====
section
/-! SUPPORT. Tests: what the checks refuse, command words written out from R70 and R72, vectors of
95_test_vectors.md, and a witness for the hypotheses of every obligation that has some. -/

namespace Sys2Proof.Tests

open Sys2Proof.Machine

/-! ### Well-formedness -/

theorem test_pack32_33_is_ill_formed : (Instr.pack32 33).wellFormed = false := by decide
theorem test_unpack32_63_is_ill_formed : (Instr.unpack32 63).wellFormed = false := by decide
theorem test_pack32_32_is_well_formed : (Instr.pack32 32).wellFormed = true := by decide

/-! ### Command words, `Z = 0`, `W`, `OPC`, written out bit by bit (R70, R72) -/

theorem test_word_sreset :
    decode 0b00000000_00000000_00000000_00000001 = .command .sreset := by decide
theorem test_word_pack32 :
    decode 0b00000000_00000000_00_000101_00010000 = .command (.pack32 5) := by decide
theorem test_word_unpack32 :
    decode 0b00000000_00000000_00_100000_00010001 = .command (.unpack32 32) := by decide
theorem test_word_fpf_select :
    decode 0b00000000_00000000_00000000_00100000 = .command .fpfSelect := by decide
theorem test_word_fpf_encpage :
    decode 0b00000000_00000000_00000000_00100001 = .command .fpfEncpage := by decide
theorem test_word_fpf_decpage :
    decode 0b00000000_00000000_00000000_00100010 = .command .fpfDecpage := by decide
theorem test_word_fpf_compress :
    decode 0b00000000_00000000_00000000_00100011 = .command .fpfCompress := by decide
theorem test_word_fpf_uncompress :
    decode 0b00000000_00000000_00000000_00100100 = .command .fpfUncompress := by decide
theorem test_word_opd_select :
    decode 0b00000000_00000000_00000000_00110000 = .command .opdSelect := by decide
theorem test_word_opd_encpage :
    decode 0b00000000_00000000_00000000_00110001 = .command .opdEncpage := by decide
theorem test_word_opd_decpage :
    decode 0b00000000_00000000_00000000_00110010 = .command .opdDecpage := by decide
theorem test_word_opd_compress :
    decode 0b00000000_00000000_00000000_00110011 = .command .opdCompress := by decide
theorem test_word_opd_uncompress :
    decode 0b00000000_00000000_00000000_00110100 = .command .opdUncompress := by decide

/-- The host's decoding entry reads a table number like the word. -/
theorem test_table_word : decodeTableWord 32 0x2010 = some (.pack32 32) := by decide
theorem test_table_word_illegal : decodeTableWord 32 0x2110 = none := by decide

/-- A command placed by `withFetchWord` is the next step, here right after reset. -/
theorem test_fetch_runs :
    step (State.reset.withFetchWord 32 0x2110) =
      .next (State.reset.afterEarlyFault 1 0x2110) := by rfl

/-! ### Small states -/

/-- A build with pages of 256 values and memories of 400 words. -/
def build : Params := ⟨1, 400, 400⟩

/-- `src` placed from index 0, cursors 0, `INLEN = THISSIZE = n`. -/
def at0 (n : Word) (src : List Word) : State :=
  { State.powerUp build with src := Arr.cells 0 src, inlen := n, thissize := n }

/-- `n` copies of a word. -/
abbrev rep (n : Nat) (v : Word) : List Word := List.replicate n v

/-- What a test looks at in an outcome. -/
structure Seen where
  fcause : Word
  finfo : Word
  inpos : Content
  outpos : Content
  dst : Memory
deriving DecidableEq

/-- The registers and the memory a test looks at. -/
def seen (o : Host.Outcome State Fault Refusal) : Option Seen :=
  match o with
  | .next s => some ⟨s.fcause, s.finfo, s.inpos, s.outpos, s.dst⟩
  | .fault _ => none
  | .refused _ => none

/-- A completed command that produced `out` from index 0. -/
def done (ip : Word) (out : List Word) : Option Seen :=
  some ⟨0, 0, .known ip, .known (BitVec.ofNat 32 out.length), Arr.cells 0 out⟩

/-- A fault with `OUTPOS = 0` at the start. -/
def faulted (code info : Word) : Option Seen :=
  some ⟨code, info, .unspecified, .unspecified, []⟩

/-- The result registers. -/
def results (o : Host.Outcome State Fault Refusal) : Option (Content × Content × Content) :=
  match o with
  | .next s => some (s.bestb, s.cexcept, s.maxb)
  | .fault _ => none
  | .refused _ => none

/-! ### The system command and faults (Program 4, R252, R240) -/

/-- `SRESET` on a faulted block clears it. -/
theorem test_sreset_recovers :
    exec .sreset ((at0 7 []).afterEarlyFault 10 100) = .next (State.powerUp build) := by rfl

/-- A faulted block refuses `FPF.SELECT` (Program 4). -/
theorem test_faulted_refuses :
    exec .fpfSelect ((at0 7 [1]).afterEarlyFault 10 100) =
      .next ((at0 7 [1]).afterEarlyFault 10 100) := by rfl

/-! ### The packer (95_test_vectors.md V1, V4, V5, V6, P5) -/

theorem test_pack32_p5 : seen (exec (.pack32 3) (at0 0 (rep 32 5))) =
    done 32 [0x6DB6DB6D, 0xDB6DB6DB, 0xB6DB6DB6] := by decide +kernel

/-- V5: the last of the 32 words lies outside `SRC`. -/
theorem test_pack32_src_bounds :
    seen (exec (.pack32 4) { at0 0 [] with params := ⟨0, 40, 400⟩, inpos := .known 16 }) =
      faulted 2 47 := by decide +kernel

/-- V3 with P6: the ramp comes back. -/
theorem test_unpack32_p6 :
    seen (exec (.unpack32 5)
      (at0 0 [0x8A418820, 0xC5A92839, 0xCA307B9A, 0x38BDAB49, 0xFFBBCDEB])) =
    done 5 ((List.range 32).map (BitVec.ofNat 32)) := by decide +kernel

/-- V4: width 0 reads nothing, not even past the end of `SRC`. -/
theorem test_unpack32_width_zero :
    seen (exec (.unpack32 0) { at0 0 [] with params := ⟨0, 4, 400⟩, inpos := .known 9 }) =
      done 9 (rep 32 0) := by decide +kernel

/-! ### FastPFOR (R129, S1, S2, E5, F2, F6) -/

/-- R129: on a tie the wider choice stays, `(4, 0, 4)`. -/
theorem test_fpf_select_tie :
    results (exec .fpfSelect (at0 0 (rep 42 15 ++ rep 86 0))) =
      some (.known 4, .known 0, .known 4) := by decide +kernel

/-- R129: one value fewer and the exceptions pay, `(0, 41, 4)`. -/
theorem test_fpf_select_exceptions :
    results (exec .fpfSelect (at0 0 (rep 41 15 ++ rep 87 0))) =
      some (.known 0, .known 41, .known 4) := by decide +kernel

/-- E5. -/
theorem test_fpf_encpage_zeros :
    seen (exec .fpfEncpage (at0 128 (rep 128 0))) = done 128 [1, 2, 0, 0] := by decide +kernel

/-- E6, for a page size of 256. -/
theorem test_fpf_encpage_bad_param :
    exec .fpfEncpage (at0 257 []) = .next ((at0 257 []).afterEarlyFault 12 257) := by rfl

/-- The stream of S2. -/
def s2 : List Word := [0x80, 1, 4, 0x00010100, 1, 1, 1]

/-- S2: one exception, in bucket 1. -/
theorem test_fpf_compress_s2 :
    seen (exec .fpfCompress (at0 128 (1 :: rep 127 0))) = done 128 s2 := by decide +kernel

/-- B4, `FPF.DECPAGE` on S2's page. -/
theorem test_fpf_decpage_s2 :
    seen (exec .fpfDecpage (at0 128 s2.tail)) = done 6 (1 :: rep 127 0) := by decide +kernel

/-- R180's example. -/
theorem test_fpf_uncompress_s2 :
    seen (exec .fpfUncompress (at0 7 s2)) = done 7 (1 :: rep 127 0) := by decide +kernel

/-- F6: position 128. -/
theorem test_fpf_uncompress_f6 :
    seen (exec .fpfUncompress (at0 7 (s2.set 3 0x80010100))) = faulted 7 128 := by decide +kernel

/-! ### OptPFD under `S16_TOY` (R227(5), O6): the commands' own procedures with that coder -/

/-- S5's block: 127 zeros and `2^31`. -/
def s5 : List Word := rep 127 0 ++ [0x80000000]

/-- The stream of R227(5). -/
def s5Stream : List Word := [0x80, 0x00020104, 0x08000000, 0x7F] ++ rep 16 0

theorem test_opd_select_s5 :
    results (runCommand (at0 0 s5) (opdSelectBody S16.toy)) =
      some (.known 4, .known 1, .known 32) := by decide +kernel

theorem test_opd_encpage_s5 :
    seen (runCommand (at0 128 s5) (opdEncpageBody S16.toy)) = done 128 s5Stream.tail := by
  decide +kernel

theorem test_opd_compress_s5 :
    seen (runCommand (at0 128 s5) (opdCompressBody S16.toy)) = done 128 s5Stream := by
  decide +kernel

theorem test_opd_decpage_s5 :
    seen (runCommand (at0 128 s5Stream.tail) (opdDecpageBody S16.toy)) = done 19 s5 := by
  decide +kernel

theorem test_opd_uncompress_s5 :
    seen (runCommand (at0 20 s5Stream) (opdUncompressBody S16.toy)) = done 20 s5 := by
  decide +kernel

/-- O6: position 128 in the payload. -/
theorem test_opd_uncompress_o6 :
    seen (runCommand (at0 20 ([0x80, 0x00020104, 0x08000000, 0x80] ++ rep 16 0))
      (opdUncompressBody S16.toy)) = faulted 7 128 := by decide +kernel

/-! ### Witnesses: states and operands that meet the hypotheses of each obligation -/

/-- The state a command leaves, the state itself where it leaves none. -/
def after (i : Instr) (s : State) : State :=
  match exec i s with
  | .next t => t
  | .fault _ => s
  | .refused _ => s

/-- Whether a command leaves a next state. -/
def completes (i : Instr) (s : State) : Bool :=
  match exec i s with
  | .next _ => true
  | .fault _ => false
  | .refused _ => false

theorem exec_eq_after {i : Instr} {s : State} (h : completes i s = true) :
    exec i s = .next (after i s) := by
  unfold completes at h
  unfold after
  cases he : exec i s <;> simp_all

/-- A state in the build of these tests with cursors `ip` and `op`. -/
abbrev cur (ip op : Word) (s : State) : State := { s with inpos := .known ip, outpos := .known op }

/-- A state with pending host actions. -/
abbrev withHost (ops : List HostOp) (s : State) : State := { s with host := ops }

/-- A faulted block. -/
abbrev broken : State := (at0 7 [1]).afterEarlyFault 10 100

theorem witness_IllegalWordFaultsAlone_legal :
    ∃ (c : Word) (i j : Instr), i.rowSelects c ∧ j.rowSelects c :=
  ⟨0x2010, .pack32 32, .pack32 32, by unfold Instr.rowSelects; decide,
    by unfold Instr.rowSelects; decide⟩

theorem witness_IllegalWordFaultsAlone :
    ∃ (s : State) (c : Word), s.faulted = false ∧ ∀ i : Instr, ¬ i.rowSelects c := by
  refine ⟨State.reset, 0x2110, by decide, ?_⟩
  intro i h
  have h3 := h.2.2
  revert h3
  decide

theorem witness_WidthAbove32IsIllegal :
    ∃ (s : State) (k : BitVec 6), s.faulted = false ∧ 32 < k.toNat := ⟨State.reset, 33, by decide⟩

theorem witness_StepRunsDecodedCommand :
    ∃ (s : State) (c : Word) (i : Instr) (rest : List HostOp), s.host = .wr 0 c :: rest ∧
      decode c = .command i ∧ i.wellFormed = true :=
  ⟨withHost [.wr 0 0x2010, .rd 1] State.reset, 0x2010, .pack32 32, [.rd 1], by decide⟩

theorem witness_FaultedBlockRefuses :
    ∃ (s : State) (c : Word) (r : Nat), s.faulted = true ∧ c ≠ 1 ∧ r ≠ 0 := ⟨broken, 0, 4, by decide⟩

theorem witness_OnlyResetLeavesTheFaultedState :
    ∃ s t : State, s.faulted = true ∧ step s = .next t :=
  ⟨withHost [.wr 0 0x20] broken, broken, by decide, rfl⟩

theorem witness_SresetRestoresTheResetState :
    ∃ (s t : State) (c : Word), Field.opc c = 1 ∧ c ≠ 1 ∧ s.faulted = true ∧
      hostAction (.wr 0 1) s = .next t ∧ t.faulted = false :=
  ⟨broken, softReset broken, 0x101, by decide, by decide, by decide, rfl, by decide⟩

theorem witness_RegisterReadsReturnTheirValues :
    ∃ s : State, s.inpos = .known 3 ∧ s.outpos = .known 4 ∧ s.bestb = .known 0 ∧
      s.cexcept = .known 0 ∧ s.maxb = .known 0 := ⟨cur 3 4 (at0 7 [1]), by decide⟩

/-- The last word of each memory, written. -/
theorem witness_HostReachesEveryMemoryWord_write :
    ∃ (s t : State) (a : Nat), s.host = [.writeSrc a 5] ∧ t.host = [.writeDst a 5] ∧
      a + 1 = s.params.srcLen.toNat ∧ a + 1 = t.params.dstLen.toNat :=
  ⟨withHost [.writeSrc 399 5] (at0 0 []), withHost [.writeDst 399 5] (at0 0 []), 399, by decide⟩

/-- The last word of each memory, read. -/
theorem witness_HostReachesEveryMemoryWord_read :
    ∃ (s t : State) (a : Nat), s.host = [.readSrc a] ∧ t.host = [.readDst a] ∧
      a + 1 = s.params.srcLen.toNat ∧ a + 1 = t.params.dstLen.toNat ∧
      s.src.get? a = some 5 ∧ t.dst.get? a = some 5 :=
  ⟨withHost [.readSrc 399] { at0 0 [] with src := [(399, 5)] },
    withHost [.readDst 399] { at0 0 [] with dst := [(399, 5)] }, 399, by decide⟩

/-- The first word each memory does not have. -/
theorem witness_HostReachesEveryMemoryWord_outside :
    ∃ (s t : State) (a : Nat), s.host = [.readSrc a] ∧ t.host = [.writeDst a 5] ∧
      a = s.params.srcLen.toNat ∧ a = t.params.dstLen.toNat :=
  ⟨withHost [.readSrc 400] (at0 0 []), withHost [.writeDst 400 5] (at0 0 []), 400, by decide⟩

theorem witness_EveryStepKeepsTheInvariant : ∃ s t : State, s.Inv ∧ step s = .next t := by
  refine ⟨withHost [.wr 4 9] (at0 7 (rep 3 1)), withHost [] (cur 9 0 (at0 7 (rep 3 1))), ?_, rfl⟩
  have h0 (n : Nat) : (Content.known 0).atMost n := by
    intro w hw
    cases hw
    exact Nat.zero_le n
  exact ⟨by decide, by decide, by decide, by decide, by decide, by decide, by decide,
    h0 _, h0 _, h0 _, rfl⟩

theorem witness_CommandsKeepSourceAndOperands :
    ∃ (i : Instr) (s t : State), i ≠ .sreset ∧ exec i s = .next t :=
  ⟨.pack32 3, at0 0 (rep 32 5), _, by decide, exec_eq_after (by decide +kernel)⟩

theorem witness_CompletedCommandWritesExactlyItsOutput :
    ∃ (i : Instr) (s t : State) (o o' : Word), i ≠ .sreset ∧ s.faulted = false ∧
      s.outpos = .known o ∧ exec i s = .next t ∧ t.faulted = false ∧ t.outpos = .known o' ∧
      o.toNat < o'.toNat :=
  ⟨.pack32 3, cur 0 7 (at0 0 (rep 32 5)), after (.pack32 3) (cur 0 7 (at0 0 (rep 32 5))), 7, 10,
    by decide, by decide, rfl, exec_eq_after (by decide +kernel), by decide +kernel,
    by decide +kernel, by decide⟩

/-- An early fault. -/
theorem witness_FaultLeavesExactlyWhatIsStated_early :
    ∃ (c : Word) (s t : State) (o : Word), s.faulted = false ∧ s.outpos = .known o ∧
      issueCommand c s = .next t ∧ t.faulted = true ∧ t.fcause = 12 :=
  ⟨0x21, at0 257 [], (at0 257 []).afterEarlyFault 12 257, 0, by decide, rfl, rfl, by decide, rfl⟩

/-- A late fault, at `OUTPOS = 398` with 3 words to write. -/
theorem witness_FaultLeavesExactlyWhatIsStated_late :
    ∃ (c : Word) (s t : State) (o : Word), s.faulted = false ∧ s.outpos = .known o ∧
      issueCommand c s = .next t ∧ t.faulted = true ∧ t.fcause = 3 :=
  ⟨0x310, cur 0 398 (at0 0 (rep 32 5)), after (.pack32 3) (cur 0 398 (at0 0 (rep 32 5))), 398,
    by decide, rfl, exec_eq_after (i := .pack32 3) (by decide +kernel), by decide +kernel,
    by decide +kernel⟩

/-- An unfaulted block and a body that raises a fault. -/
theorem witness_FaultRecordsItsCauseAndInfo :
    ∃ (s : State) (body : State → Except Trap State) (e : Trap), s.faulted = false ∧
      body s = .error e ∧ e.info = 2 ^ 32 - 1 :=
  ⟨State.reset, fun _ => .error ⟨.badCount, 2 ^ 32 - 1, 0⟩, ⟨.badCount, 2 ^ 32 - 1, 0⟩, by decide,
    rfl, rfl⟩

theorem witness_ResultRegistersAfterEachCommand :
    ∃ (i : Instr) (s t : State), i ≠ .sreset ∧ s.faulted = false ∧ exec i s = .next t ∧
      t.faulted = false ∧ i.isSelect = false :=
  ⟨.pack32 3, at0 0 (rep 32 5), after (.pack32 3) (at0 0 (rep 32 5)), by decide, by decide,
    exec_eq_after (by decide +kernel), by decide +kernel, by decide⟩

theorem witness_ResultRegistersAfterEachCommand_select :
    ∃ (i : Instr) (s t : State), i ≠ .sreset ∧ s.faulted = false ∧ exec i s = .next t ∧
      t.faulted = false ∧ i.isSelect = true :=
  ⟨.fpfSelect, at0 0 (rep 128 5), after .fpfSelect (at0 0 (rep 128 5)), by decide, by decide,
    exec_eq_after (by decide +kernel), by decide +kernel, by decide⟩

theorem witness_ScratchIsNotObservable : ∃ (i : Instr) (s t : State), exec i s = .next t :=
  ⟨.fpfSelect, at0 0 (rep 128 5), _, exec_eq_after (by decide +kernel)⟩

theorem witness_OversizedPageIsBadParam :
    ∃ s t : State, s.faulted = false ∧ pageSize s.params + 1 = s.thissize.toNat ∧
      t.faulted = false ∧ t.thissize.toNat = 65537 := ⟨at0 257 [], at0 65537 [], by decide⟩

theorem witness_EmptyInputCompletes :
    ∃ s t : State, s.ready 3 4 ∧ s.inlen.toNat = 127 ∧ t.ready 3 4 ∧ t.inlen.toNat = 0 :=
  ⟨cur 3 4 (at0 127 []), cur 3 4 (at0 0 []), by decide⟩

theorem witness_WidthTableAndItsInverse : (13 ≤ 13) ∧ (32 ≤ 32) ∧ 0 < invbits 32 := by decide

theorem witness_LowAndHighPartsMakeTheWord :
    ∃ v w : Word, bitlen v = 32 ∧ bitlen w = 0 ∧ 0 ≤ 32 := ⟨0x80000000, 0, by decide⟩

/-- Width 0 and width 32, the ends of the range. -/
theorem witness_PackerLaws :
    ∃ v o : List Word, v.length = 32 ∧ (∀ x ∈ v, x.toNat < 2 ^ 0) ∧ o.length = 32 ∧
      v.map (low · 32) = (unpack32 [] 0).map (low · 32) :=
  ⟨rep 32 0, rep 32 0, by decide +kernel, by simp, by decide +kernel⟩

theorem witness_PackerWordByWordForm :
    ∃ (v o : List Word) (w : Nat), w ≤ 32 ∧ v.length = 32 ∧ o.length = w :=
  ⟨rep 32 7, rep 17 7, 17, by decide⟩

/-- The last group `SRC` has room for, and the last words of `DST`. -/
theorem witness_Pack32MeetsItsRule :
    ∃ (s : State) (ip op : Word) (k : BitVec 6), s.ready ip op ∧ k.toNat ≤ 32 ∧
      ip.toNat + 32 = s.params.srcLen.toNat ∧ op.toNat + k.toNat = s.params.dstLen.toNat :=
  ⟨cur 368 368 (at0 0 []), 368, 368, 32, by decide⟩

theorem witness_Pack32MeetsItsRule_width_zero :
    ∃ (s : State) (ip op : Word) (k : BitVec 6), s.ready ip op ∧ k.toNat = 0 ∧
      ip.toNat + 32 = s.params.srcLen.toNat ∧ s.params.dstLen.toNat < op.toNat :=
  ⟨cur 368 900 (at0 0 []), 368, 900, 0, by decide⟩

theorem witness_Pack32MeetsItsRule_src :
    ∃ (s : State) (ip op : Word) (k : BitVec 6), s.ready ip op ∧ k.toNat ≤ 32 ∧
      s.params.srcLen.toNat + 1 = ip.toNat + 32 := ⟨cur 369 0 (at0 0 []), 369, 0, 0, by decide⟩

theorem witness_Pack32MeetsItsRule_dst :
    ∃ (s : State) (ip op : Word) (k : BitVec 6), s.ready ip op ∧ k.toNat ≤ 32 ∧
      ip.toNat + 32 ≤ s.params.srcLen.toNat ∧ 1 = k.toNat ∧
      s.params.dstLen.toNat < op.toNat + k.toNat := ⟨cur 0 400 (at0 0 []), 0, 400, 1, by decide⟩

theorem witness_Pack32MeetsItsRule_illegal :
    ∃ (s : State) (c : Word), s.ready 0 0 ∧ Field.opc c = 0x10 ∧ (Field.w c).toNat = 33 :=
  ⟨at0 0 [], 0x2110, by decide⟩

theorem witness_Unpack32MeetsItsRule :
    ∃ (s : State) (ip op : Word) (k : BitVec 6), s.ready ip op ∧ k.toNat ≤ 32 ∧
      ip.toNat + k.toNat = s.params.srcLen.toNat ∧ op.toNat + 32 = s.params.dstLen.toNat :=
  ⟨cur 368 368 (at0 0 []), 368, 368, 32, by decide⟩

theorem witness_Unpack32MeetsItsRule_width_zero :
    ∃ (s : State) (ip op : Word) (k : BitVec 6), s.ready ip op ∧ k.toNat = 0 ∧
      s.params.srcLen.toNat < ip.toNat ∧ op.toNat + 32 = s.params.dstLen.toNat :=
  ⟨cur 900 368 (at0 0 []), 900, 368, 0, by decide⟩

theorem witness_Unpack32MeetsItsRule_src :
    ∃ (s : State) (ip op : Word) (k : BitVec 6), s.ready ip op ∧ 1 = k.toNat ∧
      s.params.srcLen.toNat + 1 = ip.toNat + k.toNat := ⟨cur 400 0 (at0 0 []), 400, 0, 1, by decide⟩

theorem witness_Unpack32MeetsItsRule_dst :
    ∃ (s : State) (ip op : Word) (k : BitVec 6), s.ready ip op ∧ k.toNat ≤ 32 ∧
      ip.toNat + k.toNat = s.params.srcLen.toNat ∧
      s.params.dstLen.toNat + 1 = op.toNat + 32 := ⟨cur 368 369 (at0 0 []), 368, 369, 32, by decide⟩

theorem witness_Unpack32MeetsItsRule_illegal :
    ∃ (s : State) (c : Word), s.ready 0 0 ∧ Field.opc c = 0x11 ∧ (Field.w c).toNat = 33 :=
  ⟨at0 0 [], 0x2111, by decide⟩

/-- The last block `SRC` has room for, and the first it has not. -/
theorem witness_FpfSelectMeetsItsRule :
    ∃ s t : State, s.ready 272 0 ∧ 272 + 128 = s.params.srcLen.toNat ∧ t.ready 273 0 ∧
      t.params.srcLen.toNat + 1 = 273 + 128 := ⟨cur 272 0 (at0 0 []), cur 273 0 (at0 0 []), by decide⟩

theorem witness_FpfSelectorIsOptimal :
    ∃ (sc : Scratch) (blk : List Word), blk.length = 128 ∧ (fpfSelect sc blk).1 = (0, 1, 1) :=
  ⟨{ Scratch.unspecified with freqs := [(3, 9)] }, 1 :: rep 127 0, by decide +kernel⟩

theorem witness_DispatchFillsOneBucketInOrder :
    ∃ (idx : Nat) (blk : List Word) (sc : Scratch) (n d : Nat), blk.length = 128 ∧
      sc.bblen = some n ∧ sc.dp.get? idx = some d ∧ d + 128 ≤ 65536 :=
  ⟨1, 1 :: rep 127 0, { Scratch.unspecified.clearDp with bblen := some 3 }, 3, 0, by decide +kernel⟩

theorem witness_PageLength :
    ∃ blks : List (List Word), blks.length = 1 ∧ ∀ blk ∈ blks, blk.length = 128 :=
  ⟨[1 :: rep 127 0], by decide +kernel⟩

/-- The last three words of `DST`. -/
theorem witness_FpfEncpageOfNoBlocks :
    ∃ s : State, s.ready 0 397 ∧ s.thissize.toNat = 127 ∧ 397 + 3 = s.params.dstLen.toNat :=
  ⟨cur 0 397 (at0 127 []), by decide⟩

/-- S2's block, a page of one block. -/
abbrev s2Block : List Word := 1 :: rep 127 0

theorem witness_FpfEncpageWritesThePageFormat :
    ∃ (s : State) (vs : List Word), s.ready 0 0 ∧ s.thissize.toNat ≤ pageSize s.params ∧
      vs.length = 128 * (s.thissize.toNat / 128) ∧ vs.length = 128 ∧ s.src.holds 0 vs ∧
      0 + vs.length ≤ s.params.srcLen.toNat ∧
      0 + (pageImage (blocksOf vs)).length ≤ s.params.dstLen.toNat :=
  ⟨at0 128 s2Block, s2Block, by decide +kernel⟩

theorem witness_FpfCompressWritesTheStreamFormat :
    ∃ (s : State) (vs : List Word), s.ready 0 0 ∧ vs.length = 128 * (s.inlen.toNat / 128) ∧
      128 ≤ s.inlen.toNat ∧ s.src.holds 0 vs ∧ 0 + vs.length ≤ s.params.srcLen.toNat ∧
      0 + (streamImage (pageSize s.params) vs).length ≤ s.params.dstLen.toNat :=
  ⟨at0 128 s2Block, s2Block, by decide +kernel⟩

/-- A working state with the byte buffer `bytes` at its start. -/
def bytesAt0 (bytes : List Byte) : Work :=
  ⟨{ at0 0 [] with scratch := { Scratch.unspecified with
      bb := Arr.cells 0 bytes, bblen := some bytes.length, bbpos := some 0 } }, 0, 0⟩

theorem witness_FpfBlockHeaderChecks_overrun :
    ∃ w x : Work, w.s.scratch.bbpos = some 0 ∧ w.s.scratch.bblen = some 0 ∧
      x.s.scratch.bbpos = some 0 ∧ x.s.scratch.bblen = some 1 :=
  ⟨bytesAt0 [], bytesAt0 [9], by decide⟩

/-- The first width and the first count that are refused. -/
theorem witness_FpfBlockHeaderChecks :
    ∃ w x : Work, w.s.scratch.bbpos = some 0 ∧ w.s.scratch.bblen = some 2 ∧
      w.s.scratch.bb.get? 0 = some 33 ∧ w.s.scratch.bb.get? 1 = some 200 ∧
      x.s.scratch.bbpos = some 0 ∧ x.s.scratch.bblen = some 2 ∧
      x.s.scratch.bb.get? 0 = some 32 ∧ x.s.scratch.bb.get? 1 = some 129 :=
  ⟨bytesAt0 [33, 200], bytesAt0 [32, 129], by decide⟩

/-- No exceptions with an empty byte buffer, and exceptions with one. -/
theorem witness_FpfMaxbChecks_overrun :
    ∃ w : Work, w.s.scratch.bbpos = some 0 ∧ w.s.scratch.bblen = some 0 := ⟨bytesAt0 [], by decide⟩

/-- At width 4: the widths 33 and 4, which are refused, and 5 and 32, which are not. -/
theorem witness_FpfMaxbChecks :
    ∃ w x y z : Work, w.s.scratch.bbpos = some 0 ∧ w.s.scratch.bblen = some 1 ∧
      w.s.scratch.bb.get? 0 = some 33 ∧
      x.s.scratch.bbpos = some 0 ∧ x.s.scratch.bblen = some 1 ∧ x.s.scratch.bb.get? 0 = some 4 ∧
      y.s.scratch.bbpos = some 0 ∧ y.s.scratch.bblen = some 1 ∧ y.s.scratch.bb.get? 0 = some 5 ∧
      z.s.scratch.bbpos = some 0 ∧ z.s.scratch.bblen = some 1 ∧ z.s.scratch.bb.get? 0 = some 32 :=
  ⟨bytesAt0 [33], bytesAt0 [4], bytesAt0 [5], bytesAt0 [32], by decide⟩

/-- A working state at output position `op` with one position byte and one value in bucket 1. -/
def mergeAt (op : Nat) (pos : Byte) (taken : Nat) : Work :=
  ⟨{ at0 0 [] with
      scratch := { Scratch.unspecified with
        bb := [(0, pos)], bblen := some 1, bbpos := some 0, dp := [(1, taken)],
        bsize := [(1, 1)], bk := [(bkIndex 1 0, 6)] }
      dst := Arr.cells 272 (rep 128 1) }, 0, op⟩

theorem witness_MultiplexTakesTheNextBucketValue :
    ∃ (w : Work) (val x : Word), w.s.scratch.bbpos = some 0 ∧ w.s.scratch.bblen = some 1 ∧
      w.s.scratch.bb.get? 0 = some 127 ∧ w.s.scratch.dp.get? 1 = some 0 ∧
      w.s.scratch.bsize.get? 1 = some 1 ∧ w.op + 127 + 1 = w.s.params.dstLen.toNat ∧
      w.s.scratch.bk.get? (bkIndex 1 0) = some val ∧ w.s.dst.get? (w.op + 127) = some x :=
  ⟨mergeAt 272 127 0, 6, 1, by decide⟩

theorem witness_MultiplexTakesTheNextBucketValue_overrun :
    ∃ w : Work, w.s.scratch.bbpos = some 0 ∧ w.s.scratch.bblen = some 0 := ⟨bytesAt0 [], by decide⟩

theorem witness_MultiplexTakesTheNextBucketValue_position :
    ∃ w : Work, w.s.scratch.bbpos = some 0 ∧ w.s.scratch.bblen = some 1 ∧
      w.s.scratch.bb.get? 0 = some 128 ∧ w.s.scratch.dp.get? 1 = some 0 ∧
      w.s.scratch.bsize.get? 1 = some 1 := ⟨mergeAt 272 128 0, by decide⟩

theorem witness_MultiplexTakesTheNextBucketValue_bucket :
    ∃ w : Work, w.s.scratch.bbpos = some 0 ∧ w.s.scratch.bblen = some 1 ∧
      w.s.scratch.bb.get? 0 = some 127 ∧ w.s.scratch.dp.get? 1 = some 1 ∧
      w.s.scratch.bsize.get? 1 = some 1 := ⟨mergeAt 272 127 1, by decide⟩

theorem witness_MultiplexTakesTheNextBucketValue_dst :
    ∃ w : Work, w.s.scratch.bbpos = some 0 ∧ w.s.scratch.bblen = some 1 ∧
      w.s.scratch.bb.get? 0 = some 127 ∧ w.s.scratch.dp.get? 1 = some 0 ∧
      w.s.scratch.bsize.get? 1 = some 1 ∧ w.op + 127 = w.s.params.dstLen.toNat :=
  ⟨mergeAt 273 127 0, by decide⟩

theorem witness_UncompressChecksTheCountWord :
    ∃ s t u : State, s.ready 400 0 ∧ s.inlen.toNat ≠ 0 ∧ s.params.srcLen.toNat = 400 ∧
      t.ready 0 0 ∧ t.inlen.toNat ≠ 0 ∧ 0 < t.params.srcLen.toNat ∧ t.src.get? 0 = some 127 ∧
      u.ready 0 0 ∧ u.inlen.toNat ≠ 0 ∧ 0 < u.params.srcLen.toNat ∧ u.src.get? 0 = some 0 :=
  ⟨cur 400 0 (at0 1 []), at0 1 [127], at0 1 [0], by decide⟩

/-- The meta section with the byte buffer `bytes` of `size` bytes and the buckets `cnt`, `ws` that the
bitmap names. -/
abbrev metaSection (size : Word) (bytes : List Word) (bitmap : Word) (cnt : Nat → Word)
    (ws : Nat → List Word) : List Word :=
  size :: bytes ++ bitmap :: bucketNumbers.flatMap fun k =>
    if bitmap.getLsbD (k - 1) then cnt k :: ws k else []

/-- The section `m` words after a page's head. -/
abbrev metaAt (m : Word) (sec : List Word) : State := at0 127 (m :: rep (m.toNat - 1) 0 ++ sec)

/-- An empty meta section, and one with 5 bytes and one value in each of the buckets 1 and 32, the
ends of the bitmap. -/
theorem witness_FpfDecpageOfNoBlocks :
    ∃ (s t : State) (sec sec' : List Word), sec = metaSection 0 [] 0 (fun _ => 0) (fun _ => []) ∧
      s.ready 0 0 ∧ s.thissize.toNat = 127 ∧ s.src.get? 0 = some 1 ∧ s.src.holds (0 + 1) sec ∧
      0 + 1 + sec.length ≤ s.params.srcLen.toNat ∧
      sec' = metaSection 5 [7, 8] 0x80000001 (fun _ => 1) (fun k => rep k 9) ∧
      [7, 8].length = ceilDiv 5 4 ∧ 4 * [7, 8].length ≤ byteBufCap t.params ∧
      1 ≤ bucketCap t.params ∧ (∀ k, (rep k 9).length = k * ceilDiv 1 32) ∧
      t.ready 0 0 ∧ t.thissize.toNat = 127 ∧ t.src.get? 0 = some 3 ∧ t.src.holds (0 + 3) sec' ∧
      0 + 3 + sec'.length ≤ t.params.srcLen.toNat :=
  ⟨metaAt 1 (metaSection 0 [] 0 (fun _ => 0) (fun _ => [])),
    metaAt 3 (metaSection 5 [7, 8] 0x80000001 (fun _ => 1) (fun k => rep k 9)), _, _, rfl,
    by decide, by decide, by decide, by decide +kernel, by decide, rfl, by decide, by decide,
    by decide, fun k => by simp [ceilDiv], by decide, by decide, by decide, by decide +kernel,
    by decide⟩

/-- The first byte count and the first bucket count above the capacities 264 and 256 of a build with
pages of 256, and a bucket that the bitmap does not name. -/
theorem witness_FpfMetaCapacityChecks :
    ∃ w x : Work, w.ip < w.s.params.srcLen.toNat ∧ w.s.src.get? w.ip = some 265 ∧
      byteBufCap w.s.params = 264 ∧ 264 < 4 * ceilDiv 265 4 ∧
      x.ip < x.s.params.srcLen.toNat ∧ x.s.src.get? x.ip = some 257 ∧
      bucketCap x.s.params = 256 ∧ (0x80000000 : Word).getLsbD (32 - 1) = true ∧
      (0x80000000 : Word).getLsbD (1 - 1) = false :=
  ⟨(at0 0 [265]).start, (at0 0 [257]).start, by decide⟩

theorem witness_FpfMetaCapacityChecks_bytes :
    ∃ s : State, s.ready 0 0 ∧ s.thissize.toNat = pageSize s.params ∧ 0 < s.params.srcLen.toNat ∧
      s.src.get? 0 = some 1 ∧ 0 + 1 < s.params.srcLen.toNat ∧ s.src.get? (0 + 1) = some 265 ∧
      byteBufCap s.params < 4 * ceilDiv 265 4 := ⟨at0 256 [1, 265], by decide⟩

/-- The lowest bucket of the page is the last of the bitmap. -/
theorem witness_FpfMetaCapacityChecks_bucket :
    ∃ s : State, s.ready 0 0 ∧ s.thissize.toNat = pageSize s.params ∧ 0 < s.params.srcLen.toNat ∧
      s.src.get? 0 = some 1 ∧ (0x80000000 : Word).getLsbD (32 - 1) = true ∧
      (∀ j, j < 32 - 1 → (0x80000000 : Word).getLsbD j = false) ∧
      0 + 1 + 2 < s.params.srcLen.toNat ∧ s.src.get? (0 + 1) = some 0 ∧
      s.src.get? (0 + 1 + 1) = some 0x80000000 ∧ s.src.get? (0 + 1 + 2) = some 257 ∧
      bucketCap s.params < 257 := ⟨at0 256 [1, 0, 0x80000000, 257], by decide⟩

theorem witness_FpfDecpageReversesThePage :
    ∃ (s : State) (vs : List Word), s.ready 0 0 ∧ s.thissize.toNat ≤ pageSize s.params ∧
      vs.length = 128 * (s.thissize.toNat / 128) ∧ vs.length = 128 ∧
      s.src.holds 0 (pageImage (blocksOf vs)) ∧
      0 + (pageImage (blocksOf vs)).length ≤ s.params.srcLen.toNat ∧
      0 + vs.length ≤ s.params.dstLen.toNat := ⟨at0 128 s2.tail, s2Block, by decide +kernel⟩

theorem witness_FpfUncompressReversesTheStream :
    ∃ (s : State) (vs : List Word), s.ready 0 0 ∧ s.inlen.toNat ≠ 0 ∧ vs.length % 128 = 0 ∧
      vs.length = 128 ∧ s.src.holds 0 (streamImage (pageSize s.params) vs) ∧
      0 + (streamImage (pageSize s.params) vs).length ≤ s.params.srcLen.toNat ∧
      0 + vs.length ≤ s.params.dstLen.toNat := ⟨at0 7 s2, s2Block, by decide +kernel⟩

theorem witness_OpdSelectMeetsItsRule :
    ∃ s t : State, s.ready 272 0 ∧ 272 + 128 = s.params.srcLen.toNat ∧ t.ready 273 0 ∧
      t.params.srcLen.toNat + 1 = 273 + 128 := ⟨cur 272 0 (at0 0 []), cur 273 0 (at0 0 []), by decide⟩

/-- One exception under the stand-in coder, and none in an all-zero block, for which that coder has
`S16_EMPTY`. -/
theorem witness_OpdSelectorProperties :
    S16.toy.Empty ∧ s5.length = 128 ∧ (opdSelect S16.toy Scratch.unspecified s5).1 = (4, 1, 32) ∧
      (opdSelect S16.toy Scratch.unspecified (rep 128 0)).1 = (0, 0, 0) :=
  ⟨fun _ => ⟨rfl, rfl⟩, by decide +kernel, by decide +kernel, by decide +kernel⟩

theorem witness_OpdSelectorIsOptimal :
    s5.length = 128 ∧ (opdSelect S16.toy Scratch.unspecified s5).1 = (4, 1, 32) :=
  ⟨by decide +kernel, by decide +kernel⟩

/-- A block every candidate width of which is skipped, so that no coder is asked. -/
abbrev topBlock : List Word := rep 128 0xFFFFFFFF

theorem witness_OpdEncpageWritesTheRecordFormat :
    ∃ (s : State) (vs : List Word), s.ready 0 0 ∧ s.thissize.toNat ≤ 65536 ∧
      vs.length = 128 * (s.thissize.toNat / 128) ∧ vs.length = 128 ∧ s.src.holds 0 vs ∧
      0 + vs.length ≤ s.params.srcLen.toNat ∧
      (∀ blk ∈ blocksOf vs, (optPayload Config.s16 blk).length ≤ 65535) ∧
      0 + (optImage Config.s16 (blocksOf vs)).length ≤ s.params.dstLen.toNat :=
  ⟨at0 128 topBlock, topBlock, by decide +kernel⟩

theorem witness_OpdCompressWritesTheStreamFormat :
    ∃ (s : State) (vs : List Word), s.ready 0 0 ∧ vs.length = 128 * (s.inlen.toNat / 128) ∧
      128 ≤ s.inlen.toNat ∧ s.src.holds 0 vs ∧ 0 + vs.length ≤ s.params.srcLen.toNat ∧
      (∀ blk ∈ blocksOf vs, (optPayload Config.s16 blk).length ≤ 65535) ∧
      0 + (optStream Config.s16 vs).length ≤ s.params.dstLen.toNat :=
  ⟨at0 128 topBlock, topBlock, by decide +kernel⟩

/-- A coder whose every payload has `n` words. -/
def longCoder (n : Nat) : S16 := { S16.toy with compress := fun _ _ => List.replicate n 0 }

theorem longCoder_payload (n : Nat) (blk : List Word) (h : 0 < (optSelected (longCoder n) blk).2.1) :
    (optPayload (longCoder n) blk).length = n := by
  simp only [optPayload, gt_iff_lt, h, if_true]
  exact List.length_replicate

theorem witness_OpdBlockOverlongPayloadFaults :
    ∃ (S : S16) (w : Work) (blk : List Word), blk.length = 128 ∧ w.s.src.holds w.ip blk ∧
      w.ip + 128 ≤ w.s.params.srcLen.toNat ∧ 65535 < (optPayload S blk).length := by
  refine ⟨longCoder 65536, (at0 0 s5).start, s5, by decide +kernel, by decide +kernel, by decide, ?_⟩
  rw [longCoder_payload 65536 s5 (by decide +kernel)]
  decide

/-- A record of width 1: four words. -/
theorem witness_OpdDecpageOfPlainRecords :
    ∃ (s : State) (rs : List (Nat × List Word)), s.ready 0 0 ∧ s.thissize.toNat ≤ 65536 ∧
      rs.length = s.thissize.toNat / 128 ∧ rs.length = 1 ∧ (∀ r ∈ rs, plainOk r) ∧
      s.src.holds 0 (rs.flatMap plainRecord) ∧
      0 + (rs.flatMap plainRecord).length ≤ s.params.srcLen.toNat ∧
      0 + 128 * rs.length ≤ s.params.dstLen.toNat :=
  ⟨at0 128 [1, 5, 6, 7, 8], [(1, [5, 6, 7, 8])], by decide⟩

theorem witness_OpdUncompressOfPlainRecords :
    ∃ (s : State) (rs : List (Nat × List Word)), s.ready 0 0 ∧ s.inlen.toNat ≠ 0 ∧
      128 * rs.length < 2 ^ 32 ∧ rs.length = 1 ∧ (∀ r ∈ rs, plainOk r) ∧
      s.src.holds 0 (BitVec.ofNat 32 (128 * rs.length) :: rs.flatMap plainRecord) ∧
      0 + (1 + (rs.flatMap plainRecord).length) ≤ s.params.srcLen.toNat ∧
      0 + 128 * rs.length ≤ s.params.dstLen.toNat :=
  ⟨at0 6 [128, 1, 5, 6, 7, 8], [(1, [5, 6, 7, 8])], by decide⟩

/-- One header for each of the four checks: O1, 129 exceptions, O2, O3. -/
theorem witness_OpdHeaderChecks :
    ∃ w x y z : Work,
      (w.ip < w.s.params.srcLen.toNat ∧ w.s.src.get? w.ip = some 0x00000011) ∧
      (x.ip < x.s.params.srcLen.toNat ∧ x.s.src.get? x.ip = some 0x00008104) ∧
      (y.ip < y.s.params.srcLen.toNat ∧ y.s.src.get? y.ip = some 0x00010003) ∧
      (z.ip < z.s.params.srcLen.toNat ∧ z.s.src.get? z.ip = some 0x00020110) :=
  ⟨(at0 0 [0x00000011]).start, (at0 0 [0x00008104]).start, (at0 0 [0x00010003]).start,
    (at0 0 [0x00020110]).start, by decide⟩

/-- A working state at output position 272 with the payload 6 for position `pos`. -/
def patchAt (pos : Word) : Work :=
  ⟨{ at0 0 [] with
      scratch := { Scratch.unspecified with eb := [(0, 6), (1, pos)] }
      dst := Arr.cells 272 (rep 128 1) }, 0, 272⟩

/-- The last position of a block, at the last word of `DST`; the first position that is refused; and
the first word `DST` has not. -/
theorem witness_OpdPatchOrsThePayload :
    ∃ (w u y : Work) (v x : Word), w.s.scratch.eb.get? (1 + 0) = some 127 ∧
      w.s.scratch.eb.get? 0 = some v ∧ w.op + 127 + 1 = w.s.params.dstLen.toNat ∧
      w.s.dst.get? (w.op + 127) = some x ∧
      u.s.scratch.eb.get? (1 + 0) = some 128 ∧ u.s.scratch.eb.get? 0 = some v ∧
      y.s.scratch.eb.get? (1 + 0) = some 127 ∧ y.s.scratch.eb.get? 0 = some v ∧
      y.op + 127 = y.s.params.dstLen.toNat :=
  ⟨patchAt 127, patchAt 128, { patchAt 127 with op := 273 }, 6, 1, by decide⟩

/-- A block without a payload; payload words of which the last lies outside `SRC`; a payload the
stand-in coder fails on; and one it does not. -/
theorem witness_OpdPayloadIsDecodedOrFaults :
    ∃ (w x y : Work) (r : Vector Word (2 * 1)), w.s.params.srcLen.toNat + 1 = w.ip + 2 ∧
      x.ip + 1 ≤ x.s.params.srcLen.toNat ∧ x.s.src.holds x.ip [6] ∧
      S16.toy.uncompress [6] 1 (2 * 1) = none ∧
      y.ip + 2 = y.s.params.srcLen.toNat ∧ y.s.src.holds y.ip [6, 127] ∧
      S16.toy.uncompress [6, 127] 2 (2 * 1) = some r :=
  ⟨(cur 399 0 (at0 0 [])).start, (at0 0 [6]).start,
    (cur 398 0 { at0 0 [] with src := [(398, 6), (399, 127)] }).start, #v[6, 127], by decide⟩

/-- One exception at the greatest width index that admits one, whose payload of one word the stand-in
coder fails on. -/
theorem witness_OpdPayloadIsDecodedOrFaults_page :
    ∃ (s : State) (h : Word), s.ready 0 0 ∧ s.thissize.toNat = 128 ∧ s.src.get? 0 = some h ∧
      (h.extractLsb' 0 8).toNat = 15 ∧ (h.extractLsb' 8 8).toNat = 1 ∧
      [(6 : Word)].length = (h.extractLsb' 16 16).toNat ∧ s.src.holds (0 + 1) [6] ∧
      0 + 1 + (h.extractLsb' 16 16).toNat ≤ s.params.srcLen.toNat ∧
      S16.toy.uncompress [6] (h.extractLsb' 16 16).toNat (2 * (h.extractLsb' 8 8).toNat) = none :=
  ⟨at0 128 [0x0001010F, 6], 0x0001010F, by decide⟩

/-- The stand-in coder has the two named properties. -/
theorem toy_named_properties : S16.toy.Roundtrip ∧ S16.toy.Len := by
  refine ⟨fun n _ xs hx _ => ?_, fun n _ xs hx _ => ?_⟩
  · simp [S16.toy, hx, List.take_of_length_le]
  · simp [S16.toy]

/-- A page of one block with one exception. -/
theorem witness_OpdDecpageReversesTheRecords :
    ∃ (S : S16) (s : State) (vs : List Word), (S.Roundtrip ∧ S.Len) ∧ s.ready 0 0 ∧
      s.thissize.toNat ≤ 65536 ∧ vs.length = 128 * (s.thissize.toNat / 128) ∧ vs.length = 128 ∧
      s.src.holds 0 (optImage S (blocksOf vs)) ∧
      0 + (optImage S (blocksOf vs)).length ≤ s.params.srcLen.toNat ∧
      0 + vs.length ≤ s.params.dstLen.toNat :=
  ⟨S16.toy, at0 128 s5Stream.tail, s5, toy_named_properties, by decide +kernel⟩

theorem witness_OpdUncompressReversesTheStream :
    ∃ (S : S16) (s : State) (vs : List Word), (S.Roundtrip ∧ S.Len) ∧ s.ready 0 0 ∧
      s.inlen.toNat ≠ 0 ∧ vs.length % 128 = 0 ∧ vs.length = 128 ∧
      s.src.holds 0 (optStream S vs) ∧
      0 + (optStream S vs).length ≤ s.params.srcLen.toNat ∧
      0 + vs.length ≤ s.params.dstLen.toNat :=
  ⟨S16.toy, at0 20 s5Stream, s5, toy_named_properties, by decide +kernel⟩

end Sys2Proof.Tests
end

section
/-! PROOFS. Words and widths: how `bitlen`, `low` and `high` cut a word (00_scope.md R12, R14). -/

namespace Sys2Proof.Machine

/-- Settles O25, by going through the seventeen widths. -/
theorem widthTableAndItsInverse : Obligations.WidthTableAndItsInverse := by
  unfold Obligations.WidthTableAndItsInverse
  decide

/-- A word fits `b` bits exactly if it is below `2^b`. -/
theorem bitlen_le_iff (v : Word) (b : Nat) : bitlen v ≤ b ↔ v.toNat < 2 ^ b := by
  unfold bitlen
  split
  · next hv => simp [hv]
  · next hv => rw [Nat.add_one_le_iff, Nat.log2_lt hv]

/-- An exception at width `b` is a value of more than `b` bits (R122). -/
theorem high_ne_zero_iff (v : Word) (b : Nat) : high v b ≠ 0 ↔ b < bitlen v := by
  rw [← not_le, bitlen_le_iff, high, Ne, Nat.div_eq_zero_iff]
  simp

theorem bitlen_le_32 (v : Word) : bitlen v ≤ 32 := (bitlen_le_iff v 32).2 v.isLt

theorem low_le_toNat (v : Word) (b : Nat) : low v b ≤ v.toNat := Nat.mod_le _ _

theorem high_le_toNat (v : Word) (b : Nat) : high v b ≤ v.toNat := Nat.div_le_self _ _

theorem low_lt (v : Word) (b : Nat) : low v b < 2 ^ b := Nat.mod_lt _ (Nat.two_pow_pos b)

/-- The high part of a word of at most `b + k` bits has at most `k`. -/
theorem high_lt {v : Word} {b k : Nat} (hv : bitlen v ≤ b + k) : high v b < 2 ^ k := by
  rw [high, Nat.div_lt_iff_lt_mul (Nat.two_pow_pos b), ← pow_add, Nat.add_comm]
  exact (bitlen_le_iff v _).1 hv

@[simp] theorem toNat_ofNat_low (v : Word) (b : Nat) : (BitVec.ofNat 32 (low v b)).toNat = low v b :=
  BitVec.toNat_ofNat .. |>.trans (Nat.mod_eq_of_lt ((low_le_toNat v b).trans_lt v.isLt))

@[simp] theorem toNat_ofNat_high (v : Word) (b : Nat) :
    (BitVec.ofNat 32 (high v b)).toNat = high v b :=
  BitVec.toNat_ofNat .. |>.trans (Nat.mod_eq_of_lt ((high_le_toNat v b).trans_lt v.isLt))

/-- Cutting to `b` bits twice is cutting once. -/
@[simp] theorem low_ofNat_low (v : Word) (b : Nat) : low (BitVec.ofNat 32 (low v b)) b = low v b := by
  rw [low, toNat_ofNat_low, low, Nat.mod_mod]

/-- A word of at most `b` bits is not changed by the cut to `b` bits. -/
theorem ofNat_low_of_lt {v : Word} {b : Nat} (h : v.toNat < 2 ^ b) : BitVec.ofNat 32 (low v b) = v :=
  BitVec.eq_of_toNat_eq (by rw [toNat_ofNat_low, low, Nat.mod_eq_of_lt h])

/-- A value without a high part is its low part. -/
theorem ofNat_low_of_high_eq_zero {v : Word} {b : Nat} (h : high v b = 0) :
    BitVec.ofNat 32 (low v b) = v :=
  ofNat_low_of_lt ((bitlen_le_iff v b).1 (not_lt.1 fun hb => (high_ne_zero_iff v b).2 hb h))

/-- Every word is its low part with its high part above it (R14). -/
theorem low_or_shl32_high (v : Word) (b : Nat) :
    BitVec.ofNat 32 (low v b) ||| shl32 (BitVec.ofNat 32 (high v b)) b = v := by
  have hsplit : 2 ^ b * (v.toNat / 2 ^ b) + v.toNat % 2 ^ b = v.toNat := Nat.div_add_mod ..
  have hshl : (shl32 (BitVec.ofNat 32 (high v b)) b).toNat = 2 ^ b * (v.toNat / 2 ^ b) := by
    rw [shl32, toNat_ofNat_high, high, BitVec.toNat_ofNat, Nat.mul_comm, Nat.mod_eq_of_lt]
    have := v.isLt
    omega
  refine BitVec.eq_of_toNat_eq ?_
  rw [BitVec.toNat_or, toNat_ofNat_low, hshl, Nat.or_comm, low,
    ← Nat.two_pow_add_eq_or_of_lt (Nat.mod_lt _ (Nat.two_pow_pos b)), hsplit]

/-- Settles O26, from the laws of the low part, the high part and `bitlen`. -/
theorem lowAndHighPartsMakeTheWord : Obligations.LowAndHighPartsMakeTheWord :=
  fun v b _ => ⟨(low_or_shl32_high v b).symm, bitlen_le_iff v b, high_ne_zero_iff v b⟩

end Sys2Proof.Machine
end

section
/-! PROOFS. The packer: digits of bit strings, and unpacking what was packed (40_bitpacking.md R101
to R103). -/

namespace Sys2Proof.Machine

/-- A bit string of digits below `2^w` is as long as its digits together. -/
theorem bitString_lt {w : Nat} {ds : List Nat} (h : ∀ d ∈ ds, d < 2 ^ w) :
    bitString w ds < 2 ^ (w * ds.length) := by
  induction ds with
  | nil => simp [bitString]
  | cons d ds ih =>
    have hd := h d (by simp)
    have hds := ih fun x hx => h x (by simp [hx])
    calc d + 2 ^ w * bitString w ds < 2 ^ w * (bitString w ds + 1) := by rw [Nat.mul_add_one]; omega
      _ ≤ 2 ^ w * 2 ^ (w * ds.length) := Nat.mul_le_mul_left _ hds
      _ = 2 ^ (w * (d :: ds).length) := by rw [← pow_add, List.length_cons, Nat.mul_add_one, Nat.add_comm]

/-- Field `i` of a bit string is digit `i`. -/
theorem bitString_field {w : Nat} {ds : List Nat} (h : ∀ d ∈ ds, d < 2 ^ w) (i : Nat) :
    bitString w ds / 2 ^ (i * w) % 2 ^ w = ds.getD i 0 := by
  induction ds generalizing i with
  | nil => simp [bitString]
  | cons d ds ih =>
    have hd := h d (by simp)
    cases i with
    | zero => simp [bitString, Nat.mod_eq_of_lt hd]
    | succ i =>
      have hrest : (d + 2 ^ w * bitString w ds) / 2 ^ w = bitString w ds := by
        rw [Nat.add_mul_div_left _ _ (Nat.two_pow_pos w), Nat.div_eq_of_lt hd, Nat.zero_add]
      rw [bitString, Nat.succ_mul, Nat.add_comm (i * w), pow_add, ← Nat.div_div_eq_div_mul, hrest,
        ih fun x hx => h x (by simp [hx]), List.getD_cons_succ]

/-- The first `n` digits of `S` make `S` cut to their length. -/
theorem bitString_digits (k n S : Nat) :
    bitString k ((List.range n).map fun j => S / 2 ^ (k * j) % 2 ^ k) = S % 2 ^ (k * n) := by
  induction n generalizing S with
  | zero => simp [bitString, Nat.mod_one]
  | succ n ih =>
    have htail : (List.range n).map (fun j => S / 2 ^ (k * (j + 1)) % 2 ^ k) =
        (List.range n).map fun j => S / 2 ^ k / 2 ^ (k * j) % 2 ^ k :=
      List.map_congr_left fun j _ => by
        rw [Nat.div_div_eq_div_mul, ← pow_add, Nat.mul_add_one, Nat.add_comm]
    rw [List.range_succ_eq_map, List.map_cons, List.map_map, bitString, Nat.mul_add_one, Nat.add_comm _ k,
      pow_add, Nat.mod_mul, ← ih (S / 2 ^ k), ← htail]
    simp [Function.comp_def]

@[simp] theorem pack32_length (v : List Word) (w : Nat) : (pack32 v w).length = w := by simp [pack32]

@[simp] theorem unpack32_length (o : List Word) (w : Nat) : (unpack32 o w).length = 32 := by
  simp [unpack32]

/-- A list is the list of its elements. -/
theorem map_range_getD {α β : Type} (f : α → β) (l : List α) (d : α) {n : Nat} (h : l.length = n) :
    (List.range n).map (fun i => f (l.getD i d)) = l.map f := by
  subst h
  refine List.ext_getElem (by simp) fun i h1 h2 => ?_
  have hi : i < l.length := by simpa using h2
  simp [hi]

/-- Unpacking what was packed gives the values cut to the width (R103). -/
theorem unpack32_pack32 {v : List Word} (hv : v.length = 32) (w : Nat) :
    unpack32 (pack32 v w) w = v.map fun x => BitVec.ofNat 32 (low x w) := by
  have hd : ∀ d ∈ v.map (low · w), d < 2 ^ w := by
    simp only [List.mem_map, forall_exists_index, and_imp, forall_apply_eq_imp_iff₂]
    exact fun x _ => low_lt x w
  have hS : bitString 32 ((pack32 v w).map BitVec.toNat) = bitString w (v.map (low · w)) := by
    have hlt := bitString_lt hd
    rw [List.length_map, hv, Nat.mul_comm] at hlt
    have hdigits : (pack32 v w).map BitVec.toNat = (List.range w).map fun j =>
        bitString w (v.map (low · w)) / 2 ^ (32 * j) % 2 ^ 32 := by
      simp [pack32, Function.comp_def]
    rw [hdigits, bitString_digits, Nat.mod_eq_of_lt hlt]
  have hl : (v.map (low · w)).length = 32 := by simpa using hv
  simp only [unpack32, hS, bitString_field hd]
  rw [map_range_getD (BitVec.ofNat 32) _ 0 hl, List.map_map]
  rfl

/-- Unpacking what was packed gives the values, where they fit the width (R103). -/
theorem unpack32_pack32_of_lt {v : List Word} (hv : v.length = 32) {w : Nat}
    (h : ∀ x ∈ v, x.toNat < 2 ^ w) : unpack32 (pack32 v w) w = v := by
  rw [unpack32_pack32 hv]
  exact (List.map_congr_left fun x hx => ofNat_low_of_lt (h x hx)).trans (List.map_id v)

end Sys2Proof.Machine
end

section
/-! PROOFS. What arrays hold, what a running command still has to read, and what it has written. -/

namespace Sys2Proof.Machine

section
variable {α : Type}

/-- The array holds the elements of a list, all specified, from index `a` on: `Memory.holds` for any
array. -/
def Arr.Holds (m : Arr α) (a : Nat) (vs : List α) : Prop :=
  ∀ j, j < vs.length → m.get? (a + j) = vs[j]?

@[simp] theorem holds_nil (m : Arr α) (a : Nat) : Arr.Holds m a [] := by simp [Arr.Holds]

theorem holds_cons {m : Arr α} {a : Nat} {v : α} {vs : List α} :
    Arr.Holds m a (v :: vs) ↔ m.get? a = some v ∧ Arr.Holds m (a + 1) vs := by
  constructor
  · intro h
    refine ⟨by simpa using h 0 (by simp), fun j hj => ?_⟩
    simpa [Nat.add_assoc, Nat.add_comm 1 j] using h (j + 1) (by simpa using hj)
  · rintro ⟨h0, h⟩ j hj
    cases j with
    | zero => simpa using h0
    | succ j => simpa [Nat.add_assoc, Nat.add_comm 1 j] using h j (by simpa using hj)

theorem holds_append {m : Arr α} {a : Nat} {us vs : List α} :
    Arr.Holds m a (us ++ vs) ↔ Arr.Holds m a us ∧ Arr.Holds m (a + us.length) vs := by
  induction us generalizing a with
  | nil => simp
  | cons u us ih =>
    simp [holds_cons, ih, and_assoc, Nat.add_assoc, Nat.add_comm 1]

/-- What an array holds depends on the reads within that range alone. -/
theorem Arr.Holds.congr {m m' : Arr α} {a : Nat} {vs : List α} (h : Arr.Holds m a vs)
    (hm : ∀ i, a ≤ i → i < a + vs.length → m'.get? i = m.get? i) : Arr.Holds m' a vs :=
  fun j hj => (hm (a + j) (by omega) (by omega)).trans (h j hj)

theorem holds_write (m : Arr α) (a : Nat) (vs : List α) : Arr.Holds (m.write a vs) a vs := by
  intro j hj
  rw [get?_write, if_pos ⟨by omega, by omega⟩, Nat.add_sub_cancel_left]

/-- Writing right behind what an array holds extends it. -/
theorem Arr.Holds.write_append {m : Arr α} {a : Nat} {us : List α} (h : Arr.Holds m a us) (vs : List α) :
    Arr.Holds (m.write (a + us.length) vs) a (us ++ vs) :=
  holds_append.2 ⟨h.congr fun i _ hi => by rw [get?_write, if_neg (by omega)], holds_write m _ vs⟩

/-- A write changes no element outside its range. -/
theorem get?_write_outside (m : Arr α) {a i : Nat} {vs : List α} (h : i < a ∨ a + vs.length ≤ i) :
    (m.write a vs).get? i = m.get? i := by
  rw [get?_write, if_neg (by omega)]

theorem Arr.Holds.get? {m : Arr α} {a j : Nat} {vs : List α} (h : Arr.Holds m a vs)
    (hj : j < vs.length) : m.get? (a + j) = some vs[j] := by
  rw [h j hj, List.getElem?_eq_getElem hj]

end

/-- `SRC` holds the words of a list from index `a` on, and has that many words. -/
structure State.Sees (s : State) (a : Nat) (ws : List Word) : Prop where
  holds : Arr.Holds s.src a ws
  inSrc : a + ws.length ≤ s.params.srcLen.toNat

theorem sees_append {s : State} {a : Nat} {us vs : List Word} :
    s.Sees a (us ++ vs) ↔ s.Sees a us ∧ s.Sees (a + us.length) vs := by
  constructor
  · rintro ⟨h, hb⟩
    rw [List.length_append] at hb
    exact ⟨⟨(holds_append.1 h).1, by omega⟩, (holds_append.1 h).2, by omega⟩
  · rintro ⟨⟨h1, _⟩, h2, hb⟩
    exact ⟨holds_append.2 ⟨h1, h2⟩, by rw [List.length_append]; omega⟩

theorem sees_cons {s : State} {a : Nat} {x : Word} {ws : List Word} (h : s.Sees a (x :: ws)) :
    s.Sees a [x] ∧ s.Sees (a + 1) ws :=
  (sees_append (us := [x])).1 h

/-- Seeing words depends on `SRC` and its length alone. -/
theorem State.Sees.congr {s t : State} {a : Nat} {ws : List Word} (h : s.Sees a ws)
    (hsrc : t.src = s.src) (hp : t.params = s.params) : t.Sees a ws :=
  ⟨hsrc ▸ h.holds, hp ▸ h.inSrc⟩

/-- The working state after the next `n` words of `SRC` are taken. -/
def Work.took (w : Work) (n : Nat) : Work := ⟨w.s.draw n, w.ip + n, w.op⟩

@[simp] theorem took_ip (w : Work) (n : Nat) : (w.took n).ip = w.ip + n := rfl
@[simp] theorem took_op (w : Work) (n : Nat) : (w.took n).op = w.op := rfl
@[simp] theorem took_params (w : Work) (n : Nat) : (w.took n).s.params = w.s.params := rfl
@[simp] theorem took_scratch (w : Work) (n : Nat) : (w.took n).s.scratch = w.s.scratch := rfl

theorem State.Sees.took {w : Work} {a : Nat} {ws : List Word} (h : w.s.Sees a ws) (n : Nat) :
    (w.took n).s.Sees a ws := h.congr rfl rfl

/-- Taking words that `SRC` holds. -/
theorem takeSrc_of_sees {w : Work} {ws : List Word} (h : w.s.Sees w.ip ws) :
    w.takeSrc ws.length = .ok (ws, w.took ws.length) :=
  takeSrc_eq_ok.2 ⟨.inr h.inSrc, by rw [readWords_of_holds _ _ _ _ h.holds]; rfl⟩

theorem readSrc1_of_sees {w : Work} {a : Nat} {x : Word} (h : w.s.Sees a [x]) :
    w.readSrc1 a = .ok (x, { w with s := w.s.draw 1 }) := by
  refine readSrc1_eq_ok.2 ⟨h.inSrc, ?_⟩
  rw [(holds_cons.1 h.holds).1]
  rfl

/-- Taking one word that `SRC` holds. -/
theorem takeSrc1_of_sees {w : Work} {x : Word} (h : w.s.Sees w.ip [x]) :
    w.takeSrc1 = .ok (x, w.took 1) := by
  rw [Work.takeSrc1, readSrc1_of_sees h]
  rfl

/-- From `w` to `w'` a running command wrote the words `out` to `DST` from index `a` on, and nothing
else of the state changed but scratch and the count of free values. -/
structure Work.Wrote (w w' : Work) (a : Nat) (out : List Word) : Prop where
  state : w'.s = { w.s with dst := w'.s.dst, scratch := w'.s.scratch, tick := w'.s.tick }
  written : Arr.Holds w'.s.dst a out
  kept : w.s.dst.sameOutside w'.s.dst a out.length

section
variable {w w1 w2 : Work} {a : Nat} {out out' : List Word}

theorem Work.Wrote.params (h : w.Wrote w1 a out) : w1.s.params = w.s.params := by rw [h.state]

theorem Work.Wrote.src (h : w.Wrote w1 a out) : w1.s.src = w.s.src := by rw [h.state]

theorem Work.Wrote.sees (h : w.Wrote w1 a out) {i : Nat} {ws : List Word} (hs : w.s.Sees i ws) :
    w1.s.Sees i ws := hs.congr h.src h.params

/-- A change of scratch, positions or the count of free values writes nothing. -/
theorem Work.Wrote.quiet (h : w1.s = { w.s with scratch := w1.s.scratch, tick := w1.s.tick }) (a : Nat) :
    w.Wrote w1 a [] where
  state := by rw [h]
  written := holds_nil _ _
  kept := fun _ _ => by rw [h]

theorem Work.Wrote.refl (w : Work) (a : Nat) : w.Wrote w a [] := .quiet rfl a

/-- Writing right behind what was written extends it. -/
theorem Work.Wrote.append (h : w.Wrote w1 a out) (h' : w1.Wrote w2 (a + out.length) out') :
    w.Wrote w2 a (out ++ out') where
  state := h'.state.trans (by rw [h.state])
  written := holds_append.2
    ⟨h.written.congr fun i _ hi => h'.kept i (.inl hi), h'.written⟩
  kept := fun i hi => by
    rw [List.length_append] at hi
    exact (h'.kept i (by omega)).trans (h.kept i (by omega))

/-- What writes nothing may come before a write. -/
theorem Work.Wrote.after_quiet {b : Nat} (h : w.Wrote w1 b []) (h' : w1.Wrote w2 a out) :
    w.Wrote w2 a out where
  state := h'.state.trans (by rw [h.state])
  written := h'.written
  kept := fun i hi => (h'.kept i hi).trans (h.kept i (by simp; omega))

/-- What writes nothing may follow a write. -/
theorem Work.Wrote.then_quiet (h : w.Wrote w1 a out)
    (h' : w2.s = { w1.s with scratch := w2.s.scratch, tick := w2.s.tick }) : w.Wrote w2 a out := by
  simpa using h.append (.quiet h' _)

theorem Work.Wrote.took (h : w.Wrote w1 a out) (n : Nat) : w.Wrote (w1.took n) a out := h.then_quiet rfl

theorem Work.Wrote.onScratch (h : w.Wrote w1 a out) (f : Scratch → Scratch) :
    w.Wrote (w1.onScratch f) a out := h.then_quiet rfl

/-- Putting words into room that `DST` has, right behind what was written. -/
theorem Work.Wrote.writeDst (h : w.Wrote w1 a out) {ws : List Word}
    (hroom : a + out.length + ws.length ≤ w.s.params.dstLen.toNat) :
    ∃ w2, w1.writeDst (a + out.length) ws = .ok w2 ∧ w.Wrote w2 a (out ++ ws) ∧
      w2.ip = w1.ip ∧ w2.op = w1.op ∧ w2.s.scratch = w1.s.scratch :=
  ⟨_, writeDst_eq_ok.2 ⟨.inr (by rwa [h.params]), rfl⟩,
    h.append ⟨rfl, holds_write _ _ _, fun _ hi => get?_write_outside _ hi⟩, rfl, rfl, rfl⟩

/-- The OR into a word already written (43_fastpfor_decode.md R177). -/
theorem Work.Wrote.orDst (h : w.Wrote w1 a out) {p : Nat} {x : Word} (hp : p < out.length)
    (hroom : a + out.length ≤ w.s.params.dstLen.toNat) :
    ∃ w2, orDst (a + p) x w1 = .ok w2 ∧ w.Wrote w2 a (out.set p (out[p] ||| x)) ∧
      w2.ip = w1.ip ∧ w2.op = w1.op ∧ w2.s.scratch = w1.s.scratch := by
  refine ⟨_, orDst_eq_ok.2 ⟨by rw [h.params]; omega, rfl⟩, ⟨?_, ?_, ?_⟩, rfl, rfl, rfl⟩
  · rw [h.state]; rfl
  · intro j hj
    rw [List.length_set] at hj
    simp only [get?_write_one, h.written.get? hp, drawn, List.getElem?_set]
    by_cases hjp : j = p
    · simp [hjp, hp]
    · rw [if_neg (by omega), if_neg (by omega), h.written j hj]
  · intro i hi
    rw [List.length_set] at hi
    simp only [get?_write_one]
    rw [if_neg (by omega)]
    exact h.kept i hi

end

/-! ### Loops that complete -/

/-- A loop over `a, a+1, ..., a+n-1` completes where each round does from what the round before
established. -/
theorem forEach_range'_ok {body : Nat → Work → Except Trap Work} (P : Nat → Work → Prop) (n : Nat) :
    ∀ (a : Nat) (w : Work), P a w →
      (∀ i v, a ≤ i → i < a + n → P i v → ∃ v', body i v = .ok v' ∧ P (i + 1) v') →
      ∃ w', forEach body (List.range' a n) w = .ok w' ∧ P (a + n) w' := by
  induction n with
  | zero => exact fun a w h _ => ⟨w, rfl, h⟩
  | succ n ih =>
    intro a w h step
    obtain ⟨v, hv, hP⟩ := step a w le_rfl (by omega) h
    obtain ⟨w', hw', hP'⟩ := ih (a + 1) v hP fun i u h1 h2 => step i u (by omega) (by omega)
    refine ⟨w', ?_, by rwa [Nat.add_assoc, Nat.add_comm 1] at hP'⟩
    rw [List.range'_succ, forEach_cons, hv, ok_bind, hw']

theorem forEach_range_ok {body : Nat → Work → Except Trap Work} (P : Nat → Work → Prop) (n : Nat)
    (w : Work) (h : P 0 w) (step : ∀ i v, i < n → P i v → ∃ v', body i v = .ok v' ∧ P (i + 1) v') :
    ∃ w', forEach body (List.range n) w = .ok w' ∧ P n w' := by
  rw [List.range_eq_range']
  simpa using forEach_range'_ok P n 0 w h fun i v _ hi => step i v (by omega)

/-- `n` rounds complete where each round does from what the round before established. -/
theorem iter_ok {body : Work → Except Trap Work} (P : Nat → Work → Prop) (n : Nat) (w : Work)
    (h : P 0 w) (step : ∀ i v, i < n → P i v → ∃ v', body v = .ok v' ∧ P (i + 1) v') :
    ∃ w', iter body n w = .ok w' ∧ P n w' := by
  have key : ∀ k i v, i + k = n → P i v → ∃ w', iter body k v = .ok w' ∧ P n w' := by
    intro k
    induction k with
    | zero => rintro i v rfl hv; exact ⟨v, rfl, hv⟩
    | succ k ih =>
      intro i v hi hv
      obtain ⟨u, hu, hP⟩ := step i v (by omega) hv
      obtain ⟨w', hw', hP'⟩ := ih (i + 1) u (by omega) hP
      exact ⟨w', by rw [iter_succ, hu, ok_bind, hw'], hP'⟩
  exact key n 0 w (Nat.zero_add n) h

end Sys2Proof.Machine
end

section
/-! PROOFS. Blocks and pages of a list, the exceptions of a block, and a block with some of its
exceptions merged (30_encoding.md R81, R88, R90). -/

namespace Sys2Proof.Machine

/-! ### Lists in pieces of one size -/

section
variable {α : Type}

/-- The first `n` pieces of size `c` are the first `c * n` elements. -/
theorem flatMap_pieces (l : List α) (c n : Nat) :
    (List.range n).flatMap (fun j => (l.drop (c * j)).take c) = l.take (c * n) := by
  induction n with
  | zero => simp
  | succ n ih => rw [List.range_succ, List.flatMap_append, ih, Nat.mul_add_one, List.take_add]; simp

/-- Counting in pieces of size `c` is counting. -/
theorem flatMap_range_pieces (f : Nat → α) (c n : Nat) :
    (List.range n).flatMap (fun g => (List.range c).map fun i => f (c * g + i)) =
      (List.range (c * n)).map f := by
  induction n with
  | zero => simp
  | succ n ih =>
    rw [List.range_succ, List.flatMap_append, ih, Nat.mul_add_one, List.range_add, List.map_append,
      List.map_map]
    simp [Function.comp_def]

/-- An array that holds a list padded at its end holds the list. -/
theorem Arr.Holds.of_padded {m : Arr α} {a n : Nat} {vs : List α} {d : α}
    (h : Arr.Holds m a ((List.range n).map fun i => vs.getD i d)) (hn : vs.length ≤ n) :
    Arr.Holds m a vs := by
  intro j hj
  rw [h j (by simp; omega), List.getElem?_map, List.getElem?_range (by omega)]
  simp [hj]

theorem length_flatMap_const {β : Type} (l : List α) {f : α → List β} {c : Nat}
    (h : ∀ x ∈ l, (f x).length = c) : (l.flatMap f).length = l.length * c := by
  rw [List.length_flatMap, List.map_congr_left h]
  simp

theorem range'_sub_cons {i n : Nat} (h : i < n) :
    List.range' i (n - i) = i :: List.range' (i + 1) (n - (i + 1)) := by
  rw [show n - i = n - (i + 1) + 1 by omega, List.range'_succ]

end

/-! ### Blocks and pages -/

theorem length_of_mem_blocksOf {vs blk : List Word} (h : blk ∈ blocksOf vs) : blk.length = 128 := by
  obtain ⟨j, hj, rfl⟩ := List.mem_map.1 h
  have := List.mem_range.1 hj
  simp only [List.length_take, List.length_drop]
  omega

@[simp] theorem length_blocksOf (vs : List Word) : (blocksOf vs).length = vs.length / 128 := by
  simp [blocksOf]

/-- The blocks of a whole number of blocks make the list. -/
theorem flatten_blocksOf {vs : List Word} (h : vs.length % 128 = 0) : (blocksOf vs).flatten = vs := by
  rw [blocksOf, ← List.flatMap_def, flatMap_pieces, List.take_of_length_le (by omega)]

theorem blocksOf_append {us vs : List Word} (h : us.length % 128 = 0) :
    blocksOf (us ++ vs) = blocksOf us ++ blocksOf vs := by
  have hus : us.length = 128 * (us.length / 128) := by omega
  have hlen : (us ++ vs).length / 128 = us.length / 128 + vs.length / 128 := by
    rw [List.length_append]; omega
  simp only [blocksOf, hlen, List.range_add, List.map_append, List.map_map]
  congr 1
  · refine List.map_congr_left fun j hj => ?_
    have := List.mem_range.1 hj
    rw [List.drop_append_of_le_length (by omega), List.take_append_of_le_length (by simp; omega)]
  · refine List.map_congr_left fun j _ => ?_
    rw [Function.comp_apply, Nat.mul_add, ← hus, ← List.drop_drop, List.drop_left]

theorem ceilDiv_zero {size : Nat} (h : 0 < size) : ceilDiv 0 size = 0 :=
  Nat.div_eq_of_lt (by omega)

/-- One page fewer is left after a page is taken. -/
theorem ceilDiv_eq_succ {n size : Nat} (h : 0 < size) (hn : 0 < n) :
    ceilDiv n size = ceilDiv (n - size) size + 1 := by
  unfold ceilDiv
  by_cases hle : size ≤ n
  · rw [show n + size - 1 = n - size + size - 1 + size by omega, Nat.add_div_right _ h]
  · rw [show n - size = 0 by omega, show n + size - 1 = n - 1 + size by omega, Nat.add_div_right _ h,
      Nat.div_eq_of_lt (show n - 1 < size by omega), Nat.div_eq_of_lt (show 0 + size - 1 < size by omega)]

theorem le_mul_ceilDiv (n : Nat) {d : Nat} (h : 0 < d) : n ≤ d * ceilDiv n d := by
  have h1 := Nat.div_add_mod (n + d - 1) d
  have h2 := Nat.mod_lt (n + d - 1) h
  unfold ceilDiv
  omega

theorem pagesOf_nil {size : Nat} (h : 0 < size) : pagesOf size [] = [] := by
  simp [pagesOf, ceilDiv_zero h]

theorem pagesOf_eq_cons {size : Nat} {vs : List Word} (h : 0 < size) (hv : 0 < vs.length) :
    pagesOf size vs = vs.take size :: pagesOf size (vs.drop size) := by
  simp [pagesOf, ceilDiv_eq_succ h hv, List.range_succ_eq_map, Function.comp_def, Nat.mul_add,
    Nat.add_comm size]

/-- Cutting a list into pages leaves its blocks as they are. -/
theorem flatMap_blocksOf_pagesOf {size : Nat} (hsize : 0 < size) (h128 : size % 128 = 0)
    {vs : List Word} (hvs : vs.length % 128 = 0) :
    (pagesOf size vs).flatMap blocksOf = blocksOf vs := by
  by_cases h0 : vs.length = 0
  · rw [List.length_eq_zero_iff.1 h0, pagesOf_nil hsize]
    rfl
  · have hdrop : (vs.drop size).length % 128 = 0 := by rw [List.length_drop]; omega
    have htake : (vs.take size).length % 128 = 0 := by rw [List.length_take]; omega
    rw [pagesOf_eq_cons hsize (by omega), List.flatMap_cons, flatMap_blocksOf_pagesOf hsize h128 hdrop,
      ← blocksOf_append htake, List.take_append_drop]
termination_by vs.length
decreasing_by rw [List.length_drop]; omega

/-! ### Exceptions -/

/-- The high parts of the exceptions, from their positions. -/
theorem exceptionHighs_eq_map (blk : List Word) (b : Nat) :
    exceptionHighs blk b =
      (exceptionPositions blk b).map fun p => BitVec.ofNat 32 (high (blk.getD p 0) b) := by
  have hblk : (List.range blk.length).map (fun k => blk.getD k 0) = blk :=
    (map_range_getD id blk 0 rfl).trans (List.map_id blk)
  conv_lhs => rw [exceptionHighs, ← hblk, List.filter_map, List.map_map]
  rfl

/-- As many high parts as positions (R94). -/
theorem length_exceptionHighs (blk : List Word) (b : Nat) :
    (exceptionHighs blk b).length = (exceptionPositions blk b).length := by
  simp [exceptionHighs_eq_map]

theorem length_exceptionPositions (blk : List Word) (b : Nat) :
    (exceptionPositions blk b).length = above blk b := by
  rw [← length_exceptionHighs, exceptionHighs, List.length_map, above, List.countP_eq_length_filter]

theorem above_le_length (blk : List Word) (b : Nat) : above blk b ≤ blk.length := List.countP_le_length

theorem mem_exceptionPositions {blk : List Word} {b p : Nat} :
    p ∈ exceptionPositions blk b ↔ p < blk.length ∧ high (blk.getD p 0) b ≠ 0 := by
  simp [exceptionPositions]

theorem nodup_exceptionPositions (blk : List Word) (b : Nat) : (exceptionPositions blk b).Nodup :=
  List.nodup_range.filter _

/-- The high parts of a block of values of at most `b + k` bits have at most `k` bits. -/
theorem toNat_lt_of_mem_exceptionHighs {blk : List Word} {b k : Nat} (h : ∀ v ∈ blk, bitlen v ≤ b + k)
    {x : Word} (hx : x ∈ exceptionHighs blk b) : x.toNat < 2 ^ k := by
  obtain ⟨v, hv, rfl⟩ := List.mem_map.1 hx
  rw [toNat_ofNat_high]
  exact high_lt (h v (List.mem_of_mem_filter hv))

/-- A block of which the values at the positions `done` are complete, and of every other value only
the low `b` bits are there: what a decoder has written after it merged those exceptions. -/
def mergedBlock (blk : List Word) (b : Nat) (done : List Nat) : List Word :=
  blk.mapIdx fun i v => if i ∈ done then v else BitVec.ofNat 32 (low v b)

@[simp] theorem length_mergedBlock (blk : List Word) (b : Nat) (done : List Nat) :
    (mergedBlock blk b done).length = blk.length := by simp [mergedBlock]

/-- Before the first exception the block is its low bits. -/
theorem mergedBlock_nil (blk : List Word) (b : Nat) :
    mergedBlock blk b [] = blk.map fun v => BitVec.ofNat 32 (low v b) :=
  List.ext_getElem (by simp) fun i _ _ => by simp [mergedBlock]

/-- With all exceptions merged the block is complete. -/
theorem mergedBlock_all (blk : List Word) (b : Nat) :
    mergedBlock blk b (exceptionPositions blk b) = blk := by
  refine List.ext_getElem (by simp) fun i h1 h2 => ?_
  by_cases hi : i ∈ exceptionPositions blk b
  · simp [mergedBlock, hi]
  · have : high blk[i] b = 0 := by simpa [mem_exceptionPositions, h2] using hi
    simp [mergedBlock, hi, ofNat_low_of_high_eq_zero this]

theorem getElem_exceptionPositions_lt {blk : List Word} {b t : Nat}
    (ht : t < (exceptionPositions blk b).length) : (exceptionPositions blk b)[t] < blk.length :=
  (mem_exceptionPositions.1 (List.getElem_mem ht)).1

theorem getElem_notMem_take {α : Type} {l : List α} (hl : l.Nodup) {t : Nat} (ht : t < l.length) :
    l[t] ∉ l.take t := by
  have htake := hl.sublist (List.take_sublist (t + 1) l)
  rw [← List.take_append_getElem ht, List.nodup_append] at htake
  obtain ⟨_, _, hdisjoint⟩ := htake
  exact fun h => hdisjoint _ h _ (List.mem_singleton_self _) rfl

/-- Merging one more exception: its high part is ORed in above the low bits (R177, R222). -/
theorem mergedBlock_take_succ (blk : List Word) (b : Nat) {t : Nat}
    (ht : t < (exceptionPositions blk b).length) (ht' : t < (exceptionHighs blk b).length)
    (hp : (exceptionPositions blk b)[t] <
      (mergedBlock blk b ((exceptionPositions blk b).take t)).length) :
    (mergedBlock blk b ((exceptionPositions blk b).take t)).set (exceptionPositions blk b)[t]
        ((mergedBlock blk b ((exceptionPositions blk b).take t))[(exceptionPositions blk b)[t]] |||
          shl32 (exceptionHighs blk b)[t] b) =
      mergedBlock blk b ((exceptionPositions blk b).take (t + 1)) := by
  have hnew := getElem_notMem_take (nodup_exceptionPositions blk b) ht
  have hlt := getElem_exceptionPositions_lt ht
  rw [← List.take_append_getElem ht]
  refine List.ext_getElem (by simp) fun i _ _ => ?_
  by_cases hi : i = (exceptionPositions blk b)[t]
  · subst hi
    simp [mergedBlock, hnew, hlt, exceptionHighs_eq_map, low_or_shl32_high, -List.take_append_getElem]
  · simp [mergedBlock, hi, Ne.symm hi, -List.take_append_getElem]

/-- The OR of an exception's high part, in the words a decoder has written (R177, R222). -/
theorem Work.Wrote.orException {w v : Work} {a b t : Nat} {blk : List Word}
    (h : w.Wrote v a (mergedBlock blk b ((exceptionPositions blk b).take t)))
    (ht : t < (exceptionPositions blk b).length) (ht' : t < (exceptionHighs blk b).length)
    (hroom : a + blk.length ≤ w.s.params.dstLen.toNat) :
    ∃ v', Machine.orDst (a + (exceptionPositions blk b)[t]) (shl32 (exceptionHighs blk b)[t] b) v =
        .ok v' ∧
      w.Wrote v' a (mergedBlock blk b ((exceptionPositions blk b).take (t + 1))) ∧
      v'.ip = v.ip ∧ v'.op = v.op ∧ v'.s.scratch = v.s.scratch := by
  have hp : (exceptionPositions blk b)[t] <
      (mergedBlock blk b ((exceptionPositions blk b).take t)).length := by
    rw [length_mergedBlock]
    exact getElem_exceptionPositions_lt ht
  rw [← mergedBlock_take_succ blk b ht ht' hp]
  exact h.orDst hp (by rwa [length_mergedBlock])

end Sys2Proof.Machine
end

section
/-! PROOFS. Procedures that decode: reading given words of `SRC` they write given values to `DST`;
block after block, page after page, and as a command (43_fastpfor_decode.md R180, R181). -/

namespace Sys2Proof.Machine

/-- In a build `p`, wherever the running command sees the words `ws` and has room for the values
`vs`, the procedure completes, having read exactly the words and written exactly the values. -/
def DecodesTo (p : Params) (run : Work → Except Trap Work) (ws vs : List Word) : Prop :=
  ∀ w : Work, w.s.params = p → w.s.Sees w.ip ws → w.op + vs.length ≤ p.dstLen.toNat →
    ∃ w', run w = .ok w' ∧ w.Wrote w' w.op vs ∧ w'.ip = w.ip + ws.length ∧ w'.op = w.op + vs.length

section
variable {p : Params}

theorem decodesTo_nil : DecodesTo p .ok [] [] := fun w _ _ _ => ⟨w, rfl, .refl w _, rfl, rfl⟩

/-- Decoding in sequence decodes the concatenation. -/
theorem DecodesTo.append {f g : Work → Except Trap Work} {us vs xs ys : List Word}
    (hf : DecodesTo p f us xs) (hg : DecodesTo p g vs ys) :
    DecodesTo p (fun w => f w >>= g) (us ++ vs) (xs ++ ys) := by
  intro w hp hsees hroom
  obtain ⟨hus, hvs⟩ := sees_append.1 hsees
  rw [List.length_append] at hroom
  obtain ⟨w1, h1, hw1, hip1, hop1⟩ := hf w hp hus (by omega)
  obtain ⟨w2, h2, hw2, hip2, hop2⟩ := hg w1 (hw1.params.trans hp) (by rw [hip1]; exact hw1.sees hvs)
    (by omega)
  refine ⟨w2, (congrArg (· >>= g) h1).trans h2, ?_, ?_, ?_⟩
  · rw [hop1] at hw2
    exact hw1.append hw2
  · rw [hip2, hip1, List.length_append, Nat.add_assoc]
  · rw [hop2, hop1, List.length_append, Nat.add_assoc]

/-- One round for each block decodes the blocks. -/
theorem decodesTo_iter {body : Work → Except Trap Work} {image : List Word → List Word}
    {blks : List (List Word)} (h : ∀ blk ∈ blks, DecodesTo p body (image blk) blk) :
    DecodesTo p (iter body blks.length) (blks.flatMap image) blks.flatten := by
  induction blks with
  | nil => exact decodesTo_nil
  | cons blk blks ih =>
    rw [List.flatMap_cons, List.flatten_cons]
    exact (h blk (by simp)).append (ih fun x hx => h x (by simp [hx]))

/-- The page loop decodes the pages. -/
theorem decodesTo_forPages {page : Nat → Work → Except Trap Work} {image : List Word → List Word}
    {size : Nat} (hsize : 0 < size) (h128 : size % 128 = 0)
    (h : ∀ vs, vs.length ≤ size → vs.length % 128 = 0 → DecodesTo p (page vs.length) (image vs) vs)
    {vs : List Word} (hvs : vs.length % 128 = 0) :
    DecodesTo p (forPages page size vs.length) ((pagesOf size vs).flatMap image) vs := by
  have key : ∀ rounds vs, ceilDiv vs.length size = rounds → vs.length % 128 = 0 →
      DecodesTo p (pageRounds page size rounds vs.length) ((pagesOf size vs).flatMap image) vs := by
    intro rounds
    induction rounds with
    | zero =>
      intro vs hr _
      have hle := le_mul_ceilDiv vs.length hsize
      obtain rfl : vs = [] := List.length_eq_zero_iff.1 (by simpa [hr] using hle)
      rw [pagesOf_nil hsize]
      exact decodesTo_nil
    | succ k ih =>
      intro vs hr hv
      have hpos : 0 < vs.length := by
        by_contra h0
        rw [show vs.length = 0 by omega, ceilDiv_zero hsize] at hr
        omega
      rw [ceilDiv_eq_succ hsize hpos] at hr
      have hrest := ih (vs.drop size) (by rw [List.length_drop]; omega)
        (by rw [List.length_drop]; omega)
      have hpage := h (vs.take size) (by simp) (by rw [List.length_take]; omega)
      have hboth := hpage.append hrest
      rw [List.take_append_drop, List.length_take, List.length_drop, ← List.flatMap_cons,
        ← pagesOf_eq_cons hsize hpos, show vs.length - size = vs.length - min size vs.length by omega]
        at hboth
      exact hboth
  exact key _ vs rfl hvs

end

/-- What a command leaves that completes having written `out` from its output cursor on. -/
theorem completes_commit {s : State} {ip op : Word} {w : Work} {out : List Word} {used : Nat}
    (hw : s.start.Wrote w op.toNat out) (hip : w.ip = ip.toNat + used)
    (hop : w.op = op.toNat + out.length) : s.Completes w.commit ip.toNat op.toNat used out where
  params := hw.params
  status := (congrArg State.status hw.state :)
  fcause := (congrArg State.fcause hw.state :)
  finfo := (congrArg State.finfo hw.state :)
  inpos := by simp [hip]
  outpos := by simp [hop]
  inlen := (congrArg State.inlen hw.state :)
  thissize := (congrArg State.thissize hw.state :)
  bestb := rfl
  cexcept := rfl
  maxb := rfl
  scratch := rfl
  src := hw.src
  host := (congrArg State.host hw.state :)
  rdata := (congrArg State.rdata hw.state :)
  written := hw.written
  kept := hw.kept

/-- A decompressor whose page loop decodes `ws` to `vs` completes on the stream of the count word and
`ws`. -/
theorem uncompress_completes {page : Nat → Work → Except Trap Work} {size : Nat} {ws vs : List Word}
    {s : State} {ip op : Word} (hpages : DecodesTo s.params (forPages page size vs.length) ws vs)
    (hs : s.ready ip op) (hinlen : s.inlen.toNat ≠ 0) (h128 : vs.length % 128 = 0)
    (hlt : vs.length < 2 ^ 32) (hsees : s.Sees ip.toNat (BitVec.ofNat 32 vs.length :: ws))
    (hroom : op.toNat + vs.length ≤ s.params.dstLen.toNat) :
    ∃ t, runCommand s (uncompressBody page size) = .next t ∧
      s.Completes t ip.toNat op.toNat (1 + ws.length) vs := by
  obtain ⟨hf, hin, hout⟩ := hs
  have hip : s.start.ip = ip.toNat := start_ip_known s ip hin
  have hop : s.start.op = op.toNat := start_op_known s op hout
  obtain ⟨hcount, hws⟩ := sees_cons hsees
  have hcount' : s.start.s.Sees s.start.ip [BitVec.ofNat 32 vs.length] := by
    rw [hip]; exact hcount.congr rfl rfl
  have hn : (BitVec.ofNat 32 vs.length).toNat = vs.length := by
    rw [BitVec.toNat_ofNat, Nat.mod_eq_of_lt hlt]
  obtain ⟨w', hw', hwrote, hip', hop'⟩ :=
    hpages (s.start.took 1) rfl (by rw [took_ip, hip]; exact hws.congr rfl rfl)
      (by rw [took_op, hop]; exact hroom)
  refine ⟨w'.commit, runCommand_ok hf ?_, completes_commit ?_ ?_ ?_⟩
  · have hcheck (v : Work) (i : Nat) : v.check (decide (vs.length % 128 = 0)) .badCount i = .ok () :=
      check_eq_ok.2 (by simpa using h128)
    simp only [uncompressBody, hinlen, if_false, takeSrc1_of_sees hcount', ok_bind, hn, hcheck, hw']
  · rw [← hop]
    exact ((Work.Wrote.refl s.start s.start.op).took 1).after_quiet hwrote
  · rw [hip', took_ip, hip, Nat.add_assoc]
  · rw [hop', took_op, hop]

end Sys2Proof.Machine
end

section
/-! PROOFS. The low bits of a block: what `unpackBlock` writes (43_fastpfor_decode.md R176). -/

namespace Sys2Proof.Machine

/-- Round `g` of the loop of `unpackBlock`. -/
def unpackGroup (b g : Nat) (w : Work) : Except Trap Work := do
  let (ws, w1) ← w.takeSrc b
  w1.writeDst (w1.op + 32 * g) (unpack32 ws b)

theorem unpackBlock_eq_forEach (b : Nat) (w : Work) :
    unpackBlock b w = forEach (unpackGroup b) (List.range 4) w := rfl

/-- Four groups of `b` words each are unpacked to 128 words at the output position, which stays. -/
theorem unpackBlock_ok {w : Work} {b : Nat} {f : Nat → List Word} (hf : ∀ g, (f g).length = b)
    (hsees : w.s.Sees w.ip ((List.range 4).flatMap f))
    (hroom : w.op + 128 ≤ w.s.params.dstLen.toNat) :
    ∃ w', unpackBlock b w = .ok w' ∧
      w.Wrote w' w.op ((List.range 4).flatMap fun g => unpack32 (f g) b) ∧
      w'.ip = w.ip + 4 * b ∧ w'.op = w.op ∧ w'.s.scratch = w.s.scratch := by
  rw [unpackBlock_eq_forEach]
  have key := forEach_range_ok (body := unpackGroup b)
    (fun i v => w.s.Sees v.ip ((List.range' i (4 - i)).flatMap f) ∧
      w.Wrote v w.op ((List.range i).flatMap fun g => unpack32 (f g) b) ∧
      v.ip = w.ip + i * b ∧ v.op = w.op ∧ v.s.scratch = w.s.scratch) 4 w
    ⟨by simpa [List.range_eq_range'] using hsees, .refl w _, by simp, rfl, rfl⟩ ?_
  · obtain ⟨w', hw', _, hrest⟩ := key
    exact ⟨w', hw', hrest⟩
  · rintro i v hi ⟨hs, hw, hip, hop, hsc⟩
    rw [range'_sub_cons hi, List.flatMap_cons] at hs
    obtain ⟨hnow, hlater⟩ := sees_append.1 hs
    have htake := takeSrc_of_sees (hw.sees hnow)
    rw [hf] at htake hlater
    have hlen : ((List.range i).flatMap fun g => unpack32 (f g) b).length = 32 * i := by
      rw [length_flatMap_const _ fun g _ => unpack32_length (f g) b, List.length_range, Nat.mul_comm]
    obtain ⟨v', hv', hw', hip', hop', hsc'⟩ := (hw.took b).writeDst (ws := unpack32 (f i) b)
      (by rw [hlen, unpack32_length]; omega)
    rw [hlen] at hv'
    refine ⟨v', ?_, ?_, ?_, ?_, hop'.trans hop, hsc'.trans hsc⟩
    · simp only [unpackGroup, htake, ok_bind, took_op, hop, hv']
    · rwa [hip', took_ip]
    · rwa [List.range_succ, List.flatMap_append, List.flatMap_singleton]
    · rw [hip', took_ip, hip, Nat.succ_mul, Nat.add_assoc]

@[simp] theorem length_lowBitsWords (blk : List Word) (b : Nat) : (lowBitsWords blk b).length = 4 * b :=
  (length_flatMap_const _ fun _ _ => pack32_length _ _).trans rfl

/-- Unpacking the low-bit words of a block gives the low bits of its values (R86, R94). -/
theorem unpackBlock_lowBits {w : Work} {blk : List Word} {b : Nat} (hlen : blk.length = 128)
    (hsees : w.s.Sees w.ip (lowBitsWords blk b)) (hroom : w.op + 128 ≤ w.s.params.dstLen.toNat) :
    ∃ w', unpackBlock b w = .ok w' ∧ w.Wrote w' w.op (mergedBlock blk b []) ∧
      w'.ip = w.ip + (lowBitsWords blk b).length ∧ w'.op = w.op ∧ w'.s.scratch = w.s.scratch := by
  have hgroup (g : Nat) (hg : g ∈ List.range 4) :
      unpack32 (pack32 ((groupOf blk g).map fun v => BitVec.ofNat 32 (low v b)) b) b =
        (((blk.map fun v => BitVec.ofNat 32 (low v b)).drop (32 * g)).take 32) := by
    have := List.mem_range.1 hg
    rw [unpack32_pack32 (by simp [groupOf]; omega)]
    simp [groupOf, Function.comp_def]
  obtain ⟨w', hw', hwrote, hrest⟩ := unpackBlock_ok (fun _ => pack32_length _ b) hsees hroom
  rw [List.flatMap_congr hgroup, flatMap_pieces, List.take_of_length_le (by simp [hlen]),
    ← mergedBlock_nil] at hwrote
  rw [length_lowBitsWords]
  exact ⟨w', hw', hwrote, hrest⟩

end Sys2Proof.Machine
end

section
/-! PROOFS. The OptPFD round trip: the selector's choice, the payload, the patches, a record, and the
stream (44_optpfd.md R206 to R209, R220 to R226). -/

namespace Sys2Proof.Machine

/-! ### The selector's choice -/

theorem countHigh_eq_above (blk : List Word) (b : Nat) : countHigh blk b = above blk b := by
  rw [countHigh, above, List.countP_eq_length_filter]

/-- No value needs more than 32 bits. -/
theorem above_eq_zero {blk : List Word} {b : Nat} (h : ∀ v ∈ blk, bitlen v ≤ b) : above blk b = 0 := by
  refine List.countP_eq_zero.2 fun v hv => ?_
  simp only [decide_eq_true_eq, high_ne_zero_iff]
  exact not_lt.2 (h v hv)

theorem bitlen_le_maxBitlen {blk : List Word} {v : Word} (hv : v ∈ blk) : bitlen v ≤ maxBitlen blk := by
  induction blk with
  | nil => cases hv
  | cons u blk ih =>
    rw [maxBitlen, List.map_cons, List.foldr_cons]
    rcases List.mem_cons.1 hv with rfl | hv
    · exact le_max_left _ _
    · exact (ih hv).trans (le_max_right _ _)

theorem maxBitlen_le (blk : List Word) : maxBitlen blk ≤ 32 := by
  induction blk with
  | nil => simp [maxBitlen]
  | cons u blk ih => exact max_le (bitlen_le_32 u) ih

theorem le_widthOf {i : Nat} (h : i ≤ 16) : i ≤ widthOf i := by
  revert i; decide

theorem opdMini_le {mb : Nat} (h : mb ≤ 32) : opdMini mb ≤ 4 := by
  revert mb; decide

/-- A choice of the OptPFD walk for a block: a width index from `lo` on with its number of
exceptions, which is at most 127 (R209). -/
structure OptFits (blk : List Word) (lo besti n : Nat) : Prop where
  lower : lo ≤ besti
  upper : besti ≤ 16
  count : n = above blk (widthOf besti)
  small : n ≤ 127

/-- The walk keeps a fitting choice: a block of 128 values has at most 127 exceptions at a width that
is not skipped. -/
theorem opdWalk_fits {S : S16} {blk : List Word} {lo : Nat} (hlen : blk.length = 128) (steps : Nat)
    (best : OptChoice) (sc : Scratch) (hsteps : lo + steps ≤ 16) (h : OptFits blk lo best.besti best.n) :
    OptFits blk lo (opdWalk S blk lo steps best sc).1.besti (opdWalk S blk lo steps best sc).1.n := by
  induction steps generalizing best sc with
  | zero => exact h
  | succ k ih =>
    have hcount := countHigh_eq_above blk (widthOf (lo + k))
    have hle := above_le_length blk (widthOf (lo + k))
    simp only [opdWalk]
    split
    · exact ih _ _ (by omega) h
    · split
      · exact ih _ _ (by omega) ⟨by simp, by simp only; omega, hcount, by simp only; omega⟩
      · exact ih _ _ (by omega) h

/-- The result of the OptPFD selector fits its block (R209). -/
theorem optSelected_fits (S : S16) {blk : List Word} (hlen : blk.length = 128) :
    OptFits blk (opdMini (maxBitlen blk)) (optSelected S blk).1 (optSelected S blk).2.1 := by
  have hmini := opdMini_le (maxBitlen_le blk)
  exact opdWalk_fits hlen (16 - opdMini (maxBitlen blk)) ⟨16, 0, 128⟩ _ (by omega)
    ⟨by simp only; omega, le_rfl, (above_eq_zero fun v _ => bitlen_le_32 v).symm, by simp⟩

/-! ### The payload -/

@[simp] theorem length_optStaged (blk : List Word) (b : Nat) :
    (optStaged blk b).length = 2 * above blk b := by
  rw [optStaged, List.length_append, List.length_map, length_exceptionHighs, length_exceptionPositions]
  omega

/-- What is staged at the selected width is codable: the lower bound of the walk leaves high parts of
at most 28 bits (R207). -/
theorem codable_optStaged {blk : List Word} {besti n : Nat} (hlen : blk.length = 128)
    (h : OptFits blk (opdMini (maxBitlen blk)) besti n) : S16.codable (optStaged blk (widthOf besti)) := by
  obtain ⟨_, _, _, _, hinv⟩ := widthTableAndItsInverse
  obtain ⟨_, hwide, _⟩ := hinv _ (maxBitlen_le blk)
  have hlow := h.lower
  have hwidth := le_widthOf h.upper
  have hbits : ∀ v ∈ blk, bitlen v ≤ widthOf besti + 28 := by
    intro v hv
    have := bitlen_le_maxBitlen hv
    rw [opdMini] at hlow
    omega
  intro x hx
  rcases List.mem_append.1 hx with hx | hx
  · exact toNat_lt_of_mem_exceptionHighs hbits hx
  · obtain ⟨p, hp, rfl⟩ := List.mem_map.1 hx
    have := (mem_exceptionPositions.1 hp).1
    rw [BitVec.toNat_ofNat]
    exact (Nat.mod_le _ _).trans_lt (by omega)

section
variable {S : S16} {blk : List Word}

/-- A payload fits its header field (R226(b)). -/
theorem length_optPayload_le (hS : S.Len) (hlen : blk.length = 128) :
    (optPayload S blk).length ≤ 254 := by
  obtain ⟨_, _, hcount, hsmall⟩ := optSelected_fits S hlen
  unfold optPayload
  simp only
  split
  · have hstaged : (optStaged blk (widthOf (optSelected S blk).1)).length =
        2 * (optSelected S blk).2.1 := by rw [length_optStaged, ← hcount]
    have := (hS (2 * (optSelected S blk).2.1) (by omega) _ hstaged
      (codable_optStaged hlen (optSelected_fits S hlen))).1
    omega
  · simp

/-- A payload the coder decodes fills `EB` from its start on (R221). -/
theorem loadPayload_of_some {w : Work} {n : Nat} {pl : List Word} {r : Vector Word (2 * n)} (hn : n > 0)
    (hsees : w.s.Sees w.ip pl) (hr : S.uncompress pl pl.length (2 * n) = some r) :
    loadPayload S n pl.length w =
      .ok ((w.took pl.length).onScratch fun sc => { sc with eb := sc.eb.write 0 r.toList }) := by
  simp only [loadPayload, hn, if_true, takeSrc_of_sees hsees, ok_bind, hr]

/-- The payload of a block is decoded to what was staged (R221). -/
theorem loadPayload_ok (hS : S.Roundtrip) (hlen : blk.length = 128) {w : Work}
    (hsees : w.s.Sees w.ip (optPayload S blk)) :
    ∃ w', loadPayload S (optSelected S blk).2.1 (optPayload S blk).length w = .ok w' ∧
      w.Wrote w' w.op [] ∧ w'.ip = w.ip + (optPayload S blk).length ∧ w'.op = w.op ∧
      Arr.Holds w'.s.scratch.eb 0 (optStaged blk (widthOf (optSelected S blk).1)) := by
  obtain ⟨_, _, hcount, hsmall⟩ := optSelected_fits S hlen
  have hstaged : (optStaged blk (widthOf (optSelected S blk).1)).length =
      2 * (optSelected S blk).2.1 := by rw [length_optStaged, ← hcount]
  by_cases hn : (optSelected S blk).2.1 > 0
  · have hpl : optPayload S blk = S.compress (optStaged blk (widthOf (optSelected S blk).1))
        (2 * (optSelected S blk).2.1) := by simp [optPayload, hn]
    obtain ⟨r, hr, hlist⟩ := Option.map_eq_some_iff.1
      (hS _ (by omega) _ hstaged (codable_optStaged hlen (optSelected_fits S hlen)))
    rw [← hpl] at hr
    refine ⟨_, loadPayload_of_some hn hsees hr, ((Work.Wrote.refl w w.op).took _).onScratch _, rfl,
      rfl, ?_⟩
    rw [← hlist]
    exact holds_write _ _ _
  · have hpl : optPayload S blk = [] := by simp [optPayload, hn]
    have hnil : optStaged blk (widthOf (optSelected S blk).1) = [] :=
      List.length_eq_zero_iff.1 (by omega)
    refine ⟨w, by simp [loadPayload, hn], .refl w _, by simp [hpl], rfl, ?_⟩
    rw [hnil]
    exact holds_nil _ _

/-! ### The patches -/

theorem ebAt_of_get? {sc : Scratch} {i : Nat} {x : Word} (h : sc.eb.get? i = some x) : sc.ebAt i = x := by
  rw [Scratch.ebAt, h, Option.getD_some]

/-- The patches merge the exceptions of a block whose low bits are written (R222). -/
theorem opdPatches_ok {b : Nat} {w w1 : Work} (hlen : blk.length = 128)
    (hw : w.Wrote w1 w.op (mergedBlock blk b [])) (hop : w1.op = w.op)
    (hroom : w.op + 128 ≤ w.s.params.dstLen.toNat)
    (heb : Arr.Holds w1.s.scratch.eb 0 (optStaged blk b)) :
    ∃ w', forEach (opdPatch (above blk b) b) (List.range (above blk b)) w1 = .ok w' ∧
      w.Wrote w' w.op blk ∧ w'.ip = w1.ip ∧ w'.op = w.op := by
  have hn := length_exceptionPositions blk b
  have hhighs := (length_exceptionHighs blk b).trans hn
  obtain ⟨hebHigh, hebPos⟩ := holds_append.1 heb
  rw [hhighs, Nat.zero_add] at hebPos
  have key := forEach_range_ok (body := opdPatch (above blk b) b)
    (fun t v => w.Wrote v w.op (mergedBlock blk b ((exceptionPositions blk b).take t)) ∧
      v.ip = w1.ip ∧ v.op = w.op ∧ v.s.scratch = w1.s.scratch) (above blk b) w1
    ⟨by simpa using hw, rfl, hop, rfl⟩ ?_
  · obtain ⟨w', hw', hwrote, hip', hop', _⟩ := key
    rw [List.take_of_length_le hn.le, mergedBlock_all] at hwrote
    exact ⟨w', hw', hwrote, hip', hop'⟩
  · rintro t v ht ⟨hv, hvip, hvop, hvsc⟩
    have htn : t < (exceptionPositions blk b).length := by omega
    have hth : t < (exceptionHighs blk b).length := by omega
    have hp := getElem_exceptionPositions_lt htn
    have hpos : (v.s.scratch.ebAt (above blk b + t)).toNat = (exceptionPositions blk b)[t] := by
      rw [hvsc, ebAt_of_get? (hebPos.get? (by simpa using htn)), List.getElem_map, BitVec.toNat_ofNat,
        Nat.mod_eq_of_lt (by omega)]
    have hval : v.s.scratch.ebAt t = (exceptionHighs blk b)[t] := by
      rw [hvsc]
      exact ebAt_of_get? (by simpa using hebHigh.get? hth)
    have hcheck : v.check (decide ((exceptionPositions blk b)[t] < 128)) .badPosition
        (exceptionPositions blk b)[t] = .ok () := check_eq_ok.2 (by simpa [hlen] using hp)
    obtain ⟨v', hv', hwrote, hip', hop', hsc'⟩ := hv.orException htn hth (by rwa [hlen])
    refine ⟨v', ?_, hwrote, hip'.trans hvip, hop'.trans hvop, hsc'.trans hvsc⟩
    simp only [opdPatch, hpos, hcheck, ok_bind, hvop, hval, hv']

/-! ### A record -/

/-- The decoder reads back the header fields (R93). -/
theorem headerFields_opdHeader {besti n es : Nat} (hb : besti < 256) (hn : n < 256) (hes : es < 65536) :
    headerFields (opdHeader besti n es) = (besti, n, es) := by
  have hval : (opdHeader besti n es).toNat = besti + 256 * n + 65536 * es := by
    rw [opdHeader, BitVec.toNat_ofNat, Nat.mod_eq_of_lt (by omega)]
  simp only [headerFields, hval, Prod.mk.injEq]
  omega

/-- The decoder accepts the header of every block (R221). -/
theorem headerOk_optSelected (hlen : blk.length = 128) :
    headerOk (optSelected S blk).1 (optSelected S blk).2.1 (optPayload S blk).length = true := by
  obtain ⟨_, hupper, hcount, hsmall⟩ := optSelected_fits S hlen
  have hpl : (optSelected S blk).2.1 = 0 → (optPayload S blk).length = 0 := by
    intro h; simp [optPayload, h]
  have htop : (optSelected S blk).1 = 16 → (optSelected S blk).2.1 = 0 := by
    intro h
    rw [hcount, h]
    exact above_eq_zero fun v _ => bitlen_le_32 v
  simp only [headerOk, Bool.not_eq_true', Bool.or_eq_false_iff, Bool.and_eq_false_iff,
    decide_eq_false_iff_not, beq_eq_false_iff_ne, bne_eq_false_iff_eq]
  omega

/-- The record of a block is decoded to the block (R226(b)). -/
theorem decodesTo_opdDecodeBlock (p : Params) (hS : S.Roundtrip) (hSlen : S.Len) (hlen : blk.length = 128) :
    DecodesTo p (opdDecodeBlock S) (optRecord S blk) blk := by
  rintro w rfl hsees hroom
  rw [hlen] at hroom ⊢
  obtain ⟨_, hupper, hcount, hsmall⟩ := optSelected_fits S hlen
  have hpl := length_optPayload_le hSlen hlen
  rw [optRecord, List.cons_append] at hsees
  obtain ⟨hhead, htail⟩ := sees_cons hsees
  obtain ⟨hpay, hlows⟩ := sees_append.1 htail
  obtain ⟨w2, h2, hw2, hip2, hop2, heb⟩ := loadPayload_ok hS hlen (w := w.took 1) (hpay.took 1)
  obtain ⟨w3, h3, hw3, hip3, hop3, hsc3⟩ := unpackBlock_lowBits hlen (w := w2)
    (by rw [hip2]; exact hw2.sees (hlows.took 1)) (by rw [hw2.params, hop2]; exact hroom)
  obtain ⟨w4, h4, hw4, hip4, hop4⟩ := opdPatches_ok hlen hw3 hop3
    (by rw [hw2.params, hop2]; exact hroom) (by rw [hsc3]; exact heb)
  refine ⟨{ w4 with op := w4.op + 128 }, ?_, ?_, ?_, ?_⟩
  · have hcheck : (w.took 1).check (headerOk (optSelected S blk).1 (optSelected S blk).2.1
        (optPayload S blk).length) .badOptHeader (opdHeader (optSelected S blk).1
        (optSelected S blk).2.1 (optPayload S blk).length).toNat = .ok () :=
      check_eq_ok.2 (headerOk_optSelected hlen)
    rw [← hcount] at h4
    simp only [opdDecodeBlock, takeSrc1_of_sees hhead, ok_bind,
      headerFields_opdHeader (show (optSelected S blk).1 < 256 by omega)
        (show (optSelected S blk).2.1 < 256 by omega)
        (show (optPayload S blk).length < 65536 by omega)]
    rw [hcheck, ok_bind, h2, ok_bind, h3, ok_bind, h4, ok_bind]
  · have hquiet : w.Wrote w2 w.op [] := ((Work.Wrote.refl w w.op).took 1).after_quiet hw2
    rw [hop2] at hw4
    exact (hquiet.after_quiet hw4).then_quiet rfl
  · show w4.ip = _
    rw [hip4, hip3, hip2, optRecord, List.cons_append, List.length_cons, List.length_append]
    rw [took_ip]
    omega
  · show w4.op + 128 = _
    rw [hop4, hop2, took_op]

/-- The records of a page are decoded to its values (R220). -/
theorem decodesTo_opdDecodePage (p : Params) (hS : S.Roundtrip) (hSlen : S.Len) {vs : List Word}
    (h128 : vs.length % 128 = 0) :
    DecodesTo p (opdDecodePage S vs.length) (optImage S (blocksOf vs)) vs := by
  have := decodesTo_iter (body := opdDecodeBlock S) (image := optRecord S) (blks := blocksOf vs)
    fun blk hblk => decodesTo_opdDecodeBlock p hS hSlen (length_of_mem_blocksOf hblk)
  rwa [length_blocksOf, flatten_blocksOf h128] at this

end

/-- Settles O59: block after block the record is decoded to its block, and the page loop joins the
pages. -/
theorem opdUncompressReversesTheStream : Obligations.OpdUncompressReversesTheStream := by
  intro S hS hSlen s ip op vs hs hinlen h128 hlt hsrc hbound hroom
  have hpages := decodesTo_forPages (size := Config.opdPageSize) (by decide) (by decide)
    (fun vs _ h => decodesTo_opdDecodePage s.params hS hSlen h) h128
  have himage : (pagesOf Config.opdPageSize vs).flatMap (fun page => optImage S (blocksOf page)) =
      optImage S (blocksOf vs) := by
    rw [← flatMap_blocksOf_pagesOf (size := Config.opdPageSize) (by decide) (by decide) h128]
    exact List.flatMap_assoc.symm
  rw [himage] at hpages
  have := uncompress_completes hpages hs hinlen h128 hlt ⟨hsrc, hbound⟩ hroom
  rwa [Nat.add_comm] at this

end Sys2Proof.Machine
end

section
/-! PROOFS. What the FastPFOR selector gives a block, and the sizes and entries of a page's byte
buffer, buckets and bitmap (41_fastpfor_selector.md R121 to R128; 30_encoding.md R85 to R90). -/

namespace Sys2Proof.Machine

/-! ### The selector -/

theorem freqAt_write_one (freqs : Arr Nat) (k n w : Nat) :
    freqAt (freqs.write k [n]) w = if w = k then n else freqAt freqs w := by
  unfold freqAt
  rw [get?_write_one]
  split <;> rfl

/-- Counting a block adds to each counter the values of that width (R121 step 1). -/
theorem freqAt_countFreqs (freqs : Arr Nat) (blk : List Word) (w : Nat) :
    freqAt (countFreqs freqs blk) w = freqAt freqs w + blk.countP (fun v => decide (bitlen v = w)) := by
  induction blk generalizing freqs with
  | nil => simp [countFreqs]
  | cons v blk ih =>
    rw [countFreqs, ih, freqAt_write_one, List.countP_cons]
    by_cases h : bitlen v = w
    · simp [h]; omega
    · simp [h, Ne.symm h]

/-- A counter of the histogram counts the values of that width (R122). -/
theorem freqAt_histogram (freqs : Arr Nat) (blk : List Word) {w : Nat} (h : w ≤ 32) :
    freqAt (histogram freqs blk) w = blk.countP (fun v => decide (bitlen v = w)) := by
  have hzero : freqAt (freqs.write 0 (List.replicate 33 0)) w = 0 := by
    rw [freqAt, get?_write, if_pos ⟨Nat.zero_le w, by simp; omega⟩, List.getElem?_replicate,
      if_pos (by omega), Option.getD_some]
  rw [histogram, freqAt_countFreqs, hzero, Nat.zero_add]

theorem largestUsed_le (freqs : Arr Nat) (top : Nat) : largestUsed freqs top ≤ top := by
  induction top with
  | zero => exact le_rfl
  | succ w ih =>
    unfold largestUsed
    split
    · exact le_rfl
    · exact ih.trans (Nat.le_succ w)

/-- Above the largest used width no counter counts anything (R121 step 2). -/
theorem freqAt_eq_zero_of_largestUsed_lt {freqs : Arr Nat} {top w : Nat}
    (h : largestUsed freqs top < w) (hw : w ≤ top) : freqAt freqs w = 0 := by
  induction top with
  | zero => omega
  | succ t ih =>
    unfold largestUsed at h
    split at h
    · omega
    · next hzero =>
      by_cases heq : w = t + 1
      · subst heq; omega
      · exact ih h (by omega)

/-- The exceptions at width `b` are those at width `b + 1` and the values of `b + 1` bits. -/
theorem above_eq_above_succ (blk : List Word) (b : Nat) :
    above blk b = above blk (b + 1) + blk.countP (fun v => decide (bitlen v = b + 1)) := by
  simp only [above, high_ne_zero_iff]
  induction blk with
  | nil => rfl
  | cons v blk ih =>
    simp only [List.countP_cons, ih, decide_eq_true_eq]
    split <;> split <;> split <;> omega

/-- A choice `(b, c, m)` of the FastPFOR selector for a block: `c` counts the exceptions at width `b`
and is at most 127, and no value needs more than `m` bits (R128). -/
structure FpfFits (blk : List Word) (b c m : Nat) : Prop where
  order : b ≤ m
  top : m ≤ 32
  count : c = above blk b
  small : c ≤ 127
  wide : ∀ v ∈ blk, bitlen v ≤ m

/-- The descent keeps a fitting choice (R121 steps 3 to 5, R123). -/
theorem fpfDescend_fits {freqs : Arr Nat} {blk : List Word} {m : Nat} (hm : m ≤ 32)
    (hfreqs : ∀ w, w ≤ 32 → freqAt freqs w = blk.countP fun v => decide (bitlen v = w)) (n c : Nat)
    (best : Choice) (hn : n ≤ m) (hc : c = above blk n) (h : FpfFits blk best.b best.cexcept m) :
    FpfFits blk (fpfDescend freqs m n c best).b (fpfDescend freqs m n c best).cexcept m := by
  induction n generalizing c best with
  | zero => exact h
  | succ b ih =>
    have hc' : c + freqAt freqs (b + 1) = above blk b := by
      rw [hc, hfreqs _ (by omega), ← above_eq_above_succ]
    simp only [fpfDescend]
    split
    · exact h
    · split
      · exact ih _ _ (by omega) hc' ⟨by simp only; omega, hm, hc', by simp only; omega, h.wide⟩
      · exact ih _ _ (by omega) hc' h

/-- The result of the FastPFOR selector fits its block (R128). -/
theorem fpfSelected_fits (blk : List Word) :
    FpfFits blk (fpfSelected blk).1 (fpfSelected blk).2.1 (fpfSelected blk).2.2 := by
  have hfreqs : ∀ w, w ≤ 32 → freqAt (histogram [] blk) w = blk.countP fun v => decide (bitlen v = w) :=
    fun w => freqAt_histogram [] blk
  have htop := largestUsed_le (histogram [] blk) 32
  have hwide : ∀ v ∈ blk, bitlen v ≤ largestUsed (histogram [] blk) 32 := by
    intro v hv
    by_contra hlt
    have hzero := freqAt_eq_zero_of_largestUsed_lt (not_le.1 hlt) (bitlen_le_32 v)
    rw [hfreqs _ (bitlen_le_32 v), List.countP_eq_zero] at hzero
    exact hzero v hv (by simp)
  have habove := above_eq_zero hwide
  exact fpfDescend_fits htop hfreqs _ 0 ⟨_, 0, _⟩ le_rfl habove.symm
    ⟨le_rfl, htop, habove.symm, by simp, hwide⟩

/-- A block with exceptions has its width below its largest. -/
theorem FpfFits.lt {blk : List Word} {b c m : Nat} (h : FpfFits blk b c m) (hc : c > 0) : b < m := by
  rcases Nat.lt_or_eq_of_le h.order with hlt | rfl
  · exact hlt
  · have := h.count.trans (above_eq_zero h.wide)
    omega

/-! ### The byte buffer, the buckets and the bitmap of a page -/

theorem length_flatMap_le {α β : Type} {l : List α} {f : α → List β} {c : Nat}
    (h : ∀ x ∈ l, (f x).length ≤ c) : (l.flatMap f).length ≤ l.length * c := by
  rw [List.length_flatMap]
  simpa using List.sum_le_card_nsmul (l.map fun x => (f x).length) c (by simpa using h)

theorem length_byteBuffer_le (blks : List (List Word)) : (byteBuffer blks).length ≤ blks.length * 130 := by
  refine length_flatMap_le fun blk _ => ?_
  obtain ⟨_, _, hcount, hsmall, _⟩ := fpfSelected_fits blk
  have hpos := length_exceptionPositions blk (fpfSelected blk).1
  simp only [blockRecord]
  split
  · simp; omega
  · simp

theorem length_bucketValues_le (blks : List (List Word)) (k : Nat) :
    (bucketValues blks k).length ≤ blks.length * 127 := by
  refine length_flatMap_le fun blk _ => ?_
  obtain ⟨_, _, hcount, hsmall, _⟩ := fpfSelected_fits blk
  have hpos := length_exceptionPositions blk (fpfSelected blk).1
  have hhigh := length_exceptionHighs blk (fpfSelected blk).1
  simp only
  split
  · simp; omega
  · simp

theorem length_lowBitsSection_le (blks : List (List Word)) :
    (lowBitsSection blks).length ≤ blks.length * 128 := by
  refine length_flatMap_le fun blk _ => ?_
  obtain ⟨horder, htop, _⟩ := fpfSelected_fits blk
  rw [length_lowBitsWords]
  omega

theorem byteBuffer_append (xs ys : List (List Word)) :
    byteBuffer (xs ++ ys) = byteBuffer xs ++ byteBuffer ys := List.flatMap_append

theorem bucketValues_append (xs ys : List (List Word)) (k : Nat) :
    bucketValues (xs ++ ys) k = bucketValues xs k ++ bucketValues ys k := List.flatMap_append

theorem byteBuffer_singleton (blk : List Word) : byteBuffer [blk] = blockRecord blk := by
  simp [byteBuffer]

/-- The exceptions of one block all go to one bucket (R143). -/
theorem bucketValues_singleton (blk : List Word) (k : Nat) :
    bucketValues [blk] k =
      if (fpfSelected blk).2.1 > 0 ∧ (fpfSelected blk).2.2 - (fpfSelected blk).1 = k then
        exceptionHighs blk (fpfSelected blk).1 else [] := by
  simp [bucketValues]

/-- The values of bucket `k` fit `k` bits. -/
theorem toNat_lt_of_mem_bucketValues {blks : List (List Word)} {k : Nat} {x : Word}
    (hx : x ∈ bucketValues blks k) : x.toNat < 2 ^ k := by
  obtain ⟨blk, _, hx⟩ := List.mem_flatMap.1 hx
  obtain ⟨horder, _, _, _, hwide⟩ := fpfSelected_fits blk
  simp only at hx
  split at hx
  · next h =>
    obtain ⟨_, hk⟩ := h
    exact toNat_lt_of_mem_exceptionHighs (fun v hv => (hwide v hv).trans (by omega)) hx
  · cases hx

/-- A digit at the end of a bit string stands above the others. -/
theorem bitString_append_singleton (w d : Nat) (ds : List Nat) :
    bitString w (ds ++ [d]) = bitString w ds + 2 ^ (w * ds.length) * d := by
  induction ds with
  | nil => simp [bitString]
  | cons x ds ih =>
    rw [List.cons_append, bitString, ih, bitString, List.length_cons, Nat.mul_add_one, Nat.add_comm _ w,
      pow_add]
    ring

/-- A sum of different powers of two is a string of bits. -/
theorem sum_two_pow_eq_bitString (p : Nat → Prop) [DecidablePred p] (n : Nat) :
    ((List.range n).map fun j => if p j then 2 ^ j else 0).sum =
      bitString 1 ((List.range n).map fun j => if p j then 1 else 0) := by
  induction n with
  | zero => rfl
  | succ n ih =>
    rw [List.range_succ, List.map_append, List.sum_append, ih, List.map_append, List.map_singleton,
      List.map_singleton, bitString_append_singleton]
    simp

/-- Bit `k-1` of the bitmap says whether bucket `k` is present (R89). -/
theorem getLsbD_bitmapWord (blks : List (List Word)) {k : Nat} (h1 : 1 ≤ k) (h32 : k ≤ 32) :
    (bitmapWord blks).getLsbD (k - 1) = decide (0 < (bucketValues blks k).length) := by
  have hdigit : ∀ d ∈ (List.range 32).map fun j =>
      if (bucketValues blks (j + 1)).length > 0 then 1 else 0, d < 2 ^ 1 := by
    intro d hd
    obtain ⟨j, _, rfl⟩ := List.mem_map.1 hd
    split <;> decide
  have hk : k - 1 < 32 := by omega
  have hfield := bitString_field hdigit (k - 1)
  rw [← sum_two_pow_eq_bitString (fun j => (bucketValues blks (j + 1)).length > 0)] at hfield
  simp only [Nat.mul_one, Nat.pow_one, List.getD_eq_getElem?_getD, List.getElem?_map,
    List.getElem?_range hk, Option.map_some, Option.getD_some, Nat.sub_add_cancel h1] at hfield
  rw [bitmapWord, BitVec.getLsbD_ofNat, Nat.testBit_eq_decide_div_mod_eq, hfield]
  by_cases hpos : (bucketValues blks k).length > 0 <;> simp [hk, hpos]

/-- The four bytes of a word made of four bytes (20_memory.md R53). -/
theorem bytesOfWord_wordOfBytes (y0 y1 y2 y3 : Byte) :
    bytesOfWord (wordOfBytes y0 y1 y2 y3) = [y0, y1, y2, y3] := by
  have h0 := y0.isLt
  have h1 := y1.isLt
  have h2 := y2.isLt
  have h3 := y3.isLt
  have hword : (wordOfBytes y0 y1 y2 y3).toNat =
      y0.toNat + 256 * y1.toNat + 65536 * y2.toNat + 16777216 * y3.toNat := by
    rw [wordOfBytes, BitVec.toNat_ofNat, Nat.mod_eq_of_lt (by omega)]
  simp only [bytesOfWord, hword, List.cons.injEq, and_true]
  refine ⟨?_, ?_, ?_, ?_⟩ <;> (refine BitVec.eq_of_toNat_eq ?_; rw [BitVec.toNat_ofNat]; omega)

end Sys2Proof.Machine
end

section
/-! PROOFS. The meta section of a FastPFOR page is loaded into scratch (43_fastpfor_decode.md R172 to
R174). -/

namespace Sys2Proof.Machine

/-! ### The byte buffer -/

/-- The four bytes from index `4 * i` on, zero padded (R87). -/
def bufferGroup (bytes : List Byte) (i : Nat) : List Byte :=
  (List.range 4).map fun r => bytes.getD (4 * i + r) 0

/-- Word `i` of a byte buffer, zero padded (R87). -/
def bufferWord (bytes : List Byte) (i : Nat) : Word :=
  wordOfBytes (bytes.getD (4 * i) 0) (bytes.getD (4 * i + 1) 0) (bytes.getD (4 * i + 2) 0)
    (bytes.getD (4 * i + 3) 0)

@[simp] theorem length_bufferGroup (bytes : List Byte) (i : Nat) : (bufferGroup bytes i).length = 4 := by
  simp [bufferGroup]

theorem byteWords_eq_map (bytes : List Byte) :
    byteWords bytes = (List.range (ceilDiv bytes.length 4)).map (bufferWord bytes) := rfl

theorem bytesOfWord_bufferWord (bytes : List Byte) (i : Nat) :
    bytesOfWord (bufferWord bytes i) = bufferGroup bytes i := bytesOfWord_wordOfBytes _ _ _ _

/-- An array that holds the groups of a byte buffer holds its bytes. -/
theorem holds_of_bufferGroups {m : Arr Byte} {bytes : List Byte}
    (h : Arr.Holds m 0 ((List.range (ceilDiv bytes.length 4)).flatMap (bufferGroup bytes))) :
    Arr.Holds m 0 bytes := by
  unfold bufferGroup at h
  rw [flatMap_range_pieces (fun i => bytes.getD i 0) 4] at h
  exact h.of_padded (le_mul_ceilDiv _ (by decide))

/-- Round `i` of the loop of `loadBytes`. -/
def loadWord (i : Nat) (w : Work) : Except Trap Work := do
  let (x, w1) ← w.takeSrc1
  .ok (w1.onScratch fun sc => { sc with bb := sc.bb.write (4 * i) (bytesOfWord x) })

/-- The byte count and the byte buffer are loaded (R172, R173). -/
theorem loadBytes_ok {w : Work} {bytes : List Byte} (hlt : bytes.length < 2 ^ 32)
    (hcap : 4 * ceilDiv bytes.length 4 ≤ byteBufCap w.s.params)
    (hsees : w.s.Sees w.ip (BitVec.ofNat 32 bytes.length :: byteWords bytes)) :
    ∃ w', loadBytes w = .ok w' ∧ w.Wrote w' w.op [] ∧ w'.ip = w.ip + (1 + (byteWords bytes).length) ∧
      w'.op = w.op ∧ w'.s.scratch.bblen = some bytes.length ∧ w'.s.scratch.bbpos = some 0 ∧
      Arr.Holds w'.s.scratch.bb 0 bytes := by
  obtain ⟨hsize, hwords⟩ := sees_cons hsees
  have hn : (BitVec.ofNat 32 bytes.length).toNat = bytes.length := by
    rw [BitVec.toNat_ofNat, Nat.mod_eq_of_lt hlt]
  have key := forEach_range_ok (body := loadWord)
    (fun i v => w.s.Sees v.ip ((List.range' i (ceilDiv bytes.length 4 - i)).map (bufferWord bytes)) ∧
      w.Wrote v w.op [] ∧ v.ip = w.ip + 1 + i ∧ v.op = w.op ∧
      Arr.Holds v.s.scratch.bb 0 ((List.range i).flatMap (bufferGroup bytes)))
    (ceilDiv bytes.length 4) (w.took 1)
    ⟨by rwa [byteWords_eq_map, List.range_eq_range'] at hwords, (Work.Wrote.refl w w.op).took 1, rfl,
      rfl, holds_nil _ _⟩ ?_
  · obtain ⟨w2, h2, _, hwrote, hip, hop, hbb⟩ := key
    refine ⟨w2.onScratch fun sc => { sc with bblen := some bytes.length, bbpos := some 0 }, ?_,
      hwrote.onScratch _, ?_, hop, rfl, rfl, holds_of_bufferGroups hbb⟩
    · have hcheck : (w.took 1).check
          (decide (4 * ceilDiv bytes.length 4 ≤ byteBufCap (w.took 1).s.params))
          .bytebufOverrun bytes.length = .ok () := check_eq_ok.2 (decide_eq_true hcap)
      simp only [loadBytes, takeSrc1_of_sees hsize, ok_bind, hn]
      rw [hcheck, ok_bind]
      exact congrArg (· >>= _) h2
    · rw [onScratch_ip, hip, byteWords_eq_map, List.length_map, List.length_range, Nat.add_assoc]
  · rintro i v hi ⟨hs, hw, hip, hop, hbb⟩
    rw [range'_sub_cons hi, List.map_cons] at hs
    obtain ⟨hnow, hlater⟩ := sees_cons hs
    have hlen : ((List.range i).flatMap (bufferGroup bytes)).length = 4 * i := by
      rw [length_flatMap_const _ fun g _ => length_bufferGroup bytes g, List.length_range, Nat.mul_comm]
    have hmore := hbb.write_append (bufferGroup bytes i)
    rw [hlen, Nat.zero_add] at hmore
    refine ⟨(v.took 1).onScratch fun sc => { sc with bb := sc.bb.write (4 * i) (bufferGroup bytes i) },
      ?_, hlater, (hw.took 1).onScratch _, ?_, hop, ?_⟩
    · simp only [loadWord, takeSrc1_of_sees (hw.sees hnow), ok_bind, bytesOfWord_bufferWord]
    · rw [onScratch_ip, took_ip, hip, Nat.add_assoc]
    · rw [List.range_succ, List.flatMap_append, List.flatMap_singleton]
      exact hmore

/-! ### The buckets -/

/-- Group `g` of the values of a bucket, zero padded (R90). -/
def valueGroup (vals : List Word) (g : Nat) : List Word :=
  (List.range 32).map fun i => vals.getD (32 * g + i) 0

@[simp] theorem length_valueGroup (vals : List Word) (g : Nat) : (valueGroup vals g).length = 32 := by
  simp [valueGroup]

theorem bucketSection_eq_cons (k : Nat) {vals : List Word} (h : 0 < vals.length) :
    bucketSection k vals = BitVec.ofNat 32 vals.length ::
      (List.range (ceilDiv vals.length 32)).flatMap fun g => pack32 (valueGroup vals g) k :=
  if_pos h

/-- Zero padding fits every width. -/
theorem toNat_lt_of_mem_valueGroup {vals : List Word} {k g : Nat} (h : ∀ x ∈ vals, x.toNat < 2 ^ k)
    {x : Word} (hx : x ∈ valueGroup vals g) : x.toNat < 2 ^ k := by
  obtain ⟨i, _, rfl⟩ := List.mem_map.1 hx
  by_cases hi : 32 * g + i < vals.length
  · rw [List.getD_eq_getElem _ _ hi]
    exact h _ (List.getElem_mem hi)
  · rw [List.getD_eq_default _ _ (by omega)]
    exact Nat.two_pow_pos k

theorem bkIndex_eq_add (k j : Nat) : bkIndex k j = bkIndex k 0 + j := rfl

/-- Round `g` of the loop of `loadBucket`. -/
def loadGroup (k g : Nat) (w : Work) : Except Trap Work := do
  let (ws, w1) ← w.takeSrc k
  .ok (w1.onScratch fun sc => { sc with bk := sc.bk.write (bkIndex k (32 * g)) (unpack32 ws k) })

/-- The groups of a bucket are unpacked into it, and no lower bucket is touched (R174). -/
theorem loadGroups_ok {w : Work} {k n : Nat} {vals : List Word} (hfit : ∀ x ∈ vals, x.toNat < 2 ^ k)
    (hn : vals.length ≤ 32 * n)
    (hsees : w.s.Sees w.ip ((List.range n).flatMap fun g => pack32 (valueGroup vals g) k)) :
    ∃ w', forEach (loadGroup k) (List.range n) w = .ok w' ∧ w.Wrote w' w.op [] ∧
      w'.ip = w.ip + ((List.range n).flatMap fun g => pack32 (valueGroup vals g) k).length ∧
      w'.op = w.op ∧ w'.s.scratch = { w.s.scratch with bk := w'.s.scratch.bk } ∧
      Arr.Holds w'.s.scratch.bk (bkIndex k 0) vals ∧
      ∀ i, i < bkIndex k 0 → w'.s.scratch.bk.get? i = w.s.scratch.bk.get? i := by
  have key := forEach_range_ok (body := loadGroup k)
    (fun g v => w.s.Sees v.ip ((List.range' g (n - g)).flatMap fun g => pack32 (valueGroup vals g) k) ∧
      w.Wrote v w.op [] ∧ v.ip = w.ip + g * k ∧ v.op = w.op ∧
      v.s.scratch = { w.s.scratch with bk := v.s.scratch.bk } ∧
      Arr.Holds v.s.scratch.bk (bkIndex k 0) ((List.range g).flatMap (valueGroup vals)) ∧
      ∀ i, i < bkIndex k 0 → v.s.scratch.bk.get? i = w.s.scratch.bk.get? i) n w
    ⟨by rwa [List.range_eq_range'] at hsees, .refl w _, by simp, rfl, rfl, holds_nil _ _,
      fun _ _ => rfl⟩ ?_
  · obtain ⟨w', hw', _, hwrote, hip, hop, hsc, hbk, hlow⟩ := key
    refine ⟨w', hw', hwrote, ?_, hop, hsc, ?_, hlow⟩
    · rw [hip, length_flatMap_const _ fun _ _ => pack32_length _ _, List.length_range]
    · unfold valueGroup at hbk
      rw [flatMap_range_pieces (fun i => vals.getD i 0) 32] at hbk
      exact hbk.of_padded hn
  · rintro g v hg ⟨hs, hw, hip, hop, hsc, hbk, hlow⟩
    rw [range'_sub_cons hg, List.flatMap_cons] at hs
    obtain ⟨hnow, hlater⟩ := sees_append.1 hs
    have htake := takeSrc_of_sees (hw.sees hnow)
    rw [pack32_length] at htake hlater
    have hlen : ((List.range g).flatMap (valueGroup vals)).length = 32 * g := by
      rw [length_flatMap_const _ fun i _ => length_valueGroup vals i, List.length_range, Nat.mul_comm]
    have hunpack : unpack32 (pack32 (valueGroup vals g) k) k = valueGroup vals g :=
      unpack32_pack32_of_lt (length_valueGroup vals g) fun x => toNat_lt_of_mem_valueGroup hfit
    have hmore := hbk.write_append (valueGroup vals g)
    rw [hlen, ← bkIndex_eq_add] at hmore
    refine ⟨(v.took k).onScratch fun sc =>
      { sc with bk := sc.bk.write (bkIndex k (32 * g)) (valueGroup vals g) },
      ?_, hlater, (hw.took k).onScratch _, ?_, hop, ?_, ?_, ?_⟩
    · simp only [loadGroup, htake, ok_bind, hunpack]
    · rw [onScratch_ip, took_ip, hip, Nat.succ_mul, Nat.add_assoc]
    · rw [onScratch_scratch, took_scratch, hsc]
    · rw [List.range_succ, List.flatMap_append, List.flatMap_singleton]
      exact hmore
    · intro i hi
      rw [← hlow i hi]
      exact get?_write_outside _ (.inl (by rw [bkIndex_eq_add]; omega))

/-- Bucket `k` is loaded from its section, if it has one, and no lower bucket is touched (R174). -/
theorem loadBucket_ok {w : Work} {bitmap : Word} {k : Nat} {vals : List Word}
    (hbit : bitmap.getLsbD (k - 1) = decide (0 < vals.length))
    (hfit : ∀ x ∈ vals, x.toNat < 2 ^ k) (hcap : vals.length ≤ bucketCap w.s.params)
    (hlt : vals.length < 2 ^ 32) (hzero : w.s.scratch.bsize.get? k = some 0)
    (hsees : w.s.Sees w.ip (bucketSection k vals)) :
    ∃ w', loadBucket bitmap k w = .ok w' ∧ w.Wrote w' w.op [] ∧
      w'.ip = w.ip + (bucketSection k vals).length ∧ w'.op = w.op ∧
      w'.s.scratch = { w.s.scratch with bsize := w'.s.scratch.bsize, bk := w'.s.scratch.bk } ∧
      w'.s.scratch.bsize.get? k = some vals.length ∧
      (∀ j, j ≠ k → w'.s.scratch.bsize.get? j = w.s.scratch.bsize.get? j) ∧
      Arr.Holds w'.s.scratch.bk (bkIndex k 0) vals ∧
      ∀ i, i < bkIndex k 0 → w'.s.scratch.bk.get? i = w.s.scratch.bk.get? i := by
  rcases Nat.eq_zero_or_pos vals.length with hnone | hpos
  · obtain rfl := List.length_eq_zero_iff.1 hnone
    exact ⟨w, by simp [loadBucket, hbit], .refl w _, rfl, rfl, rfl, hzero, fun _ _ => rfl, holds_nil _ _,
      fun _ _ => rfl⟩
  · rw [decide_eq_true hpos] at hbit
    rw [bucketSection_eq_cons k hpos] at hsees ⊢
    obtain ⟨hcount, hgroups⟩ := sees_cons hsees
    have hn : (BitVec.ofNat 32 vals.length).toNat = vals.length := by
      rw [BitVec.toNat_ofNat, Nat.mod_eq_of_lt hlt]
    have hcheck : (w.took 1).check (decide (vals.length ≤ bucketCap (w.took 1).s.params))
        .bucketOverrun vals.length = .ok () := check_eq_ok.2 (decide_eq_true hcap)
    obtain ⟨w', hw', hwrote, hip, hop, hsc, hbk, hlow⟩ := loadGroups_ok
      (w := (w.took 1).onScratch fun sc => { sc with bsize := sc.bsize.write k [vals.length] })
      hfit (le_mul_ceilDiv vals.length (d := 32) (by decide)) (hgroups.congr rfl rfl)
    have hbsize : w'.s.scratch.bsize = w.s.scratch.bsize.write k [vals.length] := by rw [hsc]; rfl
    refine ⟨w', ?_, ?_, ?_, hop, ?_, ?_, ?_, hbk, hlow⟩
    · simp only [loadBucket, hbit, if_true, takeSrc1_of_sees hcount, ok_bind, hn]
      rw [hcheck, ok_bind]
      exact hw'
    · exact (((Work.Wrote.refl w w.op).took 1).onScratch _).after_quiet hwrote
    · rw [hip, onScratch_ip, took_ip, List.length_cons]
      omega
    · rw [hsc]; rfl
    · rw [hbsize, get?_write_one, if_pos rfl]
    · intro j hj
      rw [hbsize, get?_write_one, if_neg hj]

theorem bucketNumbers_eq_range' : bucketNumbers = List.range' 1 32 := rfl

/-- A page has at most 65536 values, so no bucket reaches into the next (00_scope.md R10). -/
theorem bucketCap_le (p : Params) : bucketCap p ≤ 65536 := by
  have := p.pageBlocks.isLt
  unfold bucketCap pageSize
  omega

/-- The bitmap and the buckets are loaded (R174). -/
theorem loadBuckets_ok {w : Work} {blks : List (List Word)}
    (hcap : ∀ k, (bucketValues blks k).length ≤ bucketCap w.s.params)
    (hsees : w.s.Sees w.ip (bitmapWord blks ::
      bucketNumbers.flatMap fun k => bucketSection k (bucketValues blks k))) :
    ∃ w', loadBuckets w = .ok w' ∧ w.Wrote w' w.op [] ∧
      w'.ip = w.ip + (1 + (bucketNumbers.flatMap fun k =>
        bucketSection k (bucketValues blks k)).length) ∧ w'.op = w.op ∧
      w'.s.scratch = { w.s.scratch with bsize := w'.s.scratch.bsize, bk := w'.s.scratch.bk } ∧
      ∀ k, 1 ≤ k → k ≤ 32 → w'.s.scratch.bsize.get? k = some (bucketValues blks k).length ∧
        Arr.Holds w'.s.scratch.bk (bkIndex k 0) (bucketValues blks k) := by
  obtain ⟨hbitmap, hsections⟩ := sees_cons hsees
  have hp := bucketCap_le w.s.params
  have key := forEach_range'_ok (body := loadBucket (bitmapWord blks))
    (fun k v => w.s.Sees v.ip ((List.range' k (33 - k)).flatMap fun k =>
        bucketSection k (bucketValues blks k)) ∧
      w.Wrote v w.op [] ∧
      v.ip + ((List.range' k (33 - k)).flatMap fun k => bucketSection k (bucketValues blks k)).length =
        w.ip + (1 + (bucketNumbers.flatMap fun k => bucketSection k (bucketValues blks k)).length) ∧
      v.op = w.op ∧
      v.s.scratch = { w.s.scratch with bsize := v.s.scratch.bsize, bk := v.s.scratch.bk } ∧
      (∀ j, k ≤ j → j ≤ 32 → v.s.scratch.bsize.get? j = some 0) ∧
      ∀ j, 1 ≤ j → j < k → v.s.scratch.bsize.get? j = some (bucketValues blks j).length ∧
        Arr.Holds v.s.scratch.bk (bkIndex j 0) (bucketValues blks j)) 32 1
    ((w.took 1).onScratch fun sc => { sc with bsize := sc.bsize.write 1 (List.replicate 32 0) })
    ⟨by rwa [bucketNumbers_eq_range'] at hsections, ((Work.Wrote.refl w w.op).took 1).onScratch _,
      ?_, rfl, rfl, ?_, ?_⟩ ?_
  · obtain ⟨w', hw', _, hwrote, hip, hop, hsc, _, hloaded⟩ := key
    refine ⟨w', ?_, hwrote, by simpa using hip, hop, hsc, fun k h1 h2 => hloaded k h1 (by omega)⟩
    simp only [loadBuckets, takeSrc1_of_sees hbitmap, ok_bind]
    exact hw'
  · rw [onScratch_ip, took_ip, Nat.add_assoc]
    rfl
  · intro j h1 h2
    rw [onScratch_scratch, get?_write, if_pos ⟨h1, by simp; omega⟩, List.getElem?_replicate,
      if_pos (by omega)]
  · intro j h1 h2
    omega
  · rintro k v h1 h2 ⟨hs, hw, hip, hop, hsc, hzero, hloaded⟩
    rw [range'_sub_cons (by omega), List.flatMap_cons] at hs hip
    obtain ⟨hnow, hlater⟩ := sees_append.1 hs
    have hk := hcap k
    obtain ⟨v', hv', hw', hip', hop', hsc', hsize', hsizes', hbk', hlow'⟩ :=
      loadBucket_ok (getLsbD_bitmapWord blks h1 (by omega)) (fun x => toNat_lt_of_mem_bucketValues)
        (by rw [hw.params]; exact hk) (by omega) (hzero k le_rfl (by omega)) (hw.sees hnow)
    refine ⟨v', hv', ?_, ?_, ?_, hop'.trans hop, ?_, ?_, ?_⟩
    · rwa [hip']
    · rw [hop] at hw'
      exact hw.append hw'
    · rw [← hip, hip', List.length_append, Nat.add_assoc]
    · rw [hsc', hsc]
    · intro j hj hj'
      rw [hsizes' j (by omega)]
      exact hzero j (by omega) hj'
    · intro j hj hj'
      by_cases heq : j = k
      · subst heq
        exact ⟨hsize', hbk'⟩
      · obtain ⟨hsize, hbk⟩ := hloaded j hj (by omega)
        refine ⟨(hsizes' j heq).trans hsize, hbk.congr fun i _ hi => hlow' i ?_⟩
        have := hcap j
        unfold bkIndex at hi ⊢
        omega

end Sys2Proof.Machine
end

section
/-! PROOFS. The FastPFOR round trip: a block is decoded from its low bits and the loaded meta section,
the page from its blocks, the stream from its pages (43_fastpfor_decode.md R171, R175 to R182). -/

namespace Sys2Proof.Machine

/-- The byte buffer and the buckets of a page with blocks `blks` stand in scratch (R172 to R174). -/
structure PageLoaded (sc : Scratch) (blks : List (List Word)) : Prop where
  bblen : sc.bblen = some (byteBuffer blks).length
  bytes : Arr.Holds sc.bb 0 (byteBuffer blks)
  buckets : ∀ k, 1 ≤ k → k ≤ 32 → sc.bsize.get? k = some (bucketValues blks k).length ∧
    Arr.Holds sc.bk (bkIndex k 0) (bucketValues blks k)

/-- The decoder has read what the byte buffer and the buckets hold for the blocks `done`. -/
structure PageRead (sc : Scratch) (done : List (List Word)) : Prop where
  bbpos : sc.bbpos = some (byteBuffer done).length
  taken : ∀ k, 1 ≤ k → k ≤ 32 → sc.dp.get? k = some (bucketValues done k).length

section
variable {sc sc' : Scratch} {done rest : List (List Word)} {blk : List Word}

/-- Reading on leaves what is loaded. -/
theorem PageLoaded.congr {blks : List (List Word)} (h : PageLoaded sc blks)
    (hsc : sc' = { sc with bbpos := sc'.bbpos, dp := sc'.dp }) : PageLoaded sc' blks := by
  rw [hsc]
  exact ⟨h.bblen, h.bytes, h.buckets⟩

/-- The record of a block stands behind those of the blocks before it (R88). -/
theorem PageLoaded.record (h : PageLoaded sc (done ++ blk :: rest)) :
    Arr.Holds sc.bb (byteBuffer done).length (blockRecord blk) ∧
      (byteBuffer done).length + (blockRecord blk).length ≤ (byteBuffer (done ++ blk :: rest)).length := by
  have hsplit : byteBuffer (done ++ blk :: rest) =
      byteBuffer done ++ (blockRecord blk ++ byteBuffer rest) := by
    rw [byteBuffer_append]
    rfl
  have hbytes := h.bytes
  rw [hsplit] at hbytes ⊢
  obtain ⟨_, hrest⟩ := holds_append.1 hbytes
  obtain ⟨hrecord, _⟩ := holds_append.1 hrest
  rw [Nat.zero_add] at hrecord
  exact ⟨hrecord, by simp only [List.length_append]; omega⟩

/-- The values of a block in a bucket stand behind those of the blocks before it (R90). -/
theorem PageLoaded.values (h : PageLoaded sc (done ++ blk :: rest)) {k : Nat} (h1 : 1 ≤ k) (h2 : k ≤ 32) :
    ∃ n, sc.bsize.get? k = some n ∧ (bucketValues done k).length + (bucketValues [blk] k).length ≤ n ∧
      Arr.Holds sc.bk (bkIndex k (bucketValues done k).length) (bucketValues [blk] k) := by
  obtain ⟨hsize, hvals⟩ := h.buckets k h1 h2
  have hsplit : bucketValues (done ++ blk :: rest) k =
      bucketValues done k ++ (bucketValues [blk] k ++ bucketValues rest k) := by
    rw [← bucketValues_append, ← bucketValues_append]; rfl
  rw [hsplit] at hsize hvals
  obtain ⟨_, hrest⟩ := holds_append.1 hvals
  obtain ⟨hblk, _⟩ := holds_append.1 hrest
  exact ⟨_, hsize, by simp only [List.length_append]; omega, hblk⟩

end

/-! ### Steps of the decoder -/

/-- The next byte of the byte buffer (R179). -/
theorem bbGet_ok {w : Work} {p n : Nat} {y : Byte} (hpos : w.s.scratch.bbpos = some p)
    (hlen : w.s.scratch.bblen = some n) (hlt : p < n) (hy : w.s.scratch.bb.get? p = some y) :
    bbGet w = .ok (y, w.onScratch fun sc => { sc with bbpos := some (p + 1) }) := by
  have hp : w.s.scratch.bbPos = p := by rw [Scratch.bbPos, hpos, Option.getD_some]
  have hn : w.s.scratch.bbLen = n := by rw [Scratch.bbLen, hlen, Option.getD_some]
  refine bbGet_eq_ok.2 ⟨by omega, ?_⟩
  rw [Work.onScratch, Work.onScratch, hp, Scratch.bbAt, hy, Option.getD_some]

/-- The next exception in scratch for bucket `idx`: its position, the byte at `p`, and its value, entry
`d` of the bucket (R177). -/
structure NextException (sc : Scratch) (idx p d : Nat) (pos : Byte) (val : Word) : Prop where
  bbpos : sc.bbpos = some p
  inBuffer : ∃ n, sc.bblen = some n ∧ p < n
  byte : sc.bb.get? p = some pos
  dp : sc.dp.get? idx = some d
  inBucket : ∃ k, sc.bsize.get? idx = some k ∧ d < k
  entry : sc.bk.get? (bkIndex idx d) = some val

/-- One multiplex step takes the next exception and ORs it into its place (R177). -/
theorem multiplex_eq_orDst {w : Work} {idx p d : Nat} {pos : Byte} {val : Word}
    (h : NextException w.s.scratch idx p d pos val) (hpos : pos.toNat < 128) (b : Nat) :
    multiplex idx b w = orDst (w.op + pos.toNat) (shl32 val b)
      (w.onScratch fun sc => { sc with bbpos := some (p + 1), dp := sc.dp.write idx [d + 1] }) := by
  obtain ⟨hbbpos, ⟨n, hn, hp⟩, hbyte, hdp, ⟨k, hk, hd⟩, hval⟩ := h
  have hcheck (v : Work) (c : Cause) (i : Nat) : v.check true c i = .ok () := check_eq_ok.2 rfl
  have hdpAt (y : Option Nat) : Scratch.dpAt { w.s.scratch with bbpos := y } idx = d := by
    rw [Scratch.dpAt, hdp, Option.getD_some]
  have hsizeAt (y : Option Nat) : Scratch.bsizeAt { w.s.scratch with bbpos := y } idx = k := by
    rw [Scratch.bsizeAt, hk, Option.getD_some]
  have hbkAt (y : Option Nat) : Scratch.bkAt { w.s.scratch with bbpos := y } idx d = val := by
    rw [Scratch.bkAt, hval, Option.getD_some]
  simp only [multiplex, bbGet_ok hbbpos hn hp hbyte, ok_bind, onScratch_scratch, hdpAt, hsizeAt, hbkAt,
    hpos, hd, decide_true, hcheck]
  rfl

section
variable {w w1 v : Work} {done rest : List (List Word)} {blk : List Word} {t : Nat}

/-- The record of a block with exceptions (R88). -/
theorem blockRecord_of_pos (hc : (fpfSelected blk).2.1 > 0) :
    blockRecord blk = BitVec.ofNat 8 (fpfSelected blk).1 :: BitVec.ofNat 8 (fpfSelected blk).2.1 ::
      BitVec.ofNat 8 (fpfSelected blk).2.2 ::
        (exceptionPositions blk (fpfSelected blk).1).map (BitVec.ofNat 8) := by
  simp [blockRecord, hc]

/-- The record of a block without exceptions (R88). -/
theorem blockRecord_of_zero (hc : ¬ (fpfSelected blk).2.1 > 0) :
    blockRecord blk = [BitVec.ofNat 8 (fpfSelected blk).1, BitVec.ofNat 8 (fpfSelected blk).2.1] := by
  simp [blockRecord, hc]

/-- How many values the blocks `done ++ [blk]` put in a bucket. -/
theorem length_bucketValues_append_singleton (k : Nat) :
    (bucketValues (done ++ [blk]) k).length = (bucketValues done k).length +
      if (fpfSelected blk).2.1 > 0 ∧ (fpfSelected blk).2.2 - (fpfSelected blk).1 = k then
        (fpfSelected blk).2.1 else 0 := by
  obtain ⟨_, _, hcount, _⟩ := fpfSelected_fits blk
  rw [bucketValues_append, List.length_append, bucketValues_singleton]
  split
  · rw [length_exceptionHighs, length_exceptionPositions, ← hcount]
  · rfl

/-- The decoder has merged the first `t` exceptions of the block `blk`, which follows the blocks
`done`; it began at `w`. -/
structure MergedSoFar (w w1 : Work) (done rest : List (List Word)) (blk : List Word) (t : Nat) (v : Work) :
    Prop where
  wrote : w.Wrote v w.op
    (mergedBlock blk (fpfSelected blk).1 ((exceptionPositions blk (fpfSelected blk).1).take t))
  ip : v.ip = w1.ip
  op : v.op = w.op
  loaded : PageLoaded v.s.scratch (done ++ blk :: rest)
  bbpos : v.s.scratch.bbpos = some ((byteBuffer done).length + 3 + t)
  taken : ∀ k, 1 ≤ k → k ≤ 32 → v.s.scratch.dp.get? k = some ((bucketValues done k).length +
    if (fpfSelected blk).2.2 - (fpfSelected blk).1 = k then t else 0)

/-- The exception that comes next, where the block has another one. -/
theorem MergedSoFar.next (h : MergedSoFar w w1 done rest blk t v)
    (ht : t < (exceptionPositions blk (fpfSelected blk).1).length)
    (ht' : t < (exceptionHighs blk (fpfSelected blk).1).length) :
    NextException v.s.scratch ((fpfSelected blk).2.2 - (fpfSelected blk).1)
      ((byteBuffer done).length + 3 + t)
      ((bucketValues done ((fpfSelected blk).2.2 - (fpfSelected blk).1)).length + t)
      (BitVec.ofNat 8 (exceptionPositions blk (fpfSelected blk).1)[t])
      (exceptionHighs blk (fpfSelected blk).1)[t] := by
  have hfits := fpfSelected_fits blk
  have htop := hfits.top
  have hc : (fpfSelected blk).2.1 > 0 := by
    rw [hfits.count, ← length_exceptionPositions]
    omega
  have hlt := hfits.lt hc
  obtain ⟨hrecord, hshort⟩ := h.loaded.record
  obtain ⟨n, hsize, hn, hvals⟩ := h.loaded.values
    (show 1 ≤ (fpfSelected blk).2.2 - (fpfSelected blk).1 by omega) (by omega)
  rw [bucketValues_singleton, if_pos ⟨hc, rfl⟩] at hn hvals
  rw [blockRecord_of_pos hc] at hrecord hshort
  simp only [holds_cons, Nat.add_assoc] at hrecord
  obtain ⟨_, _, _, hpositions⟩ := hrecord
  simp only [List.length_cons, List.length_map] at hshort
  have hbyte := hpositions.get? (j := t) (by simpa using ht)
  rw [List.getElem_map] at hbyte
  have hentry := hvals.get? ht'
  refine ⟨h.bbpos, ⟨_, h.loaded.bblen, by omega⟩, ?_, ?_, ⟨n, hsize, by omega⟩, ?_⟩
  · simpa [Nat.add_assoc] using hbyte
  · simpa using h.taken _ (show 1 ≤ (fpfSelected blk).2.2 - (fpfSelected blk).1 by omega) (by omega)
  · rwa [bkIndex_eq_add, ← Nat.add_assoc, ← bkIndex_eq_add]

/-- One multiplex step merges the next exception of a block (R177). -/
theorem MergedSoFar.step (h : MergedSoFar w w1 done rest blk t v) (hlen : blk.length = 128)
    (hroom : w.op + 128 ≤ w.s.params.dstLen.toNat)
    (ht : t < (exceptionPositions blk (fpfSelected blk).1).length) :
    ∃ v', multiplex ((fpfSelected blk).2.2 - (fpfSelected blk).1) (fpfSelected blk).1 v = .ok v' ∧
      MergedSoFar w w1 done rest blk (t + 1) v' := by
  have ht' := ht.trans_eq (length_exceptionHighs blk _).symm
  have hlt := getElem_exceptionPositions_lt ht
  have hpos : (BitVec.ofNat 8 (exceptionPositions blk (fpfSelected blk).1)[t]).toNat =
      (exceptionPositions blk (fpfSelected blk).1)[t] := by
    rw [BitVec.toNat_ofNat, Nat.mod_eq_of_lt (by omega)]
  have hstep := multiplex_eq_orDst (h.next ht ht') (by omega) (fpfSelected blk).1
  obtain ⟨v', hv', hwrote, hip, hop, hsc⟩ := (h.wrote.onScratch _).orException ht ht' (by rwa [hlen])
  rw [hpos, h.op, hv'] at hstep
  refine ⟨v', hstep, hwrote, hip.trans h.ip, hop.trans h.op, ?_, ?_, ?_⟩
  · exact h.loaded.congr (by rw [hsc]; rfl)
  · rw [hsc]; rfl
  · intro k h1 h2
    rw [hsc, onScratch_scratch, get?_write_one]
    by_cases hk : k = (fpfSelected blk).2.2 - (fpfSelected blk).1
    · subst hk; simp [Nat.add_assoc]
    · rw [if_neg hk, h.taken k h1 h2, if_neg (Ne.symm hk), if_neg (Ne.symm hk)]

/-- With every exception merged the block is complete, and its record and its values are read. -/
theorem MergedSoFar.complete (h : MergedSoFar w w1 done rest blk (fpfSelected blk).2.1 v)
    (hc : (fpfSelected blk).2.1 > 0) :
    w.Wrote v w.op blk ∧ PageRead v.s.scratch (done ++ [blk]) := by
  obtain ⟨_, _, hcount, _⟩ := fpfSelected_fits blk
  rw [← length_exceptionPositions] at hcount
  have hwrote := h.wrote
  rw [List.take_of_length_le hcount.ge, mergedBlock_all] at hwrote
  refine ⟨hwrote, ?_, fun k h1 h2 => ?_⟩
  · rw [h.bbpos, byteBuffer_append, List.length_append, byteBuffer_singleton, blockRecord_of_pos hc]
    simp only [List.length_cons, List.length_map, ← hcount]
    congr 1
    omega
  · rw [h.taken k h1 h2, length_bucketValues_append_singleton]
    simp only [hc, true_and]

/-- The exceptions of a block whose low bits are written are merged (R176). -/
theorem mergeExceptions_ok (hlen : blk.length = 128)
    (hw : w.Wrote w1 w.op (mergedBlock blk (fpfSelected blk).1 [])) (hop : w1.op = w.op)
    (hroom : w.op + 128 ≤ w.s.params.dstLen.toNat)
    (hloaded : PageLoaded w1.s.scratch (done ++ blk :: rest))
    (hpos : w1.s.scratch.bbpos = some ((byteBuffer done).length + 2))
    (htaken : ∀ k, 1 ≤ k → k ≤ 32 → w1.s.scratch.dp.get? k = some (bucketValues done k).length) :
    ∃ w', mergeExceptions (fpfSelected blk).1 (fpfSelected blk).2.1 w1 = .ok w' ∧
      w.Wrote w' w.op blk ∧ w'.ip = w1.ip ∧ w'.op = w.op ∧
      PageLoaded w'.s.scratch (done ++ blk :: rest) ∧ PageRead w'.s.scratch (done ++ [blk]) := by
  have hfits := fpfSelected_fits blk
  have hcount := hfits.count.trans (length_exceptionPositions blk _).symm
  by_cases hc : (fpfSelected blk).2.1 > 0
  · obtain ⟨hrecord, hshort⟩ := hloaded.record
    rw [blockRecord_of_pos hc] at hrecord hshort
    simp only [holds_cons, Nat.add_assoc] at hrecord
    obtain ⟨_, _, hm, _⟩ := hrecord
    simp only [List.length_cons] at hshort
    have hlt := hfits.lt hc
    have htop := hfits.top
    have hmval : (BitVec.ofNat 8 (fpfSelected blk).2.2).toNat = (fpfSelected blk).2.2 := by
      rw [BitVec.toNat_ofNat, Nat.mod_eq_of_lt (by omega)]
    have hget := bbGet_ok hpos hloaded.bblen (by omega) hm
    have hcheck (u : Work) (i : Nat) : u.check (decide ((fpfSelected blk).1 < (fpfSelected blk).2.2 ∧
        (fpfSelected blk).2.2 ≤ 32)) .badMaxb i = .ok () := check_eq_ok.2 (by simp [hlt, htop])
    obtain ⟨w', hw', hmerged⟩ := iter_ok (MergedSoFar w w1 done rest blk) (fpfSelected blk).2.1
      (w1.onScratch fun sc => { sc with bbpos := some ((byteBuffer done).length + 2 + 1) })
      ⟨by simpa using hw.onScratch _, rfl, hop, hloaded.congr rfl, rfl, by simpa using htaken⟩
      fun t v ht h => h.step hlen hroom (by omega)
    obtain ⟨hwrote, hread⟩ := hmerged.complete hc
    refine ⟨w', ?_, hwrote, hmerged.ip, hmerged.op, hmerged.loaded, hread⟩
    simp only [mergeExceptions, hc, if_true, hget, ok_bind, hmval, hcheck, hw']
  · have hnone : exceptionPositions blk (fpfSelected blk).1 = [] := List.length_eq_zero_iff.1 (by omega)
    refine ⟨w1, by simp [mergeExceptions, hc], ?_, rfl, hop, hloaded, ?_, fun k h1 h2 => ?_⟩
    · rwa [← hnone, mergedBlock_all] at hw
    · rw [hpos, byteBuffer_append, List.length_append, byteBuffer_singleton, blockRecord_of_zero hc]
      rfl
    · rw [htaken k h1 h2, length_bucketValues_append_singleton]
      simp [hc]

/-- A block is decoded from its low bits and what is loaded (R176). -/
theorem fpfDecodeBlock_ok (hlen : blk.length = 128)
    (hsees : w.s.Sees w.ip (lowBitsWords blk (fpfSelected blk).1))
    (hroom : w.op + 128 ≤ w.s.params.dstLen.toNat)
    (hloaded : PageLoaded w.s.scratch (done ++ blk :: rest)) (hread : PageRead w.s.scratch done) :
    ∃ w', fpfDecodeBlock w = .ok w' ∧ w.Wrote w' w.op blk ∧
      w'.ip = w.ip + (lowBitsWords blk (fpfSelected blk).1).length ∧ w'.op = w.op + blk.length ∧
      PageLoaded w'.s.scratch (done ++ blk :: rest) ∧ PageRead w'.s.scratch (done ++ [blk]) := by
  obtain ⟨horder, htop, _, hsmall, _⟩ := fpfSelected_fits blk
  obtain ⟨hrecord, hshort⟩ := hloaded.record
  have hhead : blockRecord blk = [BitVec.ofNat 8 (fpfSelected blk).1, BitVec.ofNat 8 (fpfSelected blk).2.1] ++
      (blockRecord blk).drop 2 := rfl
  rw [hhead] at hrecord hshort
  simp only [List.cons_append, List.nil_append, holds_cons] at hrecord
  simp only [List.cons_append, List.nil_append, List.length_cons] at hshort
  obtain ⟨hb, hc, _⟩ := hrecord
  have hbval : (BitVec.ofNat 8 (fpfSelected blk).1).toNat = (fpfSelected blk).1 := by
    rw [BitVec.toNat_ofNat, Nat.mod_eq_of_lt (by omega)]
  have hcval : (BitVec.ofNat 8 (fpfSelected blk).2.1).toNat = (fpfSelected blk).2.1 := by
    rw [BitVec.toNat_ofNat, Nat.mod_eq_of_lt (by omega)]
  let w1 : Work := w.onScratch fun sc => { sc with bbpos := some ((byteBuffer done).length + 1) }
  let w2 : Work := w1.onScratch fun sc => { sc with bbpos := some ((byteBuffer done).length + 1 + 1) }
  have hget1 : bbGet w = .ok (_, w1) := bbGet_ok hread.bbpos hloaded.bblen (by omega) hb
  have hget2 : bbGet w1 = .ok (_, w2) := bbGet_ok rfl hloaded.bblen (by omega) hc
  have hwidth : w2.check (decide ((fpfSelected blk).1 ≤ 32)) .badWidth (fpfSelected blk).1 = .ok () :=
    check_eq_ok.2 (decide_eq_true (by omega))
  have hexcept : w2.check (decide ((fpfSelected blk).2.1 ≤ 128)) .badExceptCount (fpfSelected blk).2.1 =
      .ok () := check_eq_ok.2 (decide_eq_true (by omega))
  obtain ⟨w3, h3, hw3, hip3, hop3, hsc3⟩ := unpackBlock_lowBits (w := w2) hlen (hsees.congr rfl rfl) hroom
  obtain ⟨w4, h4, hw4, hip4, hop4, hloaded4, hread4⟩ := mergeExceptions_ok (w := w2) (done := done)
    (rest := rest) hlen hw3 hop3 hroom (by rw [hsc3]; exact hloaded.congr rfl) (by rw [hsc3]; rfl)
    (by rw [hsc3]; exact hread.taken)
  refine ⟨{ w4 with op := w4.op + 128 }, ?_, ?_, ?_, ?_, hloaded4, hread4⟩
  · simp only [fpfDecodeBlock, hget1, ok_bind, hget2, hbval, hcval, hwidth, hexcept, h3, h4]
  · exact ((((Work.Wrote.refl w w.op).onScratch _).onScratch _).after_quiet hw4).then_quiet rfl
  · exact hip4.trans hip3
  · rw [hlen]
    exact congrArg (· + 128) hop4

end

/-! ### Pages -/

/-- The blocks of a page are decoded one after another (R175). -/
theorem fpfDecodeBlocks_ok {todo : List (List Word)} (hlen : ∀ blk ∈ todo, blk.length = 128)
    {done : List (List Word)} {w : Work} (hsees : w.s.Sees w.ip (lowBitsSection todo))
    (hroom : w.op + todo.flatten.length ≤ w.s.params.dstLen.toNat)
    (hloaded : PageLoaded w.s.scratch (done ++ todo)) (hread : PageRead w.s.scratch done) :
    ∃ w', iter fpfDecodeBlock todo.length w = .ok w' ∧ w.Wrote w' w.op todo.flatten ∧
      w'.op = w.op + todo.flatten.length := by
  induction todo generalizing done w with
  | nil => exact ⟨w, rfl, .refl w _, rfl⟩
  | cons blk rest ih =>
    have hblk := hlen blk (by simp)
    rw [lowBitsSection, List.flatMap_cons] at hsees
    obtain ⟨hnow, hlater⟩ := sees_append.1 hsees
    rw [List.flatten_cons, List.length_append] at hroom ⊢
    obtain ⟨w1, h1, hw1, hip1, hop1, hloaded1, hread1⟩ :=
      fpfDecodeBlock_ok hblk hnow (by omega) hloaded hread
    obtain ⟨w2, h2, hw2, hop2⟩ := ih (fun x hx => hlen x (by simp [hx])) (done := done ++ [blk])
      (by rw [hip1]; exact hw1.sees hlater) (by rw [hop1, hw1.params]; omega) (by simpa using hloaded1) hread1
    refine ⟨w2, ?_, ?_, ?_⟩
    · rw [List.length_cons, iter_succ, h1, ok_bind, h2]
    · rw [hop1] at hw2
      exact hw1.append hw2
    · rw [hop2, hop1, Nat.add_assoc]

/-- The bytes of a page fit `BYTEBUF_CAP` (00_scope.md R10). -/
theorem byteBuffer_fits {p : Params} {blks : List (List Word)} (h : 128 * blks.length ≤ pageSize p) :
    4 * ceilDiv (byteBuffer blks).length 4 ≤ byteBufCap p := by
  have := length_byteBuffer_le blks
  unfold pageSize at h
  unfold byteBufCap ceilDiv pageSize
  omega

/-- The values of a page fit `BUCKET_CAP` (00_scope.md R10). -/
theorem bucketValues_fit {p : Params} {blks : List (List Word)} (h : 128 * blks.length ≤ pageSize p)
    (k : Nat) : (bucketValues blks k).length ≤ bucketCap p := by
  have := length_bucketValues_le blks k
  unfold bucketCap
  omega

theorem clearDp_get? (sc : Scratch) {k : Nat} (h : k ≤ 32) : sc.clearDp.dp.get? k = some 0 := by
  rw [Scratch.clearDp, get?_write, if_pos ⟨Nat.zero_le k, by simp; omega⟩, List.getElem?_replicate,
    if_pos (by omega)]

/-- The meta section of a page is loaded (R172 to R174). -/
theorem loadMeta_ok {w : Work} {blks : List (List Word)} (hsize : 128 * blks.length ≤ pageSize w.s.params)
    (hsees : w.s.Sees w.ip
      ((BitVec.ofNat 32 (byteBuffer blks).length :: byteWords (byteBuffer blks)) ++ (bitmapWord blks ::
        bucketNumbers.flatMap fun k => bucketSection k (bucketValues blks k)))) :
    ∃ w1 w2, loadBytes w = .ok w1 ∧ loadBuckets w1 = .ok w2 ∧ w.Wrote w2 w.op [] ∧
      w2.ip = w.ip + (2 + (byteWords (byteBuffer blks)).length +
        (bucketNumbers.flatMap fun k => bucketSection k (bucketValues blks k)).length) ∧
      w2.op = w.op ∧ PageLoaded w2.s.scratch blks ∧ w2.s.scratch.bbpos = some 0 := by
  obtain ⟨hbuffer, hbuckets⟩ := sees_append.1 hsees
  have hlt := bucketCap_le w.s.params
  rw [show bucketCap w.s.params = pageSize w.s.params from rfl] at hlt
  have hbytes := length_byteBuffer_le blks
  obtain ⟨w1, h1, hw1, hip1, hop1, hbblen, hbbpos, hbb⟩ := loadBytes_ok (by omega)
    (byteBuffer_fits hsize) hbuffer
  rw [List.length_cons, Nat.add_comm _ 1, ← hip1] at hbuckets
  obtain ⟨w2, h2, hw2, hip2, hop2, hsc2, hloaded2⟩ := loadBuckets_ok
    (by rw [hw1.params]; exact bucketValues_fit hsize) (hw1.sees hbuckets)
  rw [hop1] at hw2
  refine ⟨w1, w2, h1, h2, hw1.append hw2, by omega, hop2.trans hop1, ⟨?_, ?_, hloaded2⟩, ?_⟩
  · rw [hsc2]; exact hbblen
  · rw [hsc2]; exact hbb
  · rw [hsc2]; exact hbbpos

/-- A page is its head word, the low bits and the meta section (R85). -/
theorem pageImage_eq (blks : List (List Word)) :
    pageImage blks = [BitVec.ofNat 32 (1 + (lowBitsSection blks).length)] ++ (lowBitsSection blks ++
      ((BitVec.ofNat 32 (byteBuffer blks).length :: byteWords (byteBuffer blks)) ++ (bitmapWord blks ::
        bucketNumbers.flatMap fun k => bucketSection k (bucketValues blks k)))) := by
  simp [pageImage]

/-- The page image of a page's values is decoded to them (R182(a)). -/
theorem decodesTo_fpfDecodePage {p : Params} {vs : List Word} (hsize : vs.length ≤ pageSize p)
    (h128 : vs.length % 128 = 0) :
    DecodesTo p (fpfDecodePage vs.length) (pageImage (blocksOf vs)) vs := by
  rintro w rfl hsees hroom
  have hlt := bucketCap_le w.s.params
  rw [show bucketCap w.s.params = pageSize w.s.params from rfl] at hlt
  have hblks : 128 * (blocksOf vs).length ≤ pageSize w.s.params := by rw [length_blocksOf]; omega
  have hlows := length_lowBitsSection_le (blocksOf vs)
  have hhead : (BitVec.ofNat 32 (1 + (lowBitsSection (blocksOf vs)).length)).toNat =
      1 + (lowBitsSection (blocksOf vs)).length := by
    rw [BitVec.toNat_ofNat, Nat.mod_eq_of_lt (by omega)]
  rw [pageImage_eq] at hsees ⊢
  obtain ⟨hfirst, hrest⟩ := sees_append.1 hsees
  obtain ⟨hlow, hmeta⟩ := sees_append.1 hrest
  rw [Nat.add_assoc] at hmeta
  obtain ⟨w2, w3, h2, h3, hw3, hip3, hop3, hloaded, hbbpos⟩ := loadMeta_ok
    (w := ⟨w.s.draw 1, w.ip + (1 + (lowBitsSection (blocksOf vs)).length), w.op⟩) hblks (hmeta.congr rfl rfl)
  have hquiet : w.Wrote w3 w.op [] := Work.Wrote.after_quiet (.quiet (by rfl) w.op) hw3
  let w4 : Work := { w3 with ip := w.ip + 1 }.onScratch Scratch.clearDp
  have hw4 : w.Wrote w4 w.op [] := Work.Wrote.onScratch (hquiet.then_quiet (by rfl)) _
  obtain ⟨w5, h5, hw5, hop5⟩ := fpfDecodeBlocks_ok (todo := blocksOf vs) (done := []) (w := w4)
    (fun blk => length_of_mem_blocksOf) (hw4.sees hlow)
    (by rw [flatten_blocksOf h128, hw4.params]; exact hop3 ▸ hroom) (hloaded.congr rfl)
    ⟨hbbpos, fun k _ h => clearDp_get? _ h⟩
  rw [length_blocksOf] at h5
  rw [flatten_blocksOf h128] at hw5 hop5
  refine ⟨{ w5 with ip := w3.ip }, ?_, ?_, ?_, ?_⟩
  · simp only [fpfDecodePage, readSrc1_of_sees hfirst, ok_bind, hhead, h2, h3]
    rw [h5, ok_bind]
  · rw [show w4.op = w.op from hop3] at hw5
    exact (hw4.after_quiet hw5).then_quiet rfl
  · simp only [hip3, List.length_append, List.length_cons, List.length_nil]
    omega
  · exact hop5.trans (congrArg (· + vs.length) hop3)

/-- Settles O46: page after page the page image is decoded to the page's values. -/
theorem fpfUncompressReversesTheStream : Obligations.FpfUncompressReversesTheStream := by
  intro s ip op vs hs hinlen h128 hlt hsrc hbound hroom
  have hpages := decodesTo_forPages (size := pageSize s.params) (Nat.mul_pos (by decide) (Nat.succ_pos _))
    (Nat.mul_mod_right _ _) (fun vs hsize h => decodesTo_fpfDecodePage hsize h) h128
  have := uncompress_completes hpages hs hinlen h128 hlt ⟨hsrc, hbound⟩ hroom
  rwa [Nat.add_comm] at this

end Sys2Proof.Machine
end

section
/-! PROOFS. The selectors read no scratch that they have not written: their results are those of the
block alone (10_state.md R36, R38; 41_fastpfor_selector.md R122; 44_optpfd.md R206). -/

namespace Sys2Proof.Machine

/-! ### The FastPFOR selector -/

section
variable {freqs freqs' : Arr Nat} (h : ∀ w, w ≤ 32 → freqAt freqs w = freqAt freqs' w)
include h

theorem largestUsed_congr {top : Nat} (htop : top ≤ 32) : largestUsed freqs top = largestUsed freqs' top := by
  induction top with
  | zero => rfl
  | succ w ih => simp only [largestUsed, h (w + 1) htop, ih (by omega)]

theorem fpfDescend_congr (maxb : Nat) {n : Nat} (hn : n ≤ 32) (c : Nat) (best : Choice) :
    fpfDescend freqs maxb n c best = fpfDescend freqs' maxb n c best := by
  induction n generalizing c best with
  | zero => rfl
  | succ b ih => simp only [fpfDescend, h (b + 1) hn, ih (by omega)]

/-- The choice depends on the counters 0 to 32 alone. -/
theorem fpfChoose_congr : fpfChoose freqs = fpfChoose freqs' := by
  have hle := largestUsed_le freqs' 32
  simp only [fpfChoose, largestUsed_congr h le_rfl, fpfDescend_congr h _ hle]

end

/-- The FastPFOR selector gives a block the same results whatever scratch holds (R122). -/
theorem fpfSelect_fst (sc : Scratch) (blk : List Word) : (fpfSelect sc blk).1 = fpfSelected blk :=
  fpfChoose_congr fun _ hw => (freqAt_histogram _ blk hw).trans (freqAt_histogram [] blk hw).symm

/-! ### Staging the exceptions of a block -/

theorem exceptionPositions_cons (v : Word) (vs : List Word) (b : Nat) :
    exceptionPositions (v :: vs) b =
      if high v b ≠ 0 then 0 :: (exceptionPositions vs b).map (· + 1)
      else (exceptionPositions vs b).map (· + 1) := by
  simp only [exceptionPositions, List.length_cons, List.range_succ_eq_map, List.filter_cons,
    List.getD_cons_zero, decide_eq_true_eq, List.filter_map]
  rfl

theorem exceptionHighs_cons (v : Word) (vs : List Word) (b : Nat) :
    exceptionHighs (v :: vs) b =
      if high v b ≠ 0 then BitVec.ofNat 32 (high v b) :: exceptionHighs vs b
      else exceptionHighs vs b := by
  by_cases hv : high v b = 0 <;> simp [exceptionHighs, hv]

/-- The staging loop writes the high parts from `c` on and the positions, counted from `k`, from
`n + c` on, and leaves what was staged before (R206). -/
theorem stageFrom_holds (b n : Nat) {vs : List Word} {k c : Nat} {eb : Arr Word}
    (hroom : c + above vs b ≤ n) :
    Arr.Holds (stageFrom b n k c vs eb) c (exceptionHighs vs b) ∧
      Arr.Holds (stageFrom b n k c vs eb) (n + c)
        ((exceptionPositions vs b).map fun p => BitVec.ofNat 32 (k + p)) ∧
      ∀ i, i < c ∨ n ≤ i ∧ i < n + c → (stageFrom b n k c vs eb).get? i = eb.get? i := by
  induction vs generalizing k c eb with
  | nil => exact ⟨holds_nil _ _, holds_nil _ _, fun _ _ => rfl⟩
  | cons v vs ih =>
    have hshift : (fun p => BitVec.ofNat 32 (k + p)) ∘ (· + 1) =
        fun p => BitVec.ofNat 32 (k + 1 + p) := by
      funext p
      rw [Function.comp_apply, Nat.add_assoc, Nat.add_comm 1]
    rw [exceptionHighs_cons, exceptionPositions_cons, stageFrom]
    by_cases hv : high v b = 0
    · have habove : above (v :: vs) b = above vs b := by simp [above, hv]
      simp only [hv, ne_eq, not_true_eq_false, if_false, List.map_map, hshift]
      exact ih (by omega)
    · have habove : above (v :: vs) b = above vs b + 1 := by simp [above, hv]
      simp only [hv, ne_eq, not_false_eq_true, if_true, List.map_cons, List.map_map, hshift]
      obtain ⟨hhighs, hpositions, hkept⟩ := ih (k := k + 1) (c := c + 1)
        (eb := (eb.write c [BitVec.ofNat 32 (high v b)]).write (n + c) [BitVec.ofNat 32 k]) (by omega)
      refine ⟨holds_cons.2 ⟨?_, hhighs⟩, holds_cons.2 ⟨?_, hpositions⟩, fun i hi => ?_⟩
      · rw [hkept c (by omega), get?_write_one, if_neg (by omega), get?_write_one, if_pos rfl]
      · rw [hkept (n + c) (by omega), get?_write_one, if_pos rfl, Nat.add_zero]
      · rw [hkept i (by omega), get?_write_one, if_neg (by omega), get?_write_one, if_neg (by omega)]

/-- What the coder is handed is what the block has staged, whatever `EB` held (R206, R94). -/
theorem ebList_opdStage (blk : List Word) (b : Nat) (sc : Scratch) :
    (opdStage blk b (above blk b) sc).ebList (2 * above blk b) = optStaged blk b := by
  obtain ⟨hhighs, hpositions, _⟩ := stageFrom_holds b (above blk b) (vs := blk) (k := 0) (c := 0)
    (eb := sc.eb) (by omega)
  simp only [Nat.zero_add, Nat.add_zero] at hhighs hpositions
  have hheld : Arr.Holds (opdStage blk b (above blk b) sc).eb 0 (optStaged blk b) := by
    refine holds_append.2 ⟨hhighs, ?_⟩
    rwa [length_exceptionHighs, length_exceptionPositions, Nat.zero_add]
  refine List.ext_getElem (by simp [Scratch.ebList]) fun i _ hi => ?_
  have hget := hheld.get? hi
  rw [Nat.zero_add] at hget
  simp only [Scratch.ebList, List.getElem_map, List.getElem_range]
  exact ebAt_of_get? hget

/-! ### The OptPFD selector -/

/-- The walk chooses the same whatever scratch holds (R206). -/
theorem opdWalk_fst (S : S16) (blk : List Word) (lo steps : Nat) (best : OptChoice) (sc sc' : Scratch) :
    (opdWalk S blk lo steps best sc).1 = (opdWalk S blk lo steps best sc').1 := by
  induction steps generalizing best sc sc' with
  | zero => rfl
  | succ k ih =>
    simp only [opdWalk, countHigh_eq_above, ebList_opdStage]
    split
    · exact ih _ _ _
    · split <;> exact ih _ _ _

/-- The OptPFD selector gives a block the same results whatever scratch holds (R206). -/
theorem opdSelect_fst (S : S16) (sc : Scratch) (blk : List Word) :
    (opdSelect S sc blk).1 = optSelected S blk := by
  simp only [optSelected, opdSelect,
    opdWalk_fst S blk (opdMini (maxBitlen blk)) _ _ sc Scratch.unspecified]

end Sys2Proof.Machine
end

section
/-! PROOFS. What each command does, said once for all of them: a command other than `SRESET` runs one
of five bodies in the frame of `runCommand`, and completes, is refused, or takes a fault
(60_exceptions.md R250 to R256). -/

namespace Sys2Proof.Machine

/-! ### The five bodies -/

/-- A `PACK32` or `UNPACK32` that takes `n` words and puts what `f` makes of them
(40_bitpacking.md R105, R106). -/
def groupBody (n : Nat) (f : List Word → List Word) (s : State) : Except Trap State := do
  let (v, w) ← s.start.takeSrc n
  let w1 ← w.putDst (f v)
  .ok w1.commit

/-- A `SELECT` with the selector `select` (41_fastpfor_selector.md R120, 44_optpfd.md R205). -/
def selectBody (select : Scratch → List Word → (Nat × Nat × Nat) × Scratch) (s : State) :
    Except Trap State := do
  let (blk, w) ← s.start.readSrc s.start.ip 128
  let r := select w.s.scratch blk
  .ok ((w.onScratch fun _ => r.2).commitSelect r.1.1 r.1.2.1 r.1.2.2)

/-- A page command with the page procedure `page` (42_fastpfor_encode.md R140, 43_fastpfor_decode.md
R170, 44_optpfd.md R210, R220). -/
def pageBody (page : Nat → Work → Except Trap Work) (limit : Nat) (s : State) : Except Trap State := do
  let _ ← checkThissize s limit
  let w ← page s.thissize.toNat s.start
  .ok w.commit

/-- What a command runs while `STATUS.FAULT` is 0 (60_exceptions.md R252). -/
def commandBody (i : Instr) (s : State) : Except Trap State :=
  match i with
  | .sreset => .ok (softReset s)
  | .pack32 w =>
    if w.toNat > 32 then illegalCommand (encode (.pack32 w)) s
    else groupBody 32 (pack32 · w.toNat) s
  | .unpack32 w =>
    if w.toNat > 32 then illegalCommand (encode (.unpack32 w)) s
    else groupBody w.toNat (unpack32 · w.toNat) s
  | .fpfSelect => selectBody fpfSelect s
  | .fpfEncpage => pageBody fpfEncodePage (pageSize s.params) s
  | .fpfDecpage => pageBody fpfDecodePage (pageSize s.params) s
  | .fpfCompress => compressBody fpfEncodePage (pageSize s.params) s
  | .fpfUncompress => uncompressBody fpfDecodePage (pageSize s.params) s
  | .opdSelect => selectBody (opdSelect Config.s16) s
  | .opdEncpage => pageBody (opdEncodePage Config.s16) Config.opdPageSize s
  | .opdDecpage => pageBody (opdDecodePage Config.s16) Config.opdPageSize s
  | .opdCompress => compressBody (opdEncodePage Config.s16) Config.opdPageSize s
  | .opdUncompress => uncompressBody (opdDecodePage Config.s16) Config.opdPageSize s

theorem exec_sreset (s : State) : exec .sreset s = .next (softReset s) := rfl

/-- Every command but `SRESET` runs its body in the frame. -/
theorem exec_eq_runCommand {i : Instr} (hi : i ≠ .sreset) (s : State) :
    exec i s = runCommand s (commandBody i) := by
  cases i with
  | sreset => exact absurd rfl hi
  | _ => rfl

/-! ### What a body that completes leaves -/

/-- What a command other than `SRESET` leaves when it completes: the cursors, the result registers,
`DST`, scratch and the count of free values are all it changes; `DST` keeps its form, specified
cursors stay specified, and the result registers are as R22 says. -/
structure State.Finishes (i : Instr) (s t : State) : Prop where
  kept : t = { s with inpos := t.inpos, outpos := t.outpos, bestb := t.bestb, cexcept := t.cexcept,
                      maxb := t.maxb, scratch := Scratch.unspecified, dst := t.dst, tick := t.tick }
  form : s.dst.wf s.params.dstLen.toNat = true → t.dst.wf s.params.dstLen.toNat = true
  cursors : s.inpos.isKnown = true ∧ s.outpos.isKnown = true →
    t.inpos.isKnown = true ∧ t.outpos.isKnown = true
  closed : i.isSelect = false →
    t.bestb = .unspecified ∧ t.cexcept = .unspecified ∧ t.maxb = .unspecified
  selected : i.isSelect = true →
    ∃ b c m : Word, t.bestb = .known b ∧ t.cexcept = .known c ∧ t.maxb = .known m ∧
      b.toNat ≤ (if i = .fpfSelect then 32 else 16) ∧ c.toNat ≤ 127 ∧ m.toNat ≤ 32

section
variable {i : Instr} {s t : State} {o top : Nat} {w : Work}

/-- A command that ran within its frame leaves what R22 and R62 say. -/
theorem Ran.commit_finishes (h : Ran s o top w) (hsel : i.isSelect = false) : s.Finishes i w.commit where
  kept := by
    rw [Work.commit, h.state]
    rfl
  form := h.form
  cursors := fun _ => ⟨rfl, rfl⟩
  closed := fun _ => ⟨rfl, rfl, rfl⟩
  selected := by simp [hsel]

/-- Empty input closes the result registers and nothing else (log entry 9). -/
theorem closeResults_finishes (hsel : i.isSelect = false) : s.Finishes i s.closeResults where
  kept := rfl
  form := id
  cursors := id
  closed := fun _ => ⟨rfl, rfl, rfl⟩
  selected := by simp [hsel]

theorem groupBody_finishes {n : Nat} {f : List Word → List Word} (hsel : i.isSelect = false)
    (h : groupBody n f s = .ok t) : s.Finishes i t := by
  obtain ⟨⟨v, w⟩, hw, h⟩ := bind_eq_ok.1 h
  obtain ⟨w1, hw1, h⟩ := bind_eq_ok.1 h
  cases h
  obtain ⟨hran, hop⟩ := (Ran.start s).takeSrc hw
  rw [← hop] at hran
  exact (hop ▸ hran.putDst hw1).commit_finishes hsel

/-- A selector whose results on a block of 128 values are in the ranges of R22. -/
theorem selectBody_finishes {select : Scratch → List Word → (Nat × Nat × Nat) × Scratch}
    (hsel : i.isSelect = true) (hrange : ∀ sc blk, blk.length = 128 →
      (select sc blk).1.1 ≤ (if i = .fpfSelect then 32 else 16) ∧ (select sc blk).1.2.1 ≤ 127 ∧
        (select sc blk).1.2.2 ≤ 32)
    (h : selectBody select s = .ok t) : s.Finishes i t := by
  obtain ⟨⟨blk, w⟩, hw, h⟩ := bind_eq_ok.1 h
  obtain ⟨_, hread⟩ := readSrc_eq_ok.1 hw
  cases hread
  cases h
  obtain ⟨hb, hc, hm⟩ := hrange s.scratch _ (readWords_length s.src s.start.ip 128 s.start.s.tick)
  refine ⟨rfl, id, id, by simp [hsel], fun _ => ⟨_, _, _, rfl, rfl, rfl, ?_, ?_, ?_⟩⟩
  all_goals
    rw [BitVec.toNat_ofNat]
    exact (Nat.mod_le _ _).trans (by assumption)

/-- A page procedure that writes only right behind what the command has written. -/
def KeepsFrame (page : Nat → Work → Except Trap Work) : Prop :=
  ∀ s o n w w', Ran s o w.op w → page n w = .ok w' → Ran s o w'.op w'

theorem keepsFrame_fpfEncodePage : KeepsFrame fpfEncodePage := fun _ _ _ _ _ h hw => h.fpfEncodePage hw
theorem keepsFrame_fpfDecodePage : KeepsFrame fpfDecodePage := fun _ _ _ _ _ h hw => h.fpfDecodePage hw
theorem keepsFrame_opdEncodePage (S : S16) : KeepsFrame (opdEncodePage S) :=
  fun _ _ _ _ _ h hw => h.opdEncodePage hw
theorem keepsFrame_opdDecodePage (S : S16) : KeepsFrame (opdDecodePage S) :=
  fun _ _ _ _ _ h hw => h.opdDecodePage hw

section
variable {page : Nat → Work → Except Trap Work} (hpage : KeepsFrame page) (hsel : i.isSelect = false)
include hpage hsel

theorem pageBody_finishes {limit : Nat} (h : pageBody page limit s = .ok t) : s.Finishes i t := by
  obtain ⟨_, _, h⟩ := bind_eq_ok.1 h
  obtain ⟨w, hw, h⟩ := bind_eq_ok.1 h
  cases h
  exact (hpage _ _ _ _ _ (Ran.start s) hw).commit_finishes hsel

theorem compressBody_finishes {size : Nat} (h : compressBody page size s = .ok t) : s.Finishes i t := by
  simp only [compressBody] at h
  split at h
  · cases h
    exact closeResults_finishes hsel
  · obtain ⟨w, hw, h⟩ := bind_eq_ok.1 h
    obtain ⟨w1, hw1, h⟩ := bind_eq_ok.1 h
    cases h
    exact (forPages_induct (P := fun w => Ran s s.start.op w.op w) (fun _ _ _ => hpage _ _ _ _ _) size _
      w w1 ((Ran.start s).putDst hw) hw1).commit_finishes hsel

theorem uncompressBody_finishes {size : Nat} (h : uncompressBody page size s = .ok t) :
    s.Finishes i t := by
  unfold uncompressBody at h
  split at h
  · cases h
    exact closeResults_finishes hsel
  · obtain ⟨⟨n, w⟩, hw, h⟩ := bind_eq_ok.1 h
    obtain ⟨_, _, h⟩ := bind_eq_ok.1 h
    obtain ⟨w1, hw1, h⟩ := bind_eq_ok.1 h
    cases h
    obtain ⟨hran, hop⟩ := (Ran.start s).takeSrc1 hw
    rw [← hop] at hran
    exact (forPages_induct (P := fun w => Ran s s.start.op w.op w) (fun _ _ _ => hpage _ _ _ _ _) size _
      w w1 (hop ▸ hran) hw1).commit_finishes hsel

end

/-- The FastPFOR results are in the ranges of R22. -/
theorem fpfSelect_range (sc : Scratch) (blk : List Word) :
    (fpfSelect sc blk).1.1 ≤ 32 ∧ (fpfSelect sc blk).1.2.1 ≤ 127 ∧ (fpfSelect sc blk).1.2.2 ≤ 32 := by
  rw [fpfSelect_fst]
  obtain ⟨horder, htop, _, hsmall, _⟩ := fpfSelected_fits blk
  exact ⟨horder.trans htop, hsmall, htop⟩

/-- The OptPFD results of a block of 128 values are in the ranges of R22. -/
theorem opdSelect_range (S : S16) (sc : Scratch) {blk : List Word} (hlen : blk.length = 128) :
    (opdSelect S sc blk).1.1 ≤ 16 ∧ (opdSelect S sc blk).1.2.1 ≤ 127 ∧
      (opdSelect S sc blk).1.2.2 ≤ 32 := by
  rw [opdSelect_fst]
  obtain ⟨_, hupper, _, hsmall⟩ := optSelected_fits S hlen
  exact ⟨hupper, hsmall, maxBitlen_le blk⟩

/-- What every command but `SRESET` leaves when its body completes. -/
theorem commandBody_finishes (hi : i ≠ .sreset) (h : commandBody i s = .ok t) : s.Finishes i t := by
  cases i with
  | sreset => exact absurd rfl hi
  | pack32 w =>
    simp only [commandBody] at h
    split at h
    · cases h
    · exact groupBody_finishes rfl h
  | unpack32 w =>
    simp only [commandBody] at h
    split at h
    · cases h
    · exact groupBody_finishes rfl h
  | fpfSelect => exact selectBody_finishes rfl (fun sc blk _ => fpfSelect_range sc blk) h
  | fpfEncpage => exact pageBody_finishes keepsFrame_fpfEncodePage rfl h
  | fpfDecpage => exact pageBody_finishes keepsFrame_fpfDecodePage rfl h
  | fpfCompress => exact compressBody_finishes keepsFrame_fpfEncodePage rfl h
  | fpfUncompress => exact uncompressBody_finishes keepsFrame_fpfDecodePage rfl h
  | opdSelect => exact selectBody_finishes rfl (fun sc blk => opdSelect_range _ sc) h
  | opdEncpage => exact pageBody_finishes (keepsFrame_opdEncodePage _) rfl h
  | opdDecpage => exact pageBody_finishes (keepsFrame_opdDecodePage _) rfl h
  | opdCompress => exact compressBody_finishes (keepsFrame_opdEncodePage _) rfl h
  | opdUncompress => exact uncompressBody_finishes (keepsFrame_opdDecodePage _) rfl h

/-- Everything a command other than `SRESET` can do: it is refused, completes, or takes the fault its
body raises. -/
theorem exec_cases (hi : i ≠ .sreset) (h : exec i s = .next t) :
    (s.faulted = true ∧ t = s) ∨ (s.faulted = false ∧ s.Finishes i t) ∨
      (s.faulted = false ∧ ∃ e, commandBody i s = .error e ∧ t = takeFault s e) := by
  rw [exec_eq_runCommand hi] at h
  rcases runCommand_cases h with hrefused | ⟨hf, hdone⟩ | hfault
  · exact .inl hrefused
  · exact .inr (.inl ⟨hf, commandBody_finishes hi hdone⟩)
  · exact .inr (.inr hfault)

end

/-! ### What every command keeps, and the result registers -/

/-- The two states agree in all that no command but `SRESET` writes, the fault record aside. -/
structure State.SameOperands (s t : State) : Prop where
  params : t.params = s.params
  src : t.src = s.src
  host : t.host = s.host
  rdata : t.rdata = s.rdata
  inlen : t.inlen = s.inlen
  thissize : t.thissize = s.thissize

theorem State.Finishes.sameOperands {i : Instr} {s t : State} (h : s.Finishes i t) : s.SameOperands t where
  params := (congrArg State.params h.kept :)
  src := (congrArg State.src h.kept :)
  host := (congrArg State.host h.kept :)
  rdata := (congrArg State.rdata h.kept :)
  inlen := (congrArg State.inlen h.kept :)
  thissize := (congrArg State.thissize h.kept :)

theorem takeFault_sameOperands (s : State) (e : Trap) : s.SameOperands (takeFault s e) := by
  cases he : causeIsEarly e.cause with
  | true =>
    rw [takeFault_early he]
    exact ⟨rfl, rfl, rfl, rfl, rfl, rfl⟩
  | false =>
    rw [takeFault_late he]
    exact ⟨rfl, rfl, rfl, rfl, rfl, rfl⟩

theorem exec_sameOperands {i : Instr} {s t : State} (hi : i ≠ .sreset) (h : exec i s = .next t) :
    s.SameOperands t := by
  rcases exec_cases hi h with ⟨_, rfl⟩ | ⟨_, hdone⟩ | ⟨_, e, _, rfl⟩
  · exact ⟨rfl, rfl, rfl, rfl, rfl, rfl⟩
  · exact hdone.sameOperands
  · exact takeFault_sameOperands s e

/-- Settles O17: refused, completed and faulted commands keep SRC and the operands, and so does
`SRESET` but for the operands. -/
theorem commandsKeepSourceAndOperands : Obligations.CommandsKeepSourceAndOperands := by
  intro i s t h
  by_cases hi : i = .sreset
  · subst hi
    cases h
    exact ⟨rfl, rfl, rfl, rfl, fun hne => absurd rfl hne⟩
  · obtain ⟨hparams, hsrc, hhost, hrdata, hinlen, hthissize⟩ := exec_sameOperands hi h
    exact ⟨hparams, hsrc, hhost, hrdata, fun _ => ⟨hinlen, hthissize⟩⟩

/-- Settles O21: an unfaulted command that leaves no fault has completed. -/
theorem resultRegistersAfterEachCommand : Obligations.ResultRegistersAfterEachCommand := by
  intro i s t hi hs h ht
  rcases exec_cases hi h with ⟨hf, _⟩ | ⟨_, hdone⟩ | ⟨_, e, _, rfl⟩
  · exact absurd hf (by simp [hs])
  · exact ⟨hdone.closed, hdone.selected⟩
  · exact absurd ht (by simp)

end Sys2Proof.Machine
end

section
/-! PROOFS. What one step can do, reset, and the invariant (10_state.md R22 to R39; 45_system.md R240 to
R243; 60_exceptions.md R251, R252). -/

namespace Sys2Proof.Machine

/-! ### The word of `SRESET` -/

/-- A word is made of its three fields (30_encoding.md R70). -/
theorem encode_eq_of_fields {c : Word} {i : Instr} (hz : Field.z c = 0) (hw : Field.w c = i.widthField)
    (ho : Field.opc c = i.opcode) : encode i = c := by
  rw [encode, ← hw, ← ho, ← hz]
  refine BitVec.eq_of_getLsbD_eq fun k hk => ?_
  simp only [Field.z, Field.w, Field.opc, BitVec.getLsbD_append, BitVec.getLsbD_extractLsb']
  by_cases h8 : k < 8
  · simp [h8]
  · by_cases h14 : k - 8 < 6
    · simp [h8, h14, show 8 + (k - 8) = k by omega]
    · simp [h8, h14, show 14 + (k - 8 - 6) = k by omega, show k - 8 - 6 < 18 by omega]

theorem encode_of_plain {c : Word} {i j : Instr} (h : Decode.plain c j = .command i)
    (hj : j.widthField = 0) (ho : (Field.opc c).toNat = j.opcode.toNat) : encode i = c := by
  unfold Decode.plain at h
  split at h
  · cases h
  · next hz =>
    split at h
    · cases h
    · next hw =>
      cases h
      exact encode_eq_of_fields (not_not.1 hz) ((not_not.1 hw).trans hj.symm) (BitVec.eq_of_toNat_eq ho)

theorem encode_of_width {c : Word} {i j : Instr} (h : Decode.width c j = .command i)
    (hj : j.widthField = Field.w c) (ho : (Field.opc c).toNat = j.opcode.toNat) : encode i = c := by
  unfold Decode.width at h
  split at h
  · cases h
  · next hz =>
    split at h
    · cases h
    · cases h
      exact encode_eq_of_fields (not_not.1 hz) hj.symm (BitVec.eq_of_toNat_eq ho)

/-- A word decodes only to the command that encodes to it (30_encoding.md R72, R73). -/
theorem encode_of_decode {c : Word} {i : Instr} (h : decode c = .command i) : encode i = c := by
  unfold decode at h
  split at h
  case h_14 => cases h
  case h_2 hopc => exact encode_of_width h rfl hopc
  case h_3 hopc => exact encode_of_width h rfl hopc
  all_goals
    next hopc => exact encode_of_plain h rfl hopc

/-- `0x00000001` is the only word of `SRESET` (45_system.md R240). -/
theorem eq_one_of_decode_sreset {c : Word} (h : decode c = .command .sreset) : c = 1 :=
  (encode_of_decode h).symm.trans (by decide)

/-! ### One step -/

/-- Everything the issue of a command word can do (45_system.md R243). -/
theorem issueCommand_cases {c : Word} {s t : State} (h : issueCommand c s = .next t) :
    (c = 1 ∧ t = softReset s) ∨ (s.faulted = true ∧ t = s) ∨
      (s.faulted = false ∧ ∃ i, i ≠ .sreset ∧ s.Finishes i t) ∨
      (s.faulted = false ∧ ∃ e, t = takeFault s e) := by
  unfold issueCommand at h
  split at h
  · next i hdec =>
    by_cases hi : i = .sreset
    · subst hi
      cases h
      exact .inl ⟨eq_one_of_decode_sreset hdec, rfl⟩
    · rcases exec_cases hi h with hrefused | ⟨hf, hdone⟩ | ⟨hf, e, _, he⟩
      · exact .inr (.inl hrefused)
      · exact .inr (.inr (.inl ⟨hf, i, hi, hdone⟩))
      · exact .inr (.inr (.inr ⟨hf, e, he⟩))
  · rcases runCommand_cases h with hrefused | ⟨_, hok⟩ | ⟨hf, e, _, he⟩
    · exact .inr (.inl hrefused)
    · cases hok
    · exact .inr (.inr (.inr ⟨hf, e, he⟩))

/-- What an action of the host that does not stop the model leaves (45_system.md R241 to R243,
20_memory.md R52, 70_reset_and_hazards.md R280). -/
inductive HostEffect (s : State) : HostOp → State → Prop where
  | issue {c : Word} {t : State} (h : issueCommand c s = .next t) : HostEffect s (.wr 0 c) t
  | writeReg (r : Nat) (v : Word) : HostEffect s (.wr r v) (writeReg r v s)
  | answer (op : HostOp) (v : Word) : HostEffect s op (s.answer v)
  | writeSrc (a : Nat) (v : Word) (h : a < s.params.srcLen.toNat) :
      HostEffect s (.writeSrc a v) { s with src := s.src.write a [v] }
  | writeDst (a : Nat) (v : Word) (h : a < s.params.dstLen.toNat) :
      HostEffect s (.writeDst a v) { s with dst := s.dst.write a [v] }
  | hardReset : HostEffect s .hardReset (softReset s)

theorem hostAction_effect {op : HostOp} {s t : State} (h : hostAction op s = .next t) :
    HostEffect s op t := by
  cases op with
  | wr r v =>
    simp only [hostAction] at h
    split at h
    · next hr =>
      subst hr
      exact .issue h
    · cases h
      exact .writeReg r v
  | rd r =>
    cases h
    exact .answer _ _
  | writeSrc a v =>
    simp only [hostAction] at h
    split at h
    · next ha =>
      cases h
      exact .writeSrc a v ha
    · cases h
  | writeDst a v =>
    simp only [hostAction] at h
    split at h
    · next ha =>
      cases h
      exact .writeDst a v ha
    · cases h
  | readSrc a =>
    simp only [hostAction] at h
    split at h
    · cases h
      exact .answer _ _
    · cases h
  | readDst a =>
    simp only [hostAction] at h
    split at h
    · cases h
      exact .answer _ _
    · cases h
  | hardReset =>
    cases h
    exact .hardReset

/-- A step waits, or takes the oldest pending action (70_reset_and_hazards.md R280). -/
theorem step_cases {s t : State} (h : step s = .next t) :
    t = s ∨ ∃ op rest, s.host = op :: rest ∧ HostEffect { s with host := rest } op t := by
  unfold step hostStep at h
  split at h
  · cases h
    exact .inl rfl
  · next op rest hhost => exact .inr ⟨op, rest, hhost, hostAction_effect h⟩

/-- A register write leaves `STATUS`, `FCAUSE` and `FINFO` (10_state.md R23). -/
theorem writeReg_faultRecord (r : Nat) (v : Word) (s : State) :
    (writeReg r v s).status = s.status ∧ (writeReg r v s).fcause = s.fcause ∧
      (writeReg r v s).finfo = s.finfo := by
  unfold writeReg
  split <;> exact ⟨rfl, rfl, rfl⟩

/-- Settles O8, by what each action of the host can do. -/
theorem onlyResetLeavesTheFaultedState : Obligations.OnlyResetLeavesTheFaultedState := by
  intro s t hs h
  rcases step_cases h with rfl | ⟨op, rest, hhost, heffect⟩
  · exact .inl ⟨hs, rfl, rfl⟩
  · cases heffect with
    | issue h =>
      have hs' : State.faulted { s with host := rest } = true := hs
      rcases issueCommand_cases h with ⟨rfl, _⟩ | ⟨_, rfl⟩ | ⟨hf, _⟩ | ⟨hf, _⟩
      · exact .inr ⟨rest, .inr hhost⟩
      · exact .inl ⟨hs, rfl, rfl⟩
      · exact absurd hf (by simp [hs'])
      · exact absurd hf (by simp [hs'])
    | writeReg r v =>
      obtain ⟨hstatus, hfcause, hfinfo⟩ := writeReg_faultRecord r v { s with host := rest }
      exact .inl ⟨(faulted_of_status hstatus).trans hs, hfcause, hfinfo⟩
    | answer => exact .inl ⟨hs, rfl, rfl⟩
    | writeSrc => exact .inl ⟨hs, rfl, rfl⟩
    | writeDst => exact .inl ⟨hs, rfl, rfl⟩
    | hardReset => exact .inr ⟨rest, .inl hhost⟩

/-! ### Reset -/

theorem powerUp_registersReset (p : Params) : (State.powerUp p).RegistersReset := by
  constructor <;> rfl

theorem softReset_resetOf (s : State) : s.ResetOf (softReset s) :=
  ⟨by constructor <;> rfl, rfl, rfl, rfl, rfl, rfl⟩

/-- Register 11 holds `PAGE_SIZE` (10_state.md R28). -/
theorem toNat_ofNat_pageSize (p : Params) : (BitVec.ofNat 32 (pageSize p)).toNat = pageSize p := by
  have hle : pageSize p ≤ 65536 := bucketCap_le p
  rw [BitVec.toNat_ofNat, Nat.mod_eq_of_lt (by omega)]

/-- Settles O10: power-up by definition, the two resets by `softReset`. -/
theorem resetLeavesTheStatedValues : Obligations.ResetLeavesTheStatedValues :=
  ⟨fun p => ⟨powerUp_registersReset p, rfl, rfl, rfl⟩,
    fun s => ⟨_, rfl, softReset_resetOf s⟩,
    fun s => ⟨_, exec_sreset s, softReset_resetOf s⟩,
    fun s _ => ⟨toNat_ofNat_pageSize s.params, rfl, rfl⟩⟩

/-! ### The invariant -/

@[simp] theorem atMost_known (w : Word) (n : Nat) : (Content.known w).atMost n ↔ w.toNat ≤ n := by
  simp [Content.atMost]

@[simp] theorem atMost_unspecified (n : Nat) : Content.unspecified.atMost n := by
  simp [Content.atMost]

/-- A block whose registers are reset has the invariant if its memories are in form (R39). -/
theorem State.RegistersReset.inv {t : State} (h : t.RegistersReset)
    (hsrc : t.src.wf t.params.srcLen.toNat = true) (hdst : t.dst.wf t.params.dstLen.toNat = true) :
    t.Inv where
  srcWf := hsrc
  dstWf := hdst
  statusBits := by simp [h.status]
  causeRange := by simp [h.fcause]
  noCauseUnfaulted := fun _ => ⟨h.fcause, h.finfo⟩
  causeFaulted := by simp [State.faulted, h.status]
  cursorsKnown := fun _ => by simp [h.inpos, h.outpos, Content.isKnown]
  bestbRange := by simp [h.bestb]
  cexceptRange := by simp [h.cexcept]
  maxbRange := by simp [h.maxb]
  scratchOpen := h.scratch

theorem powerUp_inv (p : Params) : (State.powerUp p).Inv :=
  (powerUp_registersReset p).inv (wf_nil _) (wf_nil _)

/-- Settles O14: power-up resets the registers and has empty memories. -/
theorem invariantHoldsAtReset : Obligations.InvariantHoldsAtReset :=
  ⟨powerUp_inv, powerUp_inv Config.params⟩

/-- The result registers a command leaves are in their ranges, where they are specified. -/
theorem State.Finishes.results_atMost {i : Instr} {s t : State} (h : s.Finishes i t) :
    t.bestb.atMost 32 ∧ t.cexcept.atMost 127 ∧ t.maxb.atMost 32 := by
  cases hsel : i.isSelect with
  | false =>
    obtain ⟨hbestb, hcexcept, hmaxb⟩ := h.closed hsel
    simp [hbestb, hcexcept, hmaxb]
  | true =>
    obtain ⟨b, c, m, hbestb, hcexcept, hmaxb, hb, hc, hm⟩ := h.selected hsel
    have hb32 : (if i = .fpfSelect then 32 else 16) ≤ 32 := by split <;> decide
    simp only [hbestb, hcexcept, hmaxb, atMost_known]
    exact ⟨hb.trans hb32, hc, hm⟩

section
variable {s t : State} (h : s.Inv)
include h

theorem softReset_inv : (softReset s).Inv :=
  (softReset_resetOf s).registers.inv h.srcWf h.dstWf

/-- Recording a fault keeps the invariant (60_exceptions.md R250). -/
theorem recordFault_inv (c : Cause) (info : Nat) : (s.recordFault c info).Inv :=
  have ⟨hpos, hle⟩ := causeCode_range c
  have hcode : (BitVec.ofNat 32 (causeCode c)).toNat = causeCode c := by
    rw [BitVec.toNat_ofNat, Nat.mod_eq_of_lt (by omega)]
  have hfaulted := recordFault_faulted s c info
  { h with
    statusBits := by
      have hstatus := h.statusBits
      rw [recordFault_status, setFault, BitVec.toNat_or]
      interval_cases s.status.toNat <;> decide
    causeRange := by rw [recordFault_fcause, hcode]; exact hle
    noCauseUnfaulted := fun hf => absurd hf (by simp [hfaulted])
    causeFaulted := fun _ hzero => by
      have : causeCode c = 0 := hcode.symm.trans (congrArg BitVec.toNat hzero)
      omega
    cursorsKnown := fun hf => absurd hf (by simp [hfaulted]) }

/-- Taking a fault keeps the invariant, whatever its cause (60_exceptions.md R251). -/
theorem takeFault_inv (e : Trap) : (takeFault s e).Inv := by
  have hrecord := recordFault_inv h e.cause e.info
  cases he : causeIsEarly e.cause with
  | true => rwa [takeFault_early he]
  | false =>
    have hfaulted := takeFault_faulted s e
    rw [takeFault_late he] at hfaulted ⊢
    exact { hrecord with
      dstWf := wf_forget _ h.dstWf
      cursorsKnown := fun hf => absurd (hfaulted.symm.trans hf) (by decide)
      bestbRange := atMost_unspecified _
      cexceptRange := atMost_unspecified _
      maxbRange := atMost_unspecified _
      scratchOpen := rfl }

/-- A command that completes keeps the invariant. -/
theorem finishes_inv {i : Instr} (hf : s.faulted = false) (hdone : s.Finishes i t) : t.Inv := by
  obtain ⟨hparams, hsrc, _, _, _, _⟩ := hdone.sameOperands
  have hstatus : t.status = s.status := (congrArg State.status hdone.kept :)
  have hfcause : t.fcause = s.fcause := (congrArg State.fcause hdone.kept :)
  have hfinfo : t.finfo = s.finfo := (congrArg State.finfo hdone.kept :)
  have hfaulted : t.faulted = false := (faulted_of_status hstatus).trans hf
  obtain ⟨hbestb, hcexcept, hmaxb⟩ := hdone.results_atMost
  exact {
    srcWf := by rw [hsrc, hparams]; exact h.srcWf
    dstWf := by rw [hparams]; exact hdone.form h.dstWf
    statusBits := by rw [hstatus]; exact h.statusBits
    causeRange := by rw [hfcause]; exact h.causeRange
    noCauseUnfaulted := fun _ => by rw [hfcause, hfinfo]; exact h.noCauseUnfaulted hf
    causeFaulted := fun ht => absurd ht (by simp [hfaulted])
    cursorsKnown := fun _ => hdone.cursors (h.cursorsKnown hf)
    bestbRange := hbestb
    cexceptRange := hcexcept
    maxbRange := hmaxb
    scratchOpen := (congrArg State.scratch hdone.kept :) }

theorem issueCommand_inv {c : Word} (hc : issueCommand c s = .next t) : t.Inv := by
  rcases issueCommand_cases hc with ⟨_, rfl⟩ | ⟨_, rfl⟩ | ⟨hf, i, _, hdone⟩ | ⟨_, e, rfl⟩
  · exact softReset_inv h
  · exact h
  · exact finishes_inv h hf hdone
  · exact takeFault_inv h e

theorem writeReg_inv (r : Nat) (v : Word) : (writeReg r v s).Inv := by
  unfold writeReg
  split
  · exact { h with cursorsKnown := fun hf => ⟨rfl, (h.cursorsKnown hf).2⟩ }
  · exact { h with cursorsKnown := fun hf => ⟨(h.cursorsKnown hf).1, rfl⟩ }
  · exact { h with }
  · exact { h with }
  · exact h

/-- Every action of the host keeps the invariant. -/
theorem HostEffect.inv {op : HostOp} (heffect : HostEffect s op t) : t.Inv := by
  cases heffect with
  | issue hc => exact issueCommand_inv h hc
  | writeReg r v => exact writeReg_inv h r v
  | answer _ v => exact { h with }
  | writeSrc a v ha => exact { h with srcWf := wf_write h.srcWf (.inr ha) }
  | writeDst a v ha => exact { h with dstWf := wf_write h.dstWf (.inr ha) }
  | hardReset => exact softReset_inv h

end

/-- Settles O15: the pending actions play no part in the invariant, and every action keeps it. -/
theorem everyStepKeepsTheInvariant : Obligations.EveryStepKeepsTheInvariant := by
  intro s t h hstep
  rcases step_cases hstep with rfl | ⟨op, rest, _, heffect⟩
  · exact h
  · have hrest : State.Inv { s with host := rest } := { h with }
    exact heffect.inv hrest

end Sys2Proof.Machine
end

section
/-! PROOFS. Two runs that differ in scratch alone: what agrees between them, and the operations and loops
that keep the agreement (10_state.md R36, R38). -/

namespace Sys2Proof.Machine

/-! ### Two runs that end alike -/

section
variable {α β : Type}

/-- Two runs end alike: both complete, with results related by `R`, or both raise the same fault. -/
inductive SameEnd (R : α → α → Prop) : Except Trap α → Except Trap α → Prop where
  | ok {a a' : α} (h : R a a') : SameEnd R (.ok a) (.ok a')
  | error (e : Trap) : SameEnd R (.error e) (.error e)

variable {R T : α → α → Prop} {U : β → β → Prop}

theorem SameEnd.mono {x x' : Except Trap α} (h : SameEnd R x x') (hRT : ∀ a a', R a a' → T a a') :
    SameEnd T x x' := by
  cases h with
  | ok h => exact .ok (hRT _ _ h)
  | error e => exact .error e

/-- Sequences end alike if their first parts do, and then the rest. -/
theorem SameEnd.bind_of_ok {x x' : Except Trap α} {f f' : α → Except Trap β} (h : SameEnd R x x')
    (hf : ∀ a a', x = .ok a → R a a' → SameEnd U (f a) (f' a')) : SameEnd U (x >>= f) (x' >>= f') := by
  cases h with
  | ok h => exact hf _ _ rfl h
  | error e => exact .error e

theorem SameEnd.bind {x x' : Except Trap α} {f f' : α → Except Trap β} (h : SameEnd R x x')
    (hf : ∀ a a', R a a' → SameEnd U (f a) (f' a')) : SameEnd U (x >>= f) (x' >>= f') :=
  h.bind_of_ok fun a a' _ => hf a a'

/-- Runs that branch on the same condition end alike if both branches do. -/
theorem SameEnd.ite {c : Prop} [Decidable c] {x x' y y' : Except Trap α} (hx : c → SameEnd R x x')
    (hy : ¬ c → SameEnd R y y') : SameEnd R (if c then x else y) (if c then x' else y') := by
  split
  · next h => exact hx h
  · next h => exact hy h

end

/-- Two running commands alike but for scratch, whose scratch is related by `Q`. -/
def Alike (Q : Scratch → Scratch → Prop) (w w' : Work) : Prop :=
  ∃ sc, w' = w.onScratch (fun _ => sc) ∧ Q w.s.scratch sc

/-- The same value, and two running commands alike but for scratch. -/
def AlikeWith {α : Type} (Q : Scratch → Scratch → Prop) (p p' : α × Work) : Prop :=
  ∃ a w w', p = (a, w) ∧ p' = (a, w') ∧ Alike Q w w'

/-- Nothing is known of the scratch of the two runs. -/
def AnyScratch (_ _ : Scratch) : Prop := True

section
variable {Q Q' : Scratch → Scratch → Prop} {w w' : Work}

theorem Alike.mono_of (h : Alike Q w w')
    (hQ : Q w.s.scratch w'.s.scratch → Q' w.s.scratch w'.s.scratch) : Alike Q' w w' := by
  obtain ⟨sc, rfl, hq⟩ := h
  exact ⟨sc, rfl, hQ hq⟩

theorem Alike.mono (h : Alike Q w w') (hQ : ∀ sc sc', Q sc sc' → Q' sc sc') : Alike Q' w w' :=
  h.mono_of (hQ _ _)

theorem Alike.any (h : Alike Q w w') : Alike AnyScratch w w' := h.mono fun _ _ _ => trivial

theorem Alike.scratch (h : Alike Q w w') : Q w.s.scratch w'.s.scratch := by
  obtain ⟨sc, rfl, hq⟩ := h
  exact hq

theorem Alike.ip (h : Alike Q w w') : w'.ip = w.ip := by
  obtain ⟨sc, rfl, _⟩ := h
  rfl

theorem Alike.op (h : Alike Q w w') : w'.op = w.op := by
  obtain ⟨sc, rfl, _⟩ := h
  rfl

theorem Alike.params (h : Alike Q w w') : w'.s.params = w.s.params := by
  obtain ⟨sc, rfl, _⟩ := h
  rfl

theorem Alike.onScratch {f f' : Scratch → Scratch} (h : Alike Q w w')
    (hf : Q w.s.scratch w'.s.scratch → Q' (f w.s.scratch) (f' w'.s.scratch)) :
    Alike Q' (w.onScratch f) (w'.onScratch f') := by
  obtain ⟨sc, rfl, hq⟩ := h
  exact ⟨f' sc, rfl, hf hq⟩

theorem Alike.onScratch_any (h : Alike Q w w') (f f' : Scratch → Scratch) :
    Alike AnyScratch (w.onScratch f) (w'.onScratch f') := h.onScratch fun _ => trivial

/-- Moving the running positions of both runs to the same place. -/
theorem Alike.move (h : Alike Q w w') (ip op : Nat) : Alike Q ⟨w.s, ip, op⟩ ⟨w'.s, ip, op⟩ := by
  obtain ⟨sc, rfl, hq⟩ := h
  exact ⟨sc, rfl, hq⟩

/-! ### The shared operations -/

theorem alike_trap {α : Type} {R : α → α → Prop} (h : Alike Q w w') (c : Cause) (info : Nat) :
    SameEnd R (w.trap c info) (w'.trap c info) := by
  obtain ⟨sc, rfl, _⟩ := h
  exact .error _

theorem alike_check (h : Alike Q w w') (ok : Bool) (c : Cause) (info : Nat) :
    SameEnd (fun _ _ => ok = true) (w.check ok c info) (w'.check ok c info) :=
  .ite (fun hok => .ok hok) fun _ => alike_trap h c info

theorem alike_readSrc (h : Alike Q w w') (a n : Nat) :
    SameEnd (AlikeWith Q) (w.readSrc a n) (w'.readSrc a n) := by
  obtain ⟨sc, rfl, hq⟩ := h
  exact .ite (fun _ => .ok ⟨_, _, _, rfl, rfl, sc, rfl, hq⟩) fun _ => .error _

theorem alike_readSrc1 (h : Alike Q w w') (a : Nat) :
    SameEnd (AlikeWith Q) (w.readSrc1 a) (w'.readSrc1 a) := by
  obtain ⟨sc, rfl, hq⟩ := h
  exact .ite (fun _ => .ok ⟨_, _, _, rfl, rfl, sc, rfl, hq⟩) fun _ => .error _

theorem alike_readDst1 (h : Alike Q w w') (a : Nat) :
    SameEnd (AlikeWith Q) (w.readDst1 a) (w'.readDst1 a) := by
  obtain ⟨sc, rfl, hq⟩ := h
  exact .ite (fun _ => .ok ⟨_, _, _, rfl, rfl, sc, rfl, hq⟩) fun _ => .error _

theorem alike_writeDst (h : Alike Q w w') (a : Nat) (ws : List Word) :
    SameEnd (Alike Q) (w.writeDst a ws) (w'.writeDst a ws) := by
  obtain ⟨sc, rfl, hq⟩ := h
  exact .ite (fun _ => .ok ⟨sc, rfl, hq⟩) fun _ => .error _

theorem alike_takeSrc (h : Alike Q w w') (n : Nat) :
    SameEnd (AlikeWith Q) (w.takeSrc n) (w'.takeSrc n) := by
  unfold Work.takeSrc
  rw [h.ip]
  refine (alike_readSrc h w.ip n).bind ?_
  rintro _ _ ⟨ws, v, v', rfl, rfl, hv⟩
  refine .ok ⟨ws, _, _, rfl, rfl, ?_⟩
  rw [hv.ip, hv.op]
  exact hv.move _ _

theorem alike_takeSrc1 (h : Alike Q w w') : SameEnd (AlikeWith Q) w.takeSrc1 w'.takeSrc1 := by
  unfold Work.takeSrc1
  rw [h.ip]
  refine (alike_readSrc1 h w.ip).bind ?_
  rintro _ _ ⟨x, v, v', rfl, rfl, hv⟩
  refine .ok ⟨x, _, _, rfl, rfl, ?_⟩
  rw [hv.ip, hv.op]
  exact hv.move _ _

theorem alike_putDst (h : Alike Q w w') (ws : List Word) :
    SameEnd (Alike Q) (w.putDst ws) (w'.putDst ws) := by
  unfold Work.putDst
  rw [h.op]
  refine (alike_writeDst h w.op ws).bind fun v v' hv => .ok ?_
  rw [hv.ip, hv.op]
  exact hv.move _ _

theorem alike_orDst (h : Alike Q w w') (a : Nat) (x : Word) :
    SameEnd (Alike Q) (orDst a x w) (orDst a x w') := by
  refine (alike_readDst1 h a).bind ?_
  rintro _ _ ⟨y, v, v', rfl, rfl, hv⟩
  exact alike_writeDst hv a _

end

/-! ### Loops -/

section
variable {Q : Scratch → Scratch → Prop} {w w' : Work}

theorem alike_iter {body : Work → Except Trap Work}
    (hbody : ∀ v v', Alike Q v v' → SameEnd (Alike Q) (body v) (body v')) (n : Nat) (h : Alike Q w w') :
    SameEnd (Alike Q) (iter body n w) (iter body n w') := by
  induction n generalizing w w' with
  | zero => exact .ok h
  | succ n ih => exact (hbody w w' h).bind fun _ _ => ih

theorem alike_forEach {body : Nat → Work → Except Trap Work} {ks : List Nat}
    (hbody : ∀ k ∈ ks, ∀ v v', Alike Q v v' → SameEnd (Alike Q) (body k v) (body k v'))
    (h : Alike Q w w') : SameEnd (Alike Q) (forEach body ks w) (forEach body ks w') := by
  induction ks generalizing w w' with
  | nil => exact .ok h
  | cons k ks ih =>
    exact (hbody k (by simp) w w' h).bind fun _ _ => ih fun k' hk => hbody k' (by simp [hk])

/-- A loop over `0, 1, ..., n-1` each round of which adds to the agreement. -/
theorem alike_forEach_range {body : Nat → Work → Except Trap Work} (P : Nat → Scratch → Scratch → Prop)
    (n : Nat) (hbody : ∀ i, i < n → ∀ v v', Alike (P i) v v' →
      SameEnd (Alike (P (i + 1))) (body i v) (body i v')) (h : Alike (P 0) w w') :
    SameEnd (Alike (P n)) (forEach body (List.range n) w) (forEach body (List.range n) w') := by
  have key : ∀ k a v v', a + k = n → Alike (P a) v v' →
      SameEnd (Alike (P n)) (forEach body (List.range' a k) v) (forEach body (List.range' a k) v') := by
    intro k
    induction k with
    | zero =>
      rintro a v v' rfl hv
      exact .ok hv
    | succ k ih =>
      intro a v v' ha hv
      exact (hbody a (by omega) v v' hv).bind fun u u' hu => ih (a + 1) u u' (by omega) hu
  rw [List.range_eq_range']
  exact key n 0 w w' (Nat.zero_add n) h

/-- A page procedure that reads no scratch that it has not written. -/
def ReadsNoStale (page : Nat → Work → Except Trap Work) : Prop :=
  ∀ n w w', Alike AnyScratch w w' → SameEnd (Alike AnyScratch) (page n w) (page n w')

theorem alike_forPages {page : Nat → Work → Except Trap Work} (hpage : ReadsNoStale page) (size n : Nat)
    (h : Alike AnyScratch w w') :
    SameEnd (Alike AnyScratch) (forPages page size n w) (forPages page size n w') := by
  have key : ∀ rounds n w w', Alike AnyScratch w w' →
      SameEnd (Alike AnyScratch) (pageRounds page size rounds n w) (pageRounds page size rounds n w') := by
    intro rounds
    induction rounds with
    | zero => exact fun _ _ _ h => .ok h
    | succ k ih => exact fun n w w' h => (hpage _ w w' h).bind fun _ _ => ih _ _ _
  exact key _ n w w' h

/-- The packed block is the same in both runs (42_fastpfor_encode.md R142). -/
theorem alike_packBlock (h : Alike Q w w') (blk : List Word) (b : Nat) :
    SameEnd (Alike Q) (packBlock blk b w) (packBlock blk b w') :=
  alike_forEach (fun g _ _ _ hv => alike_putDst hv (pack32 (groupOf blk g) b)) h

/-- The unpacked block is the same in both runs (43_fastpfor_decode.md R176). -/
theorem alike_unpackBlock (h : Alike Q w w') (b : Nat) :
    SameEnd (Alike Q) (unpackBlock b w) (unpackBlock b w') := by
  refine alike_forEach (fun g _ v v' hv => (alike_takeSrc hv b).bind ?_) h
  rintro _ _ ⟨ws, u, u', rfl, rfl, hu⟩
  simp only [hu.op]
  exact alike_writeDst hu _ _

end

/-! ### Scratch arrays -/

section
variable {α : Type}

/-- The same elements written to the same place: the arrays agree there, and where they did before. -/
theorem get?_write_congr {m m' : Arr α} {a i : Nat} {vs : List α}
    (h : ¬ (a ≤ i ∧ i < a + vs.length) → m'.get? i = m.get? i) :
    (m'.write a vs).get? i = (m.write a vs).get? i := by
  rw [get?_write, get?_write]
  split
  · rfl
  · next hout => exact h hout

end

/-- The two runs have the same first bytes in the byte buffer, as many as `BBLEN` says. -/
structure SameBytes (sc sc' : Scratch) : Prop where
  bblen : sc'.bblen = sc.bblen
  bytes : ∀ i, i < sc.bbLen → sc'.bb.get? i = sc.bb.get? i

/-- Two arrays hold the same first `n k` entries of bucket `k`, for each bucket. -/
def SameEntries (n : Nat → Nat) (bk bk' : Arr Word) : Prop :=
  ∀ k j, 1 ≤ k → k ≤ 32 → j < n k → bk'.get? (bkIndex k j) = bk.get? (bkIndex k j)

/-- The two runs have the same counters `DP[0..32]`. -/
def SameCounts (sc sc' : Scratch) : Prop := ∀ k, k ≤ 32 → sc'.dp.get? k = sc.dp.get? k

section
variable {sc sc' : Scratch}

theorem SameBytes.bbLen (h : SameBytes sc sc') : sc'.bbLen = sc.bbLen := by
  rw [Scratch.bbLen, h.bblen, Scratch.bbLen]

theorem SameBytes.bbAt (h : SameBytes sc sc') {i : Nat} (hi : i < sc.bbLen) : sc'.bbAt i = sc.bbAt i := by
  rw [Scratch.bbAt, h.bytes i hi, Scratch.bbAt]

theorem SameCounts.dpAt (h : SameCounts sc sc') {k : Nat} (hk : k ≤ 32) : sc'.dpAt k = sc.dpAt k := by
  rw [Scratch.dpAt, h k hk, Scratch.dpAt]

/-- Writing the same count to both. -/
theorem SameCounts.write (h : SameCounts sc sc') (k n : Nat) :
    ∀ i, i ≤ 32 → (sc'.dp.write k [n]).get? i = (sc.dp.write k [n]).get? i :=
  fun i hi => get?_write_congr fun _ => h i hi

theorem sameCounts_clearDp (sc sc' : Scratch) : SameCounts sc.clearDp sc'.clearDp :=
  fun _ hk => (clearDp_get? sc' hk).trans (clearDp_get? sc hk).symm

theorem SameEntries.bkAt {n : Nat → Nat} (h : SameEntries n sc.bk sc'.bk) {k j : Nat} (h1 : 1 ≤ k)
    (h32 : k ≤ 32) (hj : j < n k) : sc'.bkAt k j = sc.bkAt k j := by
  rw [Scratch.bkAt, h k j h1 h32 hj, Scratch.bkAt]

/-- The same words written to the same place add to the agreement. -/
theorem SameEntries.write {n n' : Nat → Nat} {bk bk' : Arr Word} (h : SameEntries n bk bk') {a : Nat}
    {vs : List Word}
    (hn : ∀ k j, j < n' k → j < n k ∨ a ≤ bkIndex k j ∧ bkIndex k j < a + vs.length) :
    SameEntries n' (bk.write a vs) (bk'.write a vs) :=
  fun k j h1 h32 hj => get?_write_congr fun hout => h k j h1 h32 ((hn k j hj).resolve_right hout)

end

end Sys2Proof.Machine
end

section
/-! PROOFS. The encoders read no scratch that they have not written (42_fastpfor_encode.md R141 to R149;
44_optpfd.md R211, R212). -/

namespace Sys2Proof.Machine

/-- The byte buffer and the buckets of the page being encoded are the same in the two runs. -/
structure SamePage (sc sc' : Scratch) : Prop extends SameBytes sc sc' where
  counts : SameCounts sc sc'
  entries : SameEntries sc.dpAt sc.bk sc'.bk

section
variable {sc sc' : Scratch}

theorem dpAt_write_one (sc : Scratch) (k n i : Nat) :
    Scratch.dpAt { sc with dp := sc.dp.write k [n] } i = if i = k then n else sc.dpAt i := by
  simp only [Scratch.dpAt, get?_write_one]
  split <;> rfl

theorem clearDp_dpAt (sc : Scratch) {k : Nat} (h : k ≤ 32) : sc.clearDp.dpAt k = 0 := by
  rw [Scratch.dpAt, clearDp_get? sc h, Option.getD_some]

/-- A page starts with nothing in its byte buffer and buckets, whatever scratch held (R141). -/
theorem samePage_start (sc sc' : Scratch) :
    SamePage { sc.clearDp with bblen := some 0 } { sc'.clearDp with bblen := some 0 } where
  bblen := rfl
  bytes := fun i hi => absurd hi (Nat.not_lt_zero i)
  counts := sameCounts_clearDp sc sc'
  entries := fun k j _ h32 hj => by
    have hzero : Scratch.dpAt { sc.clearDp with bblen := some 0 } k = 0 := clearDp_dpAt sc h32
    omega

theorem SameBytes.bbPut (h : SameBytes sc sc') (y : Byte) : SameBytes (sc.bbPut y) (sc'.bbPut y) where
  bblen := by simp only [Scratch.bbPut, h.bbLen]
  bytes := fun i hi => by
    simp only [Scratch.bbPut, h.bbLen]
    refine get?_write_congr fun hout => h.bytes i ?_
    have hlen : (sc.bbPut y).bbLen = sc.bbLen + 1 := rfl
    simp only [List.length_singleton] at hout
    omega

theorem SamePage.bbPut (h : SamePage sc sc') (y : Byte) : SamePage (sc.bbPut y) (sc'.bbPut y) :=
  ⟨h.toSameBytes.bbPut y, h.counts, h.entries⟩

/-- Appending the same value to the same bucket (R143). -/
theorem SamePage.bkAppend (h : SamePage sc sc') {k : Nat} (hk : k ≤ 32) (v : Word) :
    SamePage (sc.bkAppend k v) (sc'.bkAppend k v) where
  bblen := h.bblen
  bytes := h.bytes
  counts := by
    simp only [SameCounts, Scratch.bkAppend, h.counts.dpAt hk]
    exact h.counts.write k _
  entries := by
    have hbk : (sc'.bkAppend k v).bk = sc'.bk.write (bkIndex k (sc.dpAt k)) [v] := by
      rw [Scratch.bkAppend, h.counts.dpAt hk]
    rw [hbk]
    refine h.entries.write fun i j hj => ?_
    have hdp : (sc.bkAppend k v).dpAt i = if i = k then sc.dpAt k + 1 else sc.dpAt i :=
      dpAt_write_one sc k _ i
    rw [hdp] at hj
    split at hj
    · next hik =>
      subst hik
      simp only [bkIndex, List.length_singleton]
      omega
    · exact .inl hj

theorem SamePage.dispatch (h : SamePage sc sc') {idx : Nat} (hidx : idx ≤ 32) (b k : Nat)
    (vs : List Word) : SamePage (dispatch b idx k vs sc) (dispatch b idx k vs sc') := by
  induction vs generalizing k sc sc' with
  | nil => exact h
  | cons v vs ih =>
    simp only [Machine.dispatch]
    split
    · exact ih ((h.bbPut _).bkAppend hidx _) _
    · exact ih h _

/-- The record of a block and its exceptions (R142). -/
theorem SamePage.emitRecord (h : SamePage sc sc') (blk : List Word) (b c : Nat) {m : Nat} (hm : m ≤ 32) :
    SamePage (emitRecord blk b c m sc) (emitRecord blk b c m sc') := by
  have hhead := (h.bbPut (BitVec.ofNat 8 b)).bbPut (BitVec.ofNat 8 c)
  simp only [Machine.emitRecord]
  split
  · exact (hhead.bbPut _).dispatch (by omega) _ _ _
  · exact hhead

/-- The selector writes its counters, which no later step of the page reads. -/
theorem SamePage.fpfSelect (h : SamePage sc sc') (blk : List Word) :
    SamePage (fpfSelect sc blk).2 (fpfSelect sc' blk).2 :=
  ⟨⟨h.bblen, h.bytes⟩, h.counts, h.entries⟩

theorem SamePage.padBytes (h : SamePage sc sc') (n : Nat) :
    SamePage (padBytes n sc) (padBytes n sc') := by
  induction n generalizing sc sc' with
  | zero => exact h
  | succ k ih =>
    simp only [Machine.padBytes, h.bbLen]
    split
    · exact ih (h.bbPut 0)
    · exact h

theorem SameBytes.bbWord (h : SameBytes sc sc') {i : Nat} (hi : i < sc.bbLen / 4) :
    sc'.bbWord i = sc.bbWord i := by
  rw [Scratch.bbWord, h.bbAt (by omega), h.bbAt (by omega), h.bbAt (by omega), h.bbAt (by omega),
    Scratch.bbWord]

theorem SamePage.bucketBitmap (h : SamePage sc sc') : bucketBitmap sc' = bucketBitmap sc := by
  simp only [Machine.bucketBitmap]
  congr 1
  refine List.map_congr_left fun j hj => ?_
  have := List.mem_range.1 hj
  rw [h.counts.dpAt (by omega)]

theorem SamePage.bucketGroup (h : SamePage sc sc') {k : Nat} (h1 : 1 ≤ k) (h32 : k ≤ 32) (g : Nat) :
    bucketGroup sc' k g = bucketGroup sc k g := by
  simp only [Machine.bucketGroup, h.counts.dpAt h32]
  refine List.map_congr_left fun i _ => ?_
  split
  · next hi => exact h.entries.bkAt h1 h32 hi
  · rfl

end

theorem mem_bucketNumbers {k : Nat} : k ∈ bucketNumbers ↔ 1 ≤ k ∧ k ≤ 32 := by
  rw [bucketNumbers_eq_range', List.mem_range'_1]
  omega

section
variable {w w' : Work}

theorem alike_fpfEncodeBlock (h : Alike SamePage w w') :
    SameEnd (Alike SamePage) (fpfEncodeBlock w) (fpfEncodeBlock w') := by
  refine (alike_takeSrc h 128).bind ?_
  rintro _ _ ⟨blk, v, v', rfl, rfl, hv⟩
  have htop := (fpfSelected_fits blk).top
  simp only [fpfSelect_fst]
  exact alike_packBlock (hv.onScratch fun hsc => (hsc.fpfSelect blk).emitRecord _ _ _ htop) _ _

theorem alike_flushBucket {k : Nat} (h1 : 1 ≤ k) (h32 : k ≤ 32) (h : Alike SamePage w w') :
    SameEnd (Alike SamePage) (flushBucket k w) (flushBucket k w') := by
  unfold flushBucket
  rw [h.scratch.counts.dpAt h32]
  refine .ite (fun _ => (alike_putDst h _).bind fun v v' hv => ?_) fun _ => .ok h
  refine alike_forEach (fun g _ u u' hu => ?_) hv
  rw [hu.scratch.bucketGroup h1 h32]
  exact alike_putDst hu _

/-- The words of the byte buffer are put out, all of them written by this page (R145). -/
theorem alike_putBytes (h : Alike SamePage w w') :
    SameEnd (Alike SamePage)
      (forEach (fun i w => w.putDst1 (w.s.scratch.bbWord i)) (List.range (w.s.scratch.bbLen / 4)) w)
      (forEach (fun i w => w.putDst1 (w.s.scratch.bbWord i)) (List.range (w'.s.scratch.bbLen / 4)) w') := by
  rw [h.scratch.bbLen]
  have key := alike_forEach (Q := fun sc sc' => SamePage sc sc' ∧ sc.bbLen = w.s.scratch.bbLen)
    (body := fun i w => w.putDst1 (w.s.scratch.bbWord i)) (ks := List.range (w.s.scratch.bbLen / 4))
    (fun i hi v v' hv => ?_) (h.mono_of fun hsc => ⟨hsc, rfl⟩)
  · exact key.mono fun _ _ hv => hv.mono fun _ _ hsc => hsc.1
  · obtain ⟨hsc, hlen⟩ := hv.scratch
    rw [hsc.bbWord (by rw [hlen]; exact List.mem_range.1 hi)]
    exact alike_putDst hv _

/-- The head word and the meta section of a page (R145 to R149). -/
theorem alike_fpfFlushPage (h : Alike SamePage w w') (hp : Nat) :
    SameEnd (Alike SamePage) (fpfFlushPage hp w) (fpfFlushPage hp w') := by
  unfold fpfFlushPage
  rw [h.op]
  refine (alike_writeDst h hp _).bind fun w1 w1' h1 => ?_
  simp only [h1.scratch.bbLen]
  refine (alike_putDst (h1.onScratch fun hsc => hsc.padBytes 3) _).bind fun w3 w3' h3 => ?_
  refine (alike_putBytes h3).bind fun w4 w4' h4 => ?_
  rw [h4.scratch.bucketBitmap]
  refine (alike_putDst h4 _).bind fun w5 w5' h5 => alike_forEach (fun k hk _ _ hv => ?_) h5
  obtain ⟨h1, h32⟩ := mem_bucketNumbers.1 hk
  exact alike_flushBucket h1 h32 hv

end

/-- A FastPFOR page is encoded from what it has staged itself (R141). -/
theorem readsNoStale_fpfEncodePage : ReadsNoStale fpfEncodePage := by
  intro n w w' h
  unfold fpfEncodePage
  simp only [h.op]
  refine (alike_putDst h [0]).bind fun w1 w1' h1 => ?_
  refine (alike_iter (Q := SamePage) (fun _ _ => alike_fpfEncodeBlock) (n / 128)
    (h1.onScratch fun _ => samePage_start _ _)).bind fun w3 w3' h3 => ?_
  exact (alike_fpfFlushPage h3 w.op).mono fun _ _ => Alike.any

/-! ### OptPFD -/

/-- The payload of a block is what the coder makes of its own exceptions, whatever `EB` held (R212). -/
theorem opdPayload_stage (S : S16) {blk : List Word} (hlen : blk.length = 128) (sc : Scratch) :
    opdPayload S (optSelected S blk).2.1
      (if (optSelected S blk).2.1 > 0 then
        opdStage blk (widthOf (optSelected S blk).1) (optSelected S blk).2.1 sc else sc) =
      optPayload S blk := by
  have hcount := (optSelected_fits S hlen).count
  simp only [opdPayload, optPayload]
  split
  · rw [hcount, ebList_opdStage]
  · rfl

/-- An OptPFD block is encoded from what it has staged itself (R212). -/
theorem alike_opdEncodeBlock (S : S16) {w w' : Work} (h : Alike AnyScratch w w') :
    SameEnd (Alike AnyScratch) (opdEncodeBlock S w) (opdEncodeBlock S w') := by
  refine (alike_takeSrc h 128).bind_of_ok ?_
  rintro _ _ htake ⟨blk, v, v', rfl, rfl, hv⟩
  obtain ⟨_, hblk⟩ := takeSrc_eq_ok.1 htake
  have hlen : blk.length = 128 := by
    rw [(Prod.mk.inj hblk).1, readWords_length]
  simp only [opdSelect_fst, opdPayload_stage S hlen]
  refine (alike_check (hv.onScratch_any _ _) _ _ _).bind fun _ _ _ => ?_
  refine (alike_putDst (hv.onScratch_any _ _) _).bind fun w3 w3' h3 => ?_
  exact (alike_putDst h3 _).bind fun w4 w4' h4 => alike_packBlock h4 _ _

theorem readsNoStale_opdEncodePage (S : S16) : ReadsNoStale (opdEncodePage S) :=
  fun n _ _ => alike_iter (fun _ _ => alike_opdEncodeBlock S) (n / 128)

end Sys2Proof.Machine
end

section
/-! PROOFS. The decoders read no scratch that they have not written (43_fastpfor_decode.md R171 to R179;
44_optpfd.md R220 to R222). -/

namespace Sys2Proof.Machine

/-! ### Loading the meta section of a page -/

/-- The byte buffer and the place reached in it are the same in the two runs. -/
structure SameLoaded (sc sc' : Scratch) : Prop extends SameBytes sc sc' where
  bbpos : sc'.bbpos = sc.bbpos

/-- The sizes of the buckets are the same, too. -/
structure SameSizes (sc sc' : Scratch) : Prop extends SameLoaded sc sc' where
  sizes : ∀ k, 1 ≤ k → k ≤ 32 → sc'.bsize.get? k = sc.bsize.get? k

/-- The entries of the buckets are the same, too. -/
structure SameMeta (sc sc' : Scratch) : Prop extends SameSizes sc sc' where
  entries : SameEntries sc.bsizeAt sc.bk sc'.bk

/-- The entries are the same, but of bucket `k`, whose size is `size`, only the first `g` groups are
loaded yet. -/
structure SameFilling (k size g : Nat) (sc sc' : Scratch) : Prop extends SameSizes sc sc' where
  entries : SameEntries (Function.update sc.bsizeAt k (32 * g)) sc.bk sc'.bk
  size : sc.bsizeAt k = size

/-- The first `n` bytes of the byte buffer are the same in the two runs. -/
def SameFirstBytes (n : Nat) (sc sc' : Scratch) : Prop := ∀ j, j < n → sc'.bb.get? j = sc.bb.get? j

section
variable {sc sc' : Scratch}

theorem SameLoaded.bbPos (h : SameLoaded sc sc') : sc'.bbPos = sc.bbPos := by
  rw [Scratch.bbPos, h.bbpos, Scratch.bbPos]

theorem SameSizes.bsizeAt (h : SameSizes sc sc') {k : Nat} (h1 : 1 ≤ k) (h32 : k ≤ 32) :
    sc'.bsizeAt k = sc.bsizeAt k := by
  rw [Scratch.bsizeAt, h.sizes k h1 h32, Scratch.bsizeAt]

theorem bsizeAt_write_one (sc : Scratch) (k n : Nat) :
    Scratch.bsizeAt { sc with bsize := sc.bsize.write k [n] } = Function.update sc.bsizeAt k n := by
  funext i
  simp only [Scratch.bsizeAt, get?_write_one, Function.update_apply]
  split <;> rfl

/-- The buckets are all empty before the first is loaded, whatever scratch held (R174). -/
theorem SameLoaded.clearBsize (h : SameLoaded sc sc') :
    SameMeta { sc with bsize := sc.bsize.write 1 (List.replicate 32 0) }
      { sc' with bsize := sc'.bsize.write 1 (List.replicate 32 0) } := by
  have hzero (m : Arr Nat) {k : Nat} (h1 : 1 ≤ k) (h32 : k ≤ 32) :
      (m.write 1 (List.replicate 32 0)).get? k = some 0 := by
    rw [get?_write, if_pos ⟨h1, by simp; omega⟩, List.getElem?_replicate, if_pos (by omega)]
  refine ⟨⟨⟨⟨h.bblen, h.bytes⟩, h.bbpos⟩, fun k h1 h32 => ?_⟩, fun k j h1 h32 hj => ?_⟩
  · exact (hzero _ h1 h32).trans (hzero _ h1 h32).symm
  · rw [Scratch.bsizeAt, hzero _ h1 h32] at hj
    exact absurd hj (Nat.not_lt_zero j)

/-- The size of bucket `k` is stored, and none of its entries yet (R174). -/
theorem SameMeta.startBucket (h : SameMeta sc sc') (k size : Nat) :
    SameFilling k size 0 { sc with bsize := sc.bsize.write k [size] }
      { sc' with bsize := sc'.bsize.write k [size] } where
  bblen := h.bblen
  bytes := h.bytes
  bbpos := h.bbpos
  sizes := fun i h1 h32 => get?_write_congr fun _ => h.sizes i h1 h32
  entries := fun i j h1 h32 hj => by
    rw [bsizeAt_write_one, Function.update_idem, Function.update_apply] at hj
    split at hj
    · exact absurd hj (Nat.not_lt_zero j)
    · exact h.entries i j h1 h32 hj
  size := by rw [bsizeAt_write_one, Function.update_self]

/-- The next group of bucket `k` is stored (R174). -/
theorem SameFilling.storeGroup {k size g : Nat} (h : SameFilling k size g sc sc') (ws : List Word) :
    SameFilling k size (g + 1) { sc with bk := sc.bk.write (bkIndex k (32 * g)) (unpack32 ws k) }
      { sc' with bk := sc'.bk.write (bkIndex k (32 * g)) (unpack32 ws k) } where
  bblen := h.bblen
  bytes := h.bytes
  bbpos := h.bbpos
  sizes := h.sizes
  entries := h.entries.write fun i j hj => by
    rw [Function.update_apply] at hj ⊢
    by_cases hik : i = k
    · subst hik
      rw [if_pos rfl] at hj ⊢
      rw [unpack32_length, bkIndex, bkIndex]
      omega
    · rw [if_neg hik] at hj ⊢
      exact .inl hj
  size := h.size

/-- With all its groups stored bucket `k` is loaded. -/
theorem SameFilling.done {k size : Nat} (h : SameFilling k size (ceilDiv size 32) sc sc') :
    SameMeta sc sc' := by
  refine ⟨h.toSameSizes, fun i j h1 h32 hj => h.entries i j h1 h32 ?_⟩
  rw [Function.update_apply]
  split
  · next hik =>
    rw [hik, h.size] at hj
    exact hj.trans_le (le_mul_ceilDiv size (by decide))
  · exact hj

end

section
variable {w w' : Work}

theorem alike_loadWord {i : Nat} (h : Alike (SameFirstBytes (4 * i)) w w') :
    SameEnd (Alike (SameFirstBytes (4 * (i + 1)))) (loadWord i w) (loadWord i w') := by
  refine (alike_takeSrc1 h).bind ?_
  rintro _ _ ⟨x, v, v', rfl, rfl, hv⟩
  refine .ok (hv.onScratch fun hsc j hj => get?_write_congr fun hout => hsc j ?_)
  have hlen : (bytesOfWord x).length = 4 := rfl
  omega

/-- The byte buffer is loaded over whatever scratch held (R172, R173). -/
theorem alike_loadBytes (h : Alike AnyScratch w w') :
    SameEnd (Alike SameLoaded) (loadBytes w) (loadBytes w') := by
  refine (alike_takeSrc1 h).bind ?_
  rintro _ _ ⟨size, v, v', rfl, rfl, hv⟩
  simp only [hv.params]
  refine (alike_check hv _ _ _).bind fun _ _ _ => ?_
  refine (alike_forEach_range (body := loadWord) (fun i => SameFirstBytes (4 * i)) _
    (fun _ _ _ _ => alike_loadWord) (hv.mono_of fun _ j hj => absurd hj (Nat.not_lt_zero j))).bind
      fun w2 w2' h2 => .ok (h2.onScratch fun hsc => ⟨⟨rfl, fun i hi => hsc i ?_⟩, rfl⟩)
  exact hi.trans_le (le_mul_ceilDiv size.toNat (by decide))

theorem alike_loadGroup {k size g : Nat} (h : Alike (SameFilling k size g) w w') :
    SameEnd (Alike (SameFilling k size (g + 1))) (loadGroup k g w) (loadGroup k g w') := by
  refine (alike_takeSrc h k).bind ?_
  rintro _ _ ⟨ws, v, v', rfl, rfl, hv⟩
  exact .ok (hv.onScratch fun hsc => hsc.storeGroup ws)

theorem alike_loadBucket (bitmap : Word) (k : Nat) (h : Alike SameMeta w w') :
    SameEnd (Alike SameMeta) (loadBucket bitmap k w) (loadBucket bitmap k w') := by
  refine .ite (fun _ => (alike_takeSrc1 h).bind ?_) fun _ => .ok h
  rintro _ _ ⟨x, v, v', rfl, rfl, hv⟩
  simp only [hv.params]
  refine (alike_check hv _ _ _).bind fun _ _ _ => ?_
  exact (alike_forEach_range (body := loadGroup k) (SameFilling k x.toNat) _
    (fun _ _ _ _ => alike_loadGroup) (hv.onScratch fun hsc => hsc.startBucket k x.toNat)).mono
      fun _ _ hu => hu.mono fun _ _ hsc => hsc.done

/-- The buckets are loaded over whatever scratch held (R174). -/
theorem alike_loadBuckets (h : Alike SameLoaded w w') :
    SameEnd (Alike SameMeta) (loadBuckets w) (loadBuckets w') := by
  refine (alike_takeSrc1 h).bind ?_
  rintro _ _ ⟨bitmap, v, v', rfl, rfl, hv⟩
  exact alike_forEach (fun k _ _ _ => alike_loadBucket bitmap k) (hv.onScratch fun hsc => hsc.clearBsize)

end

/-! ### Decoding the blocks of a page -/

/-- The meta section of the page being decoded, and what has been read of it, are the same in the two
runs. -/
structure SameReader (sc sc' : Scratch) : Prop extends SameMeta sc sc' where
  counts : SameCounts sc sc'

theorem SameMeta.clearDp {sc sc' : Scratch} (h : SameMeta sc sc') : SameReader sc.clearDp sc'.clearDp :=
  ⟨⟨⟨⟨⟨h.bblen, h.bytes⟩, h.bbpos⟩, h.sizes⟩, h.entries⟩, sameCounts_clearDp sc sc'⟩

section
variable {w w' : Work}

/-- The next byte is one that was loaded, or the fault is the same (R179). -/
theorem alike_bbGet (h : Alike SameReader w w') : SameEnd (AlikeWith SameReader) (bbGet w) (bbGet w') := by
  have hsc := h.scratch
  simp only [bbGet, hsc.bbPos, hsc.bbLen]
  refine .ite (fun _ => alike_trap h _ _) fun hlt => ?_
  rw [hsc.bbAt (by omega)]
  refine .ok ⟨_, _, _, rfl, rfl, h.onScratch fun hsc => ?_⟩
  rw [hsc.bbPos]
  exact ⟨⟨⟨⟨⟨hsc.bblen, hsc.bytes⟩, rfl⟩, hsc.sizes⟩, hsc.entries⟩, hsc.counts⟩

/-- The next exception is one that was loaded, or the fault is the same (R177). -/
theorem alike_multiplex {idx : Nat} (h1 : 1 ≤ idx) (h32 : idx ≤ 32) (b : Nat) (h : Alike SameReader w w') :
    SameEnd (Alike SameReader) (multiplex idx b w) (multiplex idx b w') := by
  refine (alike_bbGet h).bind ?_
  rintro _ _ ⟨pos, v, v', rfl, rfl, hv⟩
  have hsc := hv.scratch
  simp only [hsc.counts.dpAt h32, hsc.bsizeAt h1 h32]
  refine (alike_check hv _ _ _).bind fun _ _ _ => (alike_check hv _ _ _).bind fun _ _ hlt => ?_
  rw [hsc.entries.bkAt h1 h32 (of_decide_eq_true hlt), onScratch_op, onScratch_op, hv.op]
  refine alike_orDst (hv.onScratch fun hsc => ?_) _ _
  exact ⟨⟨⟨⟨⟨hsc.bblen, hsc.bytes⟩, hsc.bbpos⟩, hsc.sizes⟩, hsc.entries⟩, hsc.counts.write idx _⟩

theorem alike_mergeExceptions (b c : Nat) (h : Alike SameReader w w') :
    SameEnd (Alike SameReader) (mergeExceptions b c w) (mergeExceptions b c w') := by
  refine .ite (fun _ => (alike_bbGet h).bind ?_) fun _ => .ok h
  rintro _ _ ⟨m, v, v', rfl, rfl, hv⟩
  refine (alike_check hv _ _ _).bind fun _ _ hm => ?_
  obtain ⟨hlow, hhigh⟩ := of_decide_eq_true hm
  exact alike_iter (fun _ _ => alike_multiplex (by omega) (by omega) b) c hv

theorem alike_fpfDecodeBlock (h : Alike SameReader w w') :
    SameEnd (Alike SameReader) (fpfDecodeBlock w) (fpfDecodeBlock w') := by
  refine (alike_bbGet h).bind ?_
  rintro _ _ ⟨b, w1, w1', rfl, rfl, h1⟩
  refine (alike_bbGet h1).bind ?_
  rintro _ _ ⟨c, w2, w2', rfl, rfl, h2⟩
  refine (alike_check h2 _ _ _).bind fun _ _ _ => (alike_check h2 _ _ _).bind fun _ _ _ => ?_
  refine (alike_unpackBlock h2 _).bind fun w3 w3' h3 => ?_
  refine (alike_mergeExceptions _ _ h3).bind fun w4 w4' h4 => .ok ?_
  rw [h4.op, h4.ip]
  exact h4.move _ _

end

/-- A FastPFOR page is decoded from what it has loaded itself (R171). -/
theorem readsNoStale_fpfDecodePage : ReadsNoStale fpfDecodePage := by
  intro n w w' h
  unfold fpfDecodePage
  simp only [h.ip]
  refine (alike_readSrc1 h w.ip).bind ?_
  rintro _ _ ⟨x, w1, w1', rfl, rfl, h1⟩
  simp only [h1.op]
  refine (alike_loadBytes (h1.move _ _)).bind fun w2 w2' h2 => ?_
  refine (alike_loadBuckets h2).bind fun w3 w3' h3 => ?_
  simp only [h3.op, h3.ip]
  refine (alike_iter (fun _ _ => alike_fpfDecodeBlock) (n / 128)
    ((h3.move _ _).onScratch fun hsc => hsc.clearDp)).bind fun w4 w4' h4 => .ok ?_
  rw [h4.op]
  exact h4.any.move _ _

/-! ### OptPFD -/

/-- The first `n` words of `EB` are the same in the two runs. -/
def SameStaged (n : Nat) (sc sc' : Scratch) : Prop := ∀ i, i < n → sc'.eb.get? i = sc.eb.get? i

theorem SameStaged.ebAt {sc sc' : Scratch} {n i : Nat} (h : SameStaged n sc sc') (hi : i < n) :
    sc'.ebAt i = sc.ebAt i := by
  rw [Scratch.ebAt, h i hi, Scratch.ebAt]

section
variable {w w' : Work}

/-- The payload fills as much of `EB` as the block reads, whatever `EB` held (R221). -/
theorem alike_loadPayload (S : S16) (n es : Nat) (h : Alike AnyScratch w w') :
    SameEnd (Alike (SameStaged (2 * n))) (loadPayload S n es w) (loadPayload S n es w') := by
  refine .ite (fun _ => (alike_takeSrc h es).bind ?_) fun hn =>
    .ok (h.mono_of fun _ i hi => absurd hi (by omega))
  rintro _ _ ⟨pl, v, v', rfl, rfl, hv⟩
  simp only
  cases S.uncompress pl es (2 * n) with
  | none => exact alike_trap hv _ _
  | some r =>
    refine .ok (hv.onScratch fun _ i hi => get?_write_congr fun hout => absurd ?_ hout)
    simpa using hi

/-- A patch reads what the payload has filled (R222). -/
theorem alike_opdPatch {n k : Nat} (hk : k < n) (b : Nat) (h : Alike (SameStaged (2 * n)) w w') :
    SameEnd (Alike (SameStaged (2 * n))) (opdPatch n b k w) (opdPatch n b k w') := by
  have hsc := h.scratch
  simp only [opdPatch, hsc.ebAt (show n + k < 2 * n by omega), hsc.ebAt (show k < 2 * n by omega), h.op]
  exact (alike_check h _ _ _).bind fun _ _ _ => alike_orDst h _ _

theorem alike_opdDecodeBlock (S : S16) (h : Alike AnyScratch w w') :
    SameEnd (Alike AnyScratch) (opdDecodeBlock S w) (opdDecodeBlock S w') := by
  refine (alike_takeSrc1 h).bind ?_
  rintro _ _ ⟨x, w1, w1', rfl, rfl, h1⟩
  refine (alike_check h1 _ _ _).bind fun _ _ _ => ?_
  refine (alike_loadPayload S _ _ h1).bind fun w2 w2' h2 => ?_
  refine (alike_unpackBlock h2 _).bind fun w3 w3' h3 => ?_
  refine (alike_forEach (fun k hk _ _ => alike_opdPatch (List.mem_range.1 hk) _) h3).bind
    fun w4 w4' h4 => .ok ?_
  rw [h4.op, h4.ip]
  exact h4.any.move _ _

end

theorem readsNoStale_opdDecodePage (S : S16) : ReadsNoStale (opdDecodePage S) :=
  fun n _ _ => alike_iter (fun _ _ => alike_opdDecodeBlock S) (n / 128)

end Sys2Proof.Machine
end

section
/-! PROOFS. No command carries anything from one to the next in scratch (10_state.md R36, R38). -/

namespace Sys2Proof.Machine

/-- The same state but for scratch. -/
def SameButScratch (t t' : State) : Prop := ∃ sc, t' = { t with scratch := sc }

theorem SameButScratch.refl (t : State) : SameButScratch t t := ⟨t.scratch, rfl⟩

/-- A command starts the same with any scratch. -/
theorem alike_start (s : State) (sc : Scratch) :
    Alike AnyScratch s.start (State.start { s with scratch := sc }) := ⟨sc, rfl, trivial⟩

theorem alike_commit {Q : Scratch → Scratch → Prop} {w w' : Work} (h : Alike Q w w') :
    w'.commit = w.commit := by
  obtain ⟨sc, rfl, _⟩ := h
  rfl

section
variable (s : State) (sc : Scratch)

theorem sameEnd_groupBody (n : Nat) (f : List Word → List Word) :
    SameEnd SameButScratch (groupBody n f s) (groupBody n f { s with scratch := sc }) := by
  refine (alike_takeSrc (alike_start s sc) n).bind ?_
  rintro _ _ ⟨v, w, w', rfl, rfl, hw⟩
  refine (alike_putDst hw (f v)).bind fun w1 w1' h1 => .ok ?_
  rw [alike_commit h1]
  exact .refl _

theorem sameEnd_selectBody {select : Scratch → List Word → (Nat × Nat × Nat) × Scratch}
    (hselect : ∀ sc sc' blk, (select sc blk).1 = (select sc' blk).1) :
    SameEnd SameButScratch (selectBody select s) (selectBody select { s with scratch := sc }) := by
  refine (alike_readSrc (alike_start s sc) _ 128).bind ?_
  rintro _ _ ⟨blk, w, w', rfl, rfl, hw⟩
  simp only [hselect w'.s.scratch w.s.scratch]
  obtain ⟨sc', rfl, _⟩ := hw
  exact .ok (.refl _)

section
variable {page : Nat → Work → Except Trap Work} (hpage : ReadsNoStale page)
include hpage

theorem sameEnd_pageBody (limit : Nat) :
    SameEnd SameButScratch (pageBody page limit s) (pageBody page limit { s with scratch := sc }) := by
  have hcheck : SameEnd (fun _ _ => True) (checkThissize s limit)
      (checkThissize { s with scratch := sc } limit) := .ite (fun _ => .error _) fun _ => .ok trivial
  refine hcheck.bind fun _ _ _ => (hpage _ _ _ (alike_start s sc)).bind fun w w' hw => .ok ?_
  rw [alike_commit hw]
  exact .refl _

theorem sameEnd_compressBody (size : Nat) :
    SameEnd SameButScratch (compressBody page size s) (compressBody page size { s with scratch := sc }) := by
  refine .ite (fun _ => .ok (.refl _)) fun _ => ?_
  refine (alike_putDst (alike_start s sc) _).bind fun w w' hw => ?_
  refine (alike_forPages hpage size _ hw).bind fun w1 w1' h1 => .ok ?_
  rw [alike_commit h1]
  exact .refl _

theorem sameEnd_uncompressBody (size : Nat) :
    SameEnd SameButScratch (uncompressBody page size s)
      (uncompressBody page size { s with scratch := sc }) := by
  refine .ite (fun _ => .ok (.refl _)) fun _ => (alike_takeSrc1 (alike_start s sc)).bind ?_
  rintro _ _ ⟨n, w, w', rfl, rfl, hw⟩
  refine (alike_check hw _ _ _).bind fun _ _ _ => ?_
  refine (alike_forPages hpage size _ hw).bind fun w1 w1' h1 => .ok ?_
  rw [alike_commit h1]
  exact .refl _

end

theorem sameEnd_commandBody (i : Instr) :
    SameEnd SameButScratch (commandBody i s) (commandBody i { s with scratch := sc }) := by
  cases i with
  | sreset => exact .ok (.refl _)
  | pack32 w => exact .ite (fun _ => .error _) fun _ => sameEnd_groupBody s sc _ _
  | unpack32 w => exact .ite (fun _ => .error _) fun _ => sameEnd_groupBody s sc _ _
  | fpfSelect =>
    exact sameEnd_selectBody s sc fun _ _ blk => (fpfSelect_fst _ blk).trans (fpfSelect_fst _ blk).symm
  | fpfEncpage => exact sameEnd_pageBody s sc readsNoStale_fpfEncodePage _
  | fpfDecpage => exact sameEnd_pageBody s sc readsNoStale_fpfDecodePage _
  | fpfCompress => exact sameEnd_compressBody s sc readsNoStale_fpfEncodePage _
  | fpfUncompress => exact sameEnd_uncompressBody s sc readsNoStale_fpfDecodePage _
  | opdSelect =>
    exact sameEnd_selectBody s sc fun _ _ blk =>
      (opdSelect_fst _ _ blk).trans (opdSelect_fst _ _ blk).symm
  | opdEncpage => exact sameEnd_pageBody s sc (readsNoStale_opdEncodePage _) _
  | opdDecpage => exact sameEnd_pageBody s sc (readsNoStale_opdDecodePage _) _
  | opdCompress => exact sameEnd_compressBody s sc (readsNoStale_opdEncodePage _) _
  | opdUncompress => exact sameEnd_uncompressBody s sc (readsNoStale_opdDecodePage _) _

/-- A fault leaves the same but for scratch, which an early fault does not touch (R251). -/
theorem takeFault_sameButScratch (e : Trap) :
    SameButScratch (takeFault s e) (takeFault { s with scratch := sc } e) := by
  cases he : causeIsEarly e.cause with
  | true =>
    rw [takeFault_early he, takeFault_early he]
    exact ⟨sc, rfl⟩
  | false =>
    rw [takeFault_late he, takeFault_late he]
    exact ⟨Scratch.unspecified, rfl⟩

/-- A body that ends alike with any scratch gives a command that does. -/
theorem runCommand_sameButScratch {body : State → Except Trap State}
    (hbody : SameEnd SameButScratch (body s) (body { s with scratch := sc })) {t : State}
    (h : runCommand s body = .next t) :
    ∃ sc', runCommand { s with scratch := sc } body = .next { t with scratch := sc' } := by
  rcases runCommand_cases h with ⟨hf, rfl⟩ | ⟨hf, hok⟩ | ⟨hf, e, herror, rfl⟩
  · exact ⟨sc, runCommand_faulted hf⟩
  · rw [hok] at hbody
    generalize hend : body { s with scratch := sc } = x at hbody
    cases hbody with
    | ok hsame =>
      obtain ⟨sc', rfl⟩ := hsame
      exact ⟨sc', runCommand_ok hf hend⟩
  · rw [herror] at hbody
    generalize hend : body { s with scratch := sc } = x at hbody
    cases hbody
    obtain ⟨sc', hsame⟩ := takeFault_sameButScratch s sc e
    exact ⟨sc', (runCommand_error (s := { s with scratch := sc }) hf hend).trans (congrArg _ hsame)⟩

end

/-- Settles O22: a run with other scratch contents ends alike, since no body reads scratch that it has
not written. -/
theorem scratchIsNotObservable : Obligations.ScratchIsNotObservable := by
  intro i s t sc h
  by_cases hi : i = .sreset
  · subst hi
    cases h
    exact ⟨Scratch.unspecified, rfl⟩
  · rw [exec_eq_runCommand hi] at h ⊢
    exact runCommand_sameButScratch s sc (sameEnd_commandBody s sc i) h

end Sys2Proof.Machine
end

section
/-! PROOFS. The four bytes of a word and the word of four bytes (20_memory.md R53). -/

namespace Sys2Proof.Machine

/-- `word_of_bytes` loses nothing: four bytes make less than `2^32` (R53). -/
theorem wordOfBytes_toNat (y0 y1 y2 y3 : Byte) : (wordOfBytes y0 y1 y2 y3).toNat =
    y0.toNat + 256 * y1.toNat + 65536 * y2.toNat + 16777216 * y3.toNat := by
  have h0 := y0.isLt
  have h1 := y1.isLt
  have h2 := y2.isLt
  have h3 := y3.isLt
  rw [wordOfBytes, BitVec.toNat_ofNat, Nat.mod_eq_of_lt (by omega)]

/-- The four bytes `bytes_of_word` gives are the word's digits to base 256 (R53). -/
theorem wordOfBytes_digits (w : Word) :
    wordOfBytes (BitVec.ofNat 8 w.toNat) (BitVec.ofNat 8 (w.toNat / 2 ^ 8))
      (BitVec.ofNat 8 (w.toNat / 2 ^ 16)) (BitVec.ofNat 8 (w.toNat / 2 ^ 24)) = w := by
  have hw := w.isLt
  refine BitVec.eq_of_toNat_eq ?_
  simp only [wordOfBytes_toNat, BitVec.toNat_ofNat]
  omega

/-- Settles O27, from the two conversions undoing each other. -/
theorem byteBufferIsLittleEndian : Obligations.ByteBufferIsLittleEndian :=
  ⟨fun y0 y1 y2 y3 => ⟨wordOfBytes_toNat y0 y1 y2 y3, bytesOfWord_wordOfBytes y0 y1 y2 y3⟩,
    fun w => ⟨_, _, _, _, rfl, wordOfBytes_digits w⟩⟩

end Sys2Proof.Machine
end

section
/-! PROOFS. The host's access to the two memories between commands (20_memory.md R50, R52). -/

namespace Sys2Proof.Machine

/-- A step with a pending action performs it, the action taken off the list (log entry 6). -/
theorem step_of_host {s : State} {op : HostOp} {rest : List HostOp} (h : s.host = op :: rest) :
    step s = hostAction op { s with host := rest } := by
  rw [step, hostStep, h]

/-- A host write of one word leaves every other word (R52). -/
theorem sameOutside_write_one (m : Memory) (a : Nat) (v : Word) : m.sameOutside (m.write a [v]) a 1 :=
  fun _ hi => get?_write_outside m hi

section
variable (s : State) {a : Nat} (v : Word)

theorem hostAction_writeSrc (h : a < s.params.srcLen.toNat) :
    hostAction (.writeSrc a v) s = .next { s with src := s.src.write a [v] } := if_pos h

theorem hostAction_writeDst (h : a < s.params.dstLen.toNat) :
    hostAction (.writeDst a v) s = .next { s with dst := s.dst.write a [v] } := if_pos h

theorem hostAction_readSrc (h : a < s.params.srcLen.toNat) (hv : s.src.get? a = some v) :
    hostAction (.readSrc a) s = .next (s.answer v) := by
  rw [hostAction, if_pos h, hv, drawn]

theorem hostAction_readDst (h : a < s.params.dstLen.toNat) (hv : s.dst.get? a = some v) :
    hostAction (.readDst a) s = .next (s.answer v) := by
  rw [hostAction, if_pos h, hv, drawn]

/-- `SRC` has no word from `SRC_LEN` on (R50; log entry 8). -/
theorem hostAction_src_outside {op : HostOp} (hop : op = .writeSrc a v ∨ op = .readSrc a)
    (h : s.params.srcLen.toNat ≤ a) : hostAction op s = .fault (.noSuchSrcWord a) := by
  rcases hop with rfl | rfl <;> exact if_neg (not_lt.2 h)

/-- `DST` has no word from `DST_LEN` on (R50; log entry 8). -/
theorem hostAction_dst_outside {op : HostOp} (hop : op = .writeDst a v ∨ op = .readDst a)
    (h : s.params.dstLen.toNat ≤ a) : hostAction op s = .fault (.noSuchDstWord a) := by
  rcases hop with rfl | rfl <;> exact if_neg (not_lt.2 h)

end

/-- Settles O13, by what each memory action of the host does within and outside its memory. -/
theorem hostReachesEveryMemoryWord : Obligations.HostReachesEveryMemoryWord := by
  intro s rest a v
  refine ⟨fun hh ha => ⟨_, (step_of_host hh).trans (hostAction_writeSrc _ v ha), ?_,
      sameOutside_write_one _ a v⟩,
    fun hh ha => ⟨_, (step_of_host hh).trans (hostAction_writeDst _ v ha), ?_,
      sameOutside_write_one _ a v⟩,
    fun hh ha hv => ⟨_, (step_of_host hh).trans (hostAction_readSrc _ v ha hv)⟩,
    fun hh ha hv => ⟨_, (step_of_host hh).trans (hostAction_readDst _ v ha hv)⟩,
    fun hh ha => ?_, fun hh ha => ?_⟩
  · simp [get?_write_one]
  · simp [get?_write_one]
  · rcases hh with hh | hh
    · exact (step_of_host hh).trans (hostAction_src_outside _ v (.inl rfl) ha)
    · exact (step_of_host hh).trans (hostAction_src_outside _ v (.inr rfl) ha)
  · rcases hh with hh | hh
    · exact (step_of_host hh).trans (hostAction_dst_outside _ v (.inl rfl) ha)
    · exact (step_of_host hh).trans (hostAction_dst_outside _ v (.inr rfl) ha)

end Sys2Proof.Machine
end

section
/-! PROOFS. The frame rule of a completed command: it writes `DST` exactly from the old to the new `OUTPOS`
(20_memory.md R51, R60, R62). -/

namespace Sys2Proof.Machine

/-- The two ways a command body that completes treats its output: `OUTPOS` and `DST` stay (the
`SELECT`s and empty input), or a running command that wrote exactly the words up to its output position
commits that position. -/
inductive State.Outputs (s : State) : State → Prop where
  | still {t : State} (houtpos : t.outpos = s.outpos) (hdst : t.dst = s.dst) : s.Outputs t
  | wrote {w : Work} (h : Ran s s.start.op w.op w) : s.Outputs w.commit

section
variable {s t : State}

theorem groupBody_outputs {n : Nat} {f : List Word → List Word} (h : groupBody n f s = .ok t) :
    s.Outputs t := by
  obtain ⟨⟨v, w⟩, hw, h⟩ := bind_eq_ok.1 h
  obtain ⟨w1, hw1, h⟩ := bind_eq_ok.1 h
  cases h
  obtain ⟨hran, hop⟩ := (Ran.start s).takeSrc hw
  rw [← hop] at hran
  exact .wrote (hop ▸ hran.putDst hw1)

theorem selectBody_outputs {select : Scratch → List Word → (Nat × Nat × Nat) × Scratch}
    (h : selectBody select s = .ok t) : s.Outputs t := by
  obtain ⟨⟨blk, w⟩, hw, h⟩ := bind_eq_ok.1 h
  obtain ⟨_, hread⟩ := readSrc_eq_ok.1 hw
  cases hread
  cases h
  exact .still rfl rfl

section
variable {page : Nat → Work → Except Trap Work} (hpage : KeepsFrame page)
include hpage

/-- The page loop writes only right behind what the command has written, since each page does. -/
theorem KeepsFrame.forPages {size n o : Nat} {w w' : Work} (h : Ran s o w.op w)
    (hw : forPages page size n w = .ok w') : Ran s o w'.op w' :=
  forPages_induct (P := fun v => Ran s o v.op v) (fun _ _ _ => hpage _ _ _ _ _) size n w w' h hw

theorem pageBody_outputs {limit : Nat} (h : pageBody page limit s = .ok t) : s.Outputs t := by
  obtain ⟨_, _, h⟩ := bind_eq_ok.1 h
  obtain ⟨w, hw, h⟩ := bind_eq_ok.1 h
  cases h
  exact .wrote (hpage _ _ _ _ _ (Ran.start s) hw)

theorem compressBody_outputs {size : Nat} (h : compressBody page size s = .ok t) : s.Outputs t := by
  simp only [compressBody] at h
  split at h
  · cases h
    exact .still rfl rfl
  · obtain ⟨w, hw, h⟩ := bind_eq_ok.1 h
    obtain ⟨w1, hw1, h⟩ := bind_eq_ok.1 h
    cases h
    exact .wrote (hpage.forPages ((Ran.start s).putDst hw) hw1)

theorem uncompressBody_outputs {size : Nat} (h : uncompressBody page size s = .ok t) : s.Outputs t := by
  unfold uncompressBody at h
  split at h
  · cases h
    exact .still rfl rfl
  · obtain ⟨⟨n, w⟩, hw, h⟩ := bind_eq_ok.1 h
    obtain ⟨_, _, h⟩ := bind_eq_ok.1 h
    obtain ⟨w1, hw1, h⟩ := bind_eq_ok.1 h
    cases h
    obtain ⟨hran, hop⟩ := (Ran.start s).takeSrc1 hw
    rw [← hop] at hran
    exact .wrote (hop ▸ hpage.forPages hran hw1)

end

/-- How every command but `SRESET` treats its output when its body completes. -/
theorem commandBody_outputs {i : Instr} (hi : i ≠ .sreset) (h : commandBody i s = .ok t) :
    s.Outputs t := by
  cases i with
  | sreset => exact absurd rfl hi
  | pack32 w =>
    simp only [commandBody] at h
    split at h
    · cases h
    · exact groupBody_outputs h
  | unpack32 w =>
    simp only [commandBody] at h
    split at h
    · cases h
    · exact groupBody_outputs h
  | fpfSelect => exact selectBody_outputs h
  | fpfEncpage => exact pageBody_outputs keepsFrame_fpfEncodePage h
  | fpfDecpage => exact pageBody_outputs keepsFrame_fpfDecodePage h
  | fpfCompress => exact compressBody_outputs keepsFrame_fpfEncodePage h
  | fpfUncompress => exact uncompressBody_outputs keepsFrame_fpfDecodePage h
  | opdSelect => exact selectBody_outputs h
  | opdEncpage => exact pageBody_outputs (keepsFrame_opdEncodePage _) h
  | opdDecpage => exact pageBody_outputs (keepsFrame_opdDecodePage _) h
  | opdCompress => exact compressBody_outputs (keepsFrame_opdEncodePage _) h
  | opdUncompress => exact uncompressBody_outputs (keepsFrame_opdDecodePage _) h

/-- From `s` to `t` the words `o .. o' - 1` of `DST` were written and no other (R62). -/
structure State.WroteBetween (s t : State) (o o' : Nat) : Prop where
  order : o ≤ o'
  written : ∀ a, o ≤ a → a < o' → (t.dst.get? a).isSome = true
  kept : s.dst.sameOutside t.dst o (o' - o)

theorem Ran.commit_wroteBetween {o hi : Nat} {w : Work} (h : Ran s o hi w) :
    s.WroteBetween w.commit o hi where
  order := h.order
  written := h.written
  kept := fun i hout => h.kept i (by have := h.order; omega)

/-- The output position of a running command fits `OUTPOS`: it is where the command started, or
within `DST` (R56). -/
theorem Ran.toNat_ofNat_top {o : Word} {hi : Nat} {w : Work} (h : Ran s o.toNat hi w) :
    (BitVec.ofNat 32 hi).toNat = hi := by
  have ho := o.isLt
  have hlen := s.params.dstLen.isLt
  rw [BitVec.toNat_ofNat, Nat.mod_eq_of_lt]
  rcases h.bound with rfl | hb <;> omega

/-- What a completed body did to `DST`, by the `OUTPOS` it started and ended with. -/
theorem State.Outputs.wroteBetween (h : s.Outputs t) {o o' : Word} (ho : s.outpos = .known o)
    (ho' : t.outpos = .known o') : s.WroteBetween t o.toNat o'.toNat := by
  cases h with
  | still houtpos hdst =>
    obtain rfl : o' = o := Content.known.inj (ho'.symm.trans (houtpos.trans ho))
    exact ⟨le_rfl, fun a h1 h2 => absurd h2 (by omega), fun _ _ => by rw [hdst]⟩
  | @wrote w hran =>
    rw [start_op_known s o ho] at hran
    obtain rfl : BitVec.ofNat 32 w.op = o' := Content.known.inj ho'
    rw [hran.toNat_ofNat_top]
    exact hran.commit_wroteBetween

end

/-- Settles O18: a command that leaves no fault has completed its body; `SRESET` sets `OUTPOS` to 0 and
leaves `DST`. -/
theorem completedCommandWritesExactlyItsOutput : Obligations.CompletedCommandWritesExactlyItsOutput := by
  intro i s t o o' hs ho h ht ho'
  by_cases hi : i = .sreset
  · subst hi
    cases h
    obtain rfl : 0 = o' := Content.known.inj ho'
    exact ⟨fun hne => absurd rfl hne, fun a _ ha => absurd ha (Nat.not_lt_zero a), fun _ _ => rfl, rfl⟩
  · have hsrc := (exec_sameOperands hi h).src
    rw [exec_eq_runCommand hi] at h
    rcases runCommand_cases h with ⟨hf, _⟩ | ⟨_, hdone⟩ | ⟨_, e, _, rfl⟩
    · exact absurd hf (by simp [hs.resolve_right hi])
    · obtain ⟨horder, hwritten, hkept⟩ := (commandBody_outputs hi hdone).wroteBetween ho ho'
      exact ⟨fun _ => horder, hwritten, hkept, hsrc⟩
    · exact absurd ht (by simp)

end Sys2Proof.Machine
end

section
/-! PROOFS. Command words: decoding undoes encoding, and a word selects the row of the command it
encodes, or is illegal (30_encoding.md R70 to R73). -/

namespace Sys2Proof.Machine

/-! ### Fields -/

@[simp] theorem opc_encode (i : Instr) : Field.opc (encode i) = i.opcode := by
  refine BitVec.eq_of_getLsbD_eq fun k hk => ?_
  simp only [Field.opc, encode, BitVec.getLsbD_extractLsb', BitVec.getLsbD_append]
  simp [hk]

@[simp] theorem w_encode (i : Instr) : Field.w (encode i) = i.widthField := by
  refine BitVec.eq_of_getLsbD_eq fun k hk => ?_
  simp only [Field.w, encode, BitVec.getLsbD_extractLsb', BitVec.getLsbD_append]
  simp [hk]

@[simp] theorem z_encode (i : Instr) : Field.z (encode i) = 0 := by
  refine BitVec.eq_of_getLsbD_eq fun k hk => ?_
  simp only [Field.z, encode, BitVec.getLsbD_extractLsb', BitVec.getLsbD_append]
  simp [show ¬ 14 + k < 8 by omega, show ¬ 14 + k - 8 < 6 by omega]

theorem encode_eq_iff_fields {c : Word} {i : Instr} :
    encode i = c ↔ Field.z c = 0 ∧ Field.w c = i.widthField ∧ Field.opc c = i.opcode := by
  constructor
  · rintro rfl
    exact ⟨z_encode i, w_encode i, opc_encode i⟩
  · rintro ⟨hz, hw, ho⟩
    exact encode_eq_of_fields hz hw ho

/-- A width field is in range for every well-formed command, most having none (R70, R73). -/
theorem widthField_le {i : Instr} (h : i.wellFormed = true) : i.widthField.toNat ≤ 32 := by
  cases i with
  | pack32 w => exact of_decide_eq_true h
  | unpack32 w => exact of_decide_eq_true h
  | _ => exact Nat.zero_le 32

/-! ### Decoding and encoding -/

theorem width_eq_command {c : Word} (hz : Field.z c = 0) (hw : (Field.w c).toNat ≤ 32) (i : Instr) :
    Decode.width c i = .command i := by
  rw [Decode.width, if_neg (not_not.2 hz), if_neg fun h => absurd (BitVec.lt_def.1 h) (not_lt.2 hw)]

/-- A command that takes a width decodes to a command of that width in range (R73). -/
theorem le_of_width_eq_command {c : Word} {i j : Instr} (h : Decode.width c j = .command i) :
    i = j ∧ (Field.w c).toNat ≤ 32 := by
  unfold Decode.width at h
  split at h
  · cases h
  · split at h
    · cases h
    · next hw =>
      cases h
      exact ⟨rfl, not_lt.1 fun hlt => hw (BitVec.lt_def.2 hlt)⟩

theorem eq_of_plain_eq_command {c : Word} {i j : Instr} (h : Decode.plain c j = .command i) : i = j := by
  unfold Decode.plain at h
  split at h
  · cases h
  · split at h <;> cases h
    rfl

/-- What a word decodes to is well formed (R73). -/
theorem wellFormed_of_decode {c : Word} {i : Instr} (h : decode c = .command i) :
    i.wellFormed = true := by
  unfold decode at h
  split at h
  case h_14 => cases h
  case h_2 =>
    obtain ⟨rfl, hw⟩ := le_of_width_eq_command h
    exact decide_eq_true hw
  case h_3 =>
    obtain ⟨rfl, hw⟩ := le_of_width_eq_command h
    exact decide_eq_true hw
  all_goals
    obtain rfl := eq_of_plain_eq_command h
    rfl

/-- The word of a well-formed command decodes to it, its width kept (R70, R72). -/
theorem decode_encode {i : Instr} (h : i.wellFormed = true) : decode (encode i) = .command i := by
  have hw : (Field.w (encode i)).toNat ≤ 32 := by rw [w_encode]; exact widthField_le h
  cases i with
  | pack32 w =>
    simp only [decode, opc_encode, Instr.opcode]
    exact (width_eq_command (z_encode _) hw _).trans (by rw [w_encode]; rfl)
  | unpack32 w =>
    simp only [decode, opc_encode, Instr.opcode]
    exact (width_eq_command (z_encode _) hw _).trans (by rw [w_encode]; rfl)
  | _ => rfl

/-- Settles O2: a word decodes only to a well-formed command that encodes to it, and the word of such
a command decodes to it. -/
theorem decodeEncodeAgree : Obligations.DecodeEncodeAgree := by
  refine fun c i => ⟨fun h => ⟨wellFormed_of_decode h, encode_of_decode h⟩, ?_⟩
  rintro ⟨h, rfl⟩
  exact decode_encode h

/-! ### Rows of the opcode table -/

/-- Every command's word matches the row of its command (R72). -/
theorem encode_and_mask (i : Instr) : encode i &&& i.tableRow.2 = i.tableRow.1 := by
  cases i with
  | sreset => exact Laws.TableMatch.sreset
  | pack32 w => exact Laws.TableMatch.pack32 w
  | unpack32 w => exact Laws.TableMatch.unpack32 w
  | fpfSelect => exact Laws.TableMatch.fpfSelect
  | fpfEncpage => exact Laws.TableMatch.fpfEncpage
  | fpfDecpage => exact Laws.TableMatch.fpfDecpage
  | fpfCompress => exact Laws.TableMatch.fpfCompress
  | fpfUncompress => exact Laws.TableMatch.fpfUncompress
  | opdSelect => exact Laws.TableMatch.opdSelect
  | opdEncpage => exact Laws.TableMatch.opdEncpage
  | opdDecpage => exact Laws.TableMatch.opdDecpage
  | opdCompress => exact Laws.TableMatch.opdCompress
  | opdUncompress => exact Laws.TableMatch.opdUncompress

/-- Every mask covers the fields `OPC` and `Z` (R72). -/
theorem mask_outside_w (i : Instr) {k : Nat} (hk : k < 32) (hout : k < 8 ∨ 14 ≤ k) :
    i.tableRow.2.getLsbD k = true := by
  have hwide : ∀ k < 32, k < 8 ∨ 14 ≤ k → (0xFFFFC0FF : Word).getLsbD k = true := by decide
  have hall : ∀ k < 32, (0xFFFFFFFF : Word).getLsbD k = true := by decide
  cases i with
  | pack32 w => exact hwide k hk hout
  | unpack32 w => exact hwide k hk hout
  | _ => exact hall k hk

/-- Words that agree in the field `W` and under a row's mask are equal. -/
theorem eq_of_mask_eq {c d : Word} (i : Instr) (hmask : c &&& i.tableRow.2 = d &&& i.tableRow.2)
    (hw : Field.w c = Field.w d) : c = d := by
  refine BitVec.eq_of_getLsbD_eq fun k hk => ?_
  by_cases hin : 8 ≤ k ∧ k < 14
  · have hbit := congrArg (BitVec.getLsbD · (k - 8)) hw
    simpa [Field.w, show k - 8 < 6 by omega, show 8 + (k - 8) = k by omega] using hbit
  · have hbit := congrArg (BitVec.getLsbD · k) hmask
    simpa [mask_outside_w i hk (by omega)] using hbit

/-- A word selects the row of a command exactly if the command is well formed and encodes to it
(R72). -/
theorem rowSelects_iff {i : Instr} {c : Word} :
    i.rowSelects c ↔ i.wellFormed = true ∧ encode i = c := by
  constructor
  · rintro ⟨hrow, hw, hle⟩
    refine ⟨?_, eq_of_mask_eq i ((encode_and_mask i).trans hrow.symm) ((w_encode i).trans hw.symm)⟩
    rw [hw] at hle
    cases i with
    | pack32 w => exact decide_eq_true hle
    | unpack32 w => exact decide_eq_true hle
    | _ => rfl
  · rintro ⟨h, rfl⟩
    exact ⟨encode_and_mask i, w_encode i, by rw [w_encode]; exact widthField_le h⟩

/-- Settles O1: decoding and selecting a row are both encoding read backwards. -/
theorem decodeSelectsTableRow : Obligations.DecodeSelectsTableRow :=
  fun c i => (decodeEncodeAgree c i).trans rowSelects_iff.symm

/-- Settles O3, by evaluating the decoder on the nine words. -/
theorem writtenOutWordsDecode : Obligations.WrittenOutWordsDecode := by
  unfold Obligations.WrittenOutWordsDecode
  decide

/-! ### Illegal words -/

/-- The opcode and the width of a well-formed command are legal together (R73). -/
theorem legal_of_wellFormed {i : Instr} (h : i.wellFormed = true) :
    i.opcode ∈ commandOpcodes ∧ (i.opcode ∈ widthOpcodes ∨ i.widthField = 0) := by
  cases i with
  | pack32 w => simp [Instr.opcode, commandOpcodes, widthOpcodes]
  | unpack32 w => simp [Instr.opcode, commandOpcodes, widthOpcodes]
  | _ => exact ⟨by decide, .inr rfl⟩

/-- Every legal pair of an opcode and a width is that of a well-formed command (R72). -/
theorem exists_of_legal {o : BitVec 8} {w : BitVec 6} (ho : o ∈ commandOpcodes)
    (hplain : o ∉ widthOpcodes → w = 0) (hwidth : o ∈ widthOpcodes → w.toNat ≤ 32) :
    ∃ i : Instr, i.wellFormed = true ∧ w = i.widthField ∧ o = i.opcode := by
  by_cases hw : o ∈ widthOpcodes
  · have hle := hwidth hw
    simp only [widthOpcodes, List.mem_cons, List.not_mem_nil, or_false] at hw
    rcases hw with rfl | rfl
    · exact ⟨.pack32 w, decide_eq_true hle, rfl, rfl⟩
    · exact ⟨.unpack32 w, decide_eq_true hle, rfl, rfl⟩
  · obtain rfl := hplain hw
    have hmem : o ∈ [Instr.sreset, .pack32 0, .unpack32 0, .fpfSelect, .fpfEncpage, .fpfDecpage,
        .fpfCompress, .fpfUncompress, .opdSelect, .opdEncpage, .opdDecpage, .opdCompress,
        .opdUncompress].map Instr.opcode := ho
    obtain ⟨i, hi, rfl⟩ := List.mem_map.1 hmem
    refine ⟨i, ?_, ?_, rfl⟩ <;> revert i <;> decide

/-- The words that select no row (R73). -/
theorem no_rowSelects_iff (c : Word) :
    (∀ i : Instr, ¬ i.rowSelects c) ↔
      Field.opc c ∉ commandOpcodes ∨ Field.z c ≠ 0 ∨
      (Field.opc c ∉ widthOpcodes ∧ Field.w c ≠ 0) ∨
      (Field.opc c ∈ widthOpcodes ∧ 32 < (Field.w c).toNat) := by
  constructor
  · intro hnone
    by_contra hlegal
    simp only [not_or, not_and, not_not, not_lt] at hlegal
    obtain ⟨hopc, hz, hplain, hwidth⟩ := hlegal
    obtain ⟨i, hi, hw, ho⟩ := exists_of_legal hopc hplain hwidth
    exact hnone i (rowSelects_iff.2 ⟨hi, encode_eq_iff_fields.2 ⟨hz, hw, ho⟩⟩)
  · intro hillegal i hrow
    obtain ⟨hi, hc⟩ := rowSelects_iff.1 hrow
    obtain ⟨hz, hw, ho⟩ := encode_eq_iff_fields.1 hc
    obtain ⟨hmem, hplain⟩ := legal_of_wellFormed hi
    have hle := widthField_le hi
    rw [hz, hw, ho] at hillegal
    rcases hillegal with h | h | ⟨h, h0⟩ | ⟨_, hgt⟩
    · exact h hmem
    · exact h rfl
    · exact hplain.elim h h0
    · omega

/-- Issuing a word that decodes to no command, to an unfaulted block (R73). -/
theorem issueCommand_illegal {c : Word} {s : State} (hs : s.faulted = false)
    (hc : ∀ i, decode c ≠ .command i) : issueCommand c s = .next (s.afterEarlyFault 1 c) := by
  unfold issueCommand
  split
  · next i hi => exact absurd hi (hc i)
  · rw [execIllegal, runCommand_error hs rfl, takeFault_early rfl]
    simp [State.recordFault, State.afterEarlyFault, setFault, causeCode]

/-- Settles O4: a word that selects no row decodes to nothing, and decoding is a function. -/
theorem illegalWordFaultsAlone : Obligations.IllegalWordFaultsAlone := by
  refine fun c => ⟨no_rowSelects_iff c, fun i j hi hj => ?_, fun s hs hnone => ?_⟩
  · have hci := (decodeSelectsTableRow c i).2 hi
    have hcj := (decodeSelectsTableRow c j).2 hj
    exact Decoded.command.inj (hci.symm.trans hcj)
  · exact issueCommand_illegal hs fun i hi => hnone i ((decodeSelectsTableRow c i).1 hi)

end Sys2Proof.Machine
end

section
/-! PROOFS. What a page command and a compressor leave where their page procedure completes
(42_fastpfor_encode.md R140, R150; 43_fastpfor_decode.md R170; 44_optpfd.md R210, R215). -/

namespace Sys2Proof.Machine

/-- An encoder reads the values `vs` and writes the words `ws`: the property of a decoder with words
and values exchanged. -/
abbrev EncodesTo (p : Params) (run : Work → Except Trap Work) (vs ws : List Word) : Prop :=
  DecodesTo p run vs ws

theorem checkThissize_ok {s : State} {limit : Nat} (h : s.thissize.toNat ≤ limit) :
    checkThissize s limit = .ok () := if_neg (not_lt.2 h)

/-- A page command whose page procedure turns the words `us` into the words `out` completes where
`SRC` holds the ones and `DST` has room for the others. -/
theorem page_completes {page : Nat → Work → Except Trap Work} {limit : Nat} {us out : List Word}
    {s : State} {ip op : Word} (hpage : DecodesTo s.params (page s.thissize.toNat) us out)
    (hs : s.ready ip op) (hsize : s.thissize.toNat ≤ limit) (hsees : s.Sees ip.toNat us)
    (hroom : op.toNat + out.length ≤ s.params.dstLen.toNat) :
    ∃ t, runCommand s (pageBody page limit) = .next t ∧
      s.Completes t ip.toNat op.toNat us.length out := by
  obtain ⟨hf, hin, hout⟩ := hs
  have hip : s.start.ip = ip.toNat := start_ip_known s ip hin
  have hop : s.start.op = op.toNat := start_op_known s op hout
  obtain ⟨w, hw, hwrote, hip', hop'⟩ :=
    hpage s.start rfl (by rw [hip]; exact hsees.congr rfl rfl) (by rwa [hop])
  rw [hop] at hwrote hop'
  rw [hip] at hip'
  refine ⟨w.commit, runCommand_ok hf ?_, completes_commit hwrote hip' hop'⟩
  simp only [pageBody, checkThissize_ok hsize, ok_bind, hw]

/-- Settles O45, from the decoding of one page image. -/
theorem fpfDecpageReversesThePage : Obligations.FpfDecpageReversesThePage := by
  intro s ip op vs hs hsize hvs hsrc hbound hroom
  have hpage := decodesTo_fpfDecodePage (p := s.params) (vs := vs) (by omega) (by omega)
  have hblocks : fpfDecodePage vs.length = fpfDecodePage s.thissize.toNat := by
    funext w
    simp only [fpfDecodePage, show vs.length / 128 = s.thissize.toNat / 128 by omega]
  rw [hblocks] at hpage
  exact page_completes hpage hs hsize ⟨hsrc, hbound⟩ hroom

/-! ### Writing behind what was written -/

section
variable {w w1 : Work} {a : Nat} {out : List Word}

/-- Putting words into room that `DST` has, right behind what was written. -/
theorem Work.Wrote.putDst (h : w.Wrote w1 a out) (hop : w1.op = a + out.length) {ws : List Word}
    (hroom : a + out.length + ws.length ≤ w.s.params.dstLen.toNat) :
    ∃ w2, w1.putDst ws = .ok w2 ∧ w.Wrote w2 a (out ++ ws) ∧ w2.ip = w1.ip ∧
      w2.op = w1.op + ws.length ∧ w2.s.scratch = w1.s.scratch := by
  refine ⟨_, putDst_eq_ok.2 ⟨.inr (by rwa [h.params, hop]), rfl⟩, ?_, rfl, rfl, rfl⟩
  rw [hop]
  exact h.append ⟨rfl, holds_write _ _ _, fun _ hi => get?_write_outside _ hi⟩

/-- The first of the words written is written again: the head word of a page (42_fastpfor_encode.md
R146). -/
theorem Work.Wrote.rewriteHead {x y : Word} (h : w.Wrote w1 a (x :: out))
    (hroom : a + 1 ≤ w.s.params.dstLen.toNat) :
    ∃ w2, w1.writeDst a [y] = .ok w2 ∧ w.Wrote w2 a (y :: out) ∧ w2.ip = w1.ip ∧ w2.op = w1.op ∧
      w2.s.scratch = w1.s.scratch := by
  obtain ⟨_, htail⟩ := holds_cons.1 h.written
  refine ⟨_, writeDst_eq_ok.2 ⟨.inr (by rwa [h.params]), rfl⟩, ⟨?_, ?_, ?_⟩, rfl, rfl, rfl⟩
  · rw [h.state]
  · refine holds_cons.2 ⟨by rw [get?_write_one, if_pos rfl], htail.congr fun i hi _ => ?_⟩
    exact get?_write_outside _ (.inr (by simpa using hi))
  · intro i hi
    rw [List.length_cons] at hi
    refine (get?_write_outside _ ?_).trans (h.kept i (by rwa [List.length_cons]))
    rw [List.length_singleton]
    omega

end

/-- From `w` to `w'` a running command put the words `ws` at its output position and neither
took words of `SRC` nor changed scratch. -/
structure Work.Puts (w w' : Work) (ws : List Word) : Prop where
  wrote : w.Wrote w' w.op ws
  ip : w'.ip = w.ip
  op : w'.op = w.op + ws.length
  scratch : w'.s.scratch = w.s.scratch

/-- With scratch `sc`, and wherever `DST` has room, the procedure puts the words `ws`. -/
def PutsAll (sc : Scratch) (run : Work → Except Trap Work) (ws : List Word) : Prop :=
  ∀ w : Work, w.s.scratch = sc → w.op + ws.length ≤ w.s.params.dstLen.toNat →
    ∃ w', run w = .ok w' ∧ w.Puts w' ws

section
variable {sc : Scratch}

theorem putsAll_nil : PutsAll sc .ok [] := fun w _ _ => ⟨w, rfl, .refl w _, rfl, rfl, rfl⟩

theorem putsAll_putDst (ws : List Word) : PutsAll sc (·.putDst ws) ws := by
  intro w _ hroom
  obtain ⟨w', hw', hwrote, hip, hop, hsc⟩ := (Work.Wrote.refl w w.op).putDst rfl hroom
  exact ⟨w', hw', hwrote, hip, hop, hsc⟩

theorem PutsAll.congr {f g : Work → Except Trap Work} {ws : List Word} (hg : PutsAll sc g ws)
    (hfg : ∀ w : Work, w.s.scratch = sc → f w = g w) : PutsAll sc f ws := by
  intro w hsc hroom
  rw [hfg w hsc]
  exact hg w hsc hroom

theorem PutsAll.append {f g : Work → Except Trap Work} {us vs : List Word} (hf : PutsAll sc f us)
    (hg : PutsAll sc g vs) : PutsAll sc (fun w => f w >>= g) (us ++ vs) := by
  intro w hsc hroom
  rw [List.length_append] at hroom
  obtain ⟨w1, h1, hw1, hip1, hop1, hsc1⟩ := hf w hsc (by omega)
  obtain ⟨w2, h2, hw2, hip2, hop2, hsc2⟩ := hg w1 (hsc1.trans hsc) (by rw [hw1.params]; omega)
  rw [hop1] at hw2
  exact ⟨w2, (congrArg (· >>= g) h1).trans h2, hw1.append hw2, hip2.trans hip1,
    by rw [hop2, hop1, List.length_append, Nat.add_assoc], hsc2.trans hsc1⟩

/-- A loop each round of which puts its words puts them all, in order. -/
theorem putsAll_forEach {body : Nat → Work → Except Trap Work} {f : Nat → List Word} {ks : List Nat}
    (h : ∀ k ∈ ks, PutsAll sc (body k) (f k)) : PutsAll sc (forEach body ks) (ks.flatMap f) := by
  induction ks with
  | nil => exact putsAll_nil
  | cons k ks ih =>
    rw [List.flatMap_cons]
    exact (h k (by simp)).append (ih fun k' hk => h k' (by simp [hk]))

/-- Packing cuts the values to the width itself (40_bitpacking.md R101). -/
theorem pack32_map_low (v : List Word) (b : Nat) :
    pack32 (v.map fun x => BitVec.ofNat 32 (low x b)) b = pack32 v b := by
  simp [pack32, Function.comp_def]

/-- The packed block is the low-bit words of the block (R86, R94). -/
theorem putsAll_packBlock (blk : List Word) (b : Nat) :
    PutsAll sc (packBlock blk b) (lowBitsWords blk b) := by
  simp only [lowBitsWords, pack32_map_low]
  exact putsAll_forEach fun g _ => putsAll_putDst (pack32 (groupOf blk g) b)

end

/-! ### Pages and streams -/

section
variable {p : Params}

/-- One round for each block encodes the blocks. -/
theorem encodesTo_iter {body : Work → Except Trap Work} {image : List Word → List Word}
    {blks : List (List Word)} (h : ∀ blk ∈ blks, EncodesTo p body blk (image blk)) :
    EncodesTo p (iter body blks.length) blks.flatten (blks.flatMap image) := by
  induction blks with
  | nil => exact decodesTo_nil
  | cons blk blks ih =>
    rw [List.flatMap_cons, List.flatten_cons]
    exact (h blk (by simp)).append (ih fun x hx => h x (by simp [hx]))

/-- The pages of a whole number of blocks are at most `size` long and themselves whole numbers of
blocks (R81). -/
theorem length_of_mem_pagesOf {size : Nat} (h128 : size % 128 = 0) {vs page : List Word}
    (hvs : vs.length % 128 = 0) (h : page ∈ pagesOf size vs) :
    page.length ≤ size ∧ page.length % 128 = 0 := by
  obtain ⟨i, _, rfl⟩ := List.mem_map.1 h
  have hdrop : size * i % 128 = 0 := by rw [Nat.mul_mod, h128, Nat.zero_mul]
  simp only [List.length_take, List.length_drop]
  omega

/-- The page loop encodes the pages (R151). -/
theorem encodesTo_forPages {page : Nat → Work → Except Trap Work} {image : List Word → List Word}
    {size : Nat} (hsize : 0 < size) {vs : List Word}
    (h : ∀ xs ∈ pagesOf size vs, EncodesTo p (page xs.length) xs (image xs)) :
    EncodesTo p (forPages page size vs.length) vs ((pagesOf size vs).flatMap image) := by
  unfold forPages
  generalize hrounds : ceilDiv vs.length size = rounds
  induction rounds generalizing vs with
  | zero =>
    have hle := le_mul_ceilDiv vs.length hsize
    obtain rfl : vs = [] := List.length_eq_zero_iff.1 (by simpa [hrounds] using hle)
    rw [pagesOf_nil hsize]
    exact decodesTo_nil
  | succ k ih =>
    have hpos : 0 < vs.length := by
      by_contra h0
      rw [show vs.length = 0 by omega, ceilDiv_zero hsize] at hrounds
      omega
    rw [pagesOf_eq_cons hsize hpos] at h ⊢
    rw [ceilDiv_eq_succ hsize hpos] at hrounds
    have hpage := h (vs.take size) (by simp)
    have hrest := ih (vs := vs.drop size) (fun xs hxs => h xs (by simp [hxs]))
      (by rw [List.length_drop]; omega)
    have hboth := hpage.append hrest
    rw [List.take_append_drop, List.length_take, List.length_drop,
      show vs.length - size = vs.length - min size vs.length by omega] at hboth
    exact hboth

end

/-- A compressor whose page loop encodes the whole blocks `vs` of its input to `ws` completes, having
written the count word and `ws`; the tail of the input is dropped (R150, R151). -/
theorem compress_completes {page : Nat → Work → Except Trap Work} {size : Nat} {ws vs : List Word}
    {s : State} {ip op : Word} (hpages : EncodesTo s.params (forPages page size vs.length) vs ws)
    (hs : s.ready ip op) (hvs : vs.length = 128 * (s.inlen.toNat / 128)) (hinlen : 128 ≤ s.inlen.toNat)
    (hsees : s.Sees ip.toNat vs)
    (hroom : op.toNat + (BitVec.ofNat 32 vs.length :: ws).length ≤ s.params.dstLen.toNat) :
    ∃ t, runCommand s (compressBody page size) = .next t ∧
      s.Completes t ip.toNat op.toNat vs.length (BitVec.ofNat 32 vs.length :: ws) := by
  obtain ⟨hf, hin, hout⟩ := hs
  have hip : s.start.ip = ip.toNat := start_ip_known s ip hin
  have hop : s.start.op = op.toNat := start_op_known s op hout
  rw [List.length_cons] at hroom
  obtain ⟨w1, h1, hw1, hip1, hop1, _⟩ := putsAll_putDst (sc := s.scratch) [BitVec.ofNat 32 vs.length]
    s.start rfl (by rw [hop, List.length_singleton, start_params]; omega)
  rw [hop] at hw1 hop1
  rw [hip] at hip1
  rw [List.length_singleton] at hop1
  obtain ⟨w2, h2, hw2, hip2, hop2⟩ := hpages w1 hw1.params
    (by rw [hip1]; exact hw1.sees (hsees.congr rfl rfl)) (by omega)
  rw [hop1] at hw2
  refine ⟨w2.commit, runCommand_ok hf ?_, completes_commit (hw1.append hw2) (by rw [hip2, hip1]) ?_⟩
  · have hn : s.inlen.toNat - s.inlen.toNat % 128 = vs.length := by omega
    simp only [compressBody, hn, show ¬ vs.length = 0 by omega, if_false, Work.putDst1, h1, ok_bind, h2]
  · rw [hop2, hop1]
    rw [List.length_cons]
    omega

end Sys2Proof.Machine
end

section
/-! PROOFS. The OptPFD encoder writes the record format (30_encoding.md R92 to R94; 44_optpfd.md R210 to
R215), and the header checks of the decoder (R221). -/

namespace Sys2Proof.Machine

section
variable {p : Params} {S : S16}

/-- A block is encoded to its record, where its payload fits the header field (R212). -/
theorem encodesTo_opdEncodeBlock {blk : List Word} (hlen : blk.length = 128)
    (hpl : (optPayload S blk).length ≤ 65535) :
    EncodesTo p (opdEncodeBlock S) blk (optRecord S blk) := by
  rintro w rfl hsees hroom
  have htake : w.takeSrc 128 = .ok (blk, w.took 128) := hlen ▸ takeSrc_of_sees hsees
  have hcheck (v : Work) : v.check (decide ((optPayload S blk).length ≤ 65535)) .s16Fault
      (optPayload S blk).length = .ok () := check_eq_ok.2 (decide_eq_true hpl)
  simp only [opdEncodeBlock, htake, ok_bind, opdSelect_fst, opdPayload_stage S hlen, hcheck]
  generalize hsc : (if (optSelected S blk).2.1 > 0 then _ else _ : Scratch) = sc
  have hputs : PutsAll sc (fun v => v.putDst [opdHeader (optSelected S blk).1 (optSelected S blk).2.1
      (optPayload S blk).length] >>= fun w3 => w3.putDst (optPayload S blk) >>=
        packBlock blk (widthOf (optSelected S blk).1)) (optRecord S blk) :=
    (putsAll_putDst [_]).append ((putsAll_putDst _).append (putsAll_packBlock _ _))
  obtain ⟨w', hw', hwrote, hip, hop, _⟩ := hputs ((w.took 128).onScratch fun _ => sc) rfl hroom
  exact ⟨w', hw', (((Work.Wrote.refl w w.op).took 128).onScratch _).after_quiet hwrote,
    by rw [hip, hlen]; rfl, hop⟩

/-- A page is encoded to the records of its blocks (R211). -/
theorem encodesTo_opdEncodePage {n : Nat} {vs : List Word} (hvs : vs.length = 128 * (n / 128))
    (hpl : ∀ blk ∈ blocksOf vs, (optPayload S blk).length ≤ 65535) :
    EncodesTo p (opdEncodePage S n) vs (optImage S (blocksOf vs)) := by
  have := encodesTo_iter (p := p) (body := opdEncodeBlock S) (image := optRecord S) (blks := blocksOf vs)
    fun blk hblk => encodesTo_opdEncodeBlock (length_of_mem_blocksOf hblk) (hpl blk hblk)
  rwa [length_blocksOf, flatten_blocksOf (by omega), show vs.length / 128 = n / 128 by omega] at this

end

/-- Settles O50: block after block the record is written. -/
theorem opdEncpageWritesTheRecordFormat : Obligations.OpdEncpageWritesTheRecordFormat := by
  intro s ip op vs hs hsize hvs hsrc hbound hpl hroom
  exact page_completes (limit := Config.opdPageSize) (encodesTo_opdEncodePage hvs hpl) hs hsize
    ⟨hsrc, hbound⟩ hroom

/-- The pages of an OptPFD stream are the records of all its blocks (R92, R215). -/
theorem flatMap_optImage_pagesOf (S : S16) {vs : List Word} (h128 : vs.length % 128 = 0) :
    (pagesOf Config.opdPageSize vs).flatMap (fun page => optImage S (blocksOf page)) =
      optImage S (blocksOf vs) := by
  rw [← flatMap_blocksOf_pagesOf (size := Config.opdPageSize) (by decide) (by decide) h128]
  exact List.flatMap_assoc.symm

/-- Settles O51: page after page the records are written. -/
theorem opdCompressWritesTheStreamFormat : Obligations.OpdCompressWritesTheStreamFormat := by
  intro s ip op vs hs hvs hinlen hsrc hbound hpl hroom
  have h128 : vs.length % 128 = 0 := by omega
  have hpages := encodesTo_forPages (p := s.params) (page := opdEncodePage Config.s16)
    (image := fun page => optImage Config.s16 (blocksOf page)) (size := Config.opdPageSize) (by decide)
    (vs := vs) fun page hpage => by
      have := (length_of_mem_pagesOf (by decide) h128 hpage).2
      refine encodesTo_opdEncodePage (by omega) fun blk hblk => hpl blk ?_
      rw [← flatMap_blocksOf_pagesOf (size := Config.opdPageSize) (by decide) (by decide) h128]
      exact List.mem_flatMap.2 ⟨page, hpage, hblk⟩
  rw [flatMap_optImage_pagesOf _ h128] at hpages
  exact compress_completes hpages hs hvs hinlen ⟨hsrc, hbound⟩ hroom

/-! ### The header of the decoder -/

/-- The header fields are the word's bits `7:0`, `15:8` and `31:16` (30_encoding.md R93). -/
theorem headerFields_eq_extract (h : Word) : headerFields h =
    ((h.extractLsb' 0 8).toNat, (h.extractLsb' 8 8).toNat, (h.extractLsb' 16 16).toNat) := by
  have hlt := h.isLt
  have hes : h.toNat / 2 ^ 16 < 2 ^ 16 := by omega
  simp only [headerFields, BitVec.extractLsb'_toNat, Nat.shiftRight_eq_div_pow, pow_zero, Nat.div_one,
    Nat.mod_eq_of_lt hes]

theorem headerOk_eq_false_iff {besti n es : Nat} : headerOk besti n es = false ↔
    16 < besti ∨ 128 < n ∨ (n = 0 ∧ es ≠ 0) ∨ (besti = 16 ∧ 0 < n) := by
  simp only [headerOk, Bool.not_eq_false', Bool.or_eq_true, Bool.and_eq_true, decide_eq_true_eq,
    beq_iff_eq, bne_iff_ne, or_assoc, gt_iff_lt]

/-- Settles O56: the first check after the header word is read fails. -/
theorem opdHeaderChecks : Obligations.OpdHeaderChecks := by
  intro S w h hip hsrc besti n es hbad
  have hsees : w.s.Sees w.ip [h] := ⟨holds_cons.2 ⟨hsrc, holds_nil _ _⟩, hip⟩
  have hcheck : (w.took 1).check (headerOk besti n es) .badOptHeader h.toNat =
      .error ⟨.badOptHeader, h.toNat, (w.took 1).s.tick⟩ :=
    check_eq_error.2 ⟨headerOk_eq_false_iff.2 hbad, rfl⟩
  refine ⟨⟨.badOptHeader, h.toNat, (w.took 1).s.tick⟩, ?_, rfl, rfl⟩
  simp only [opdDecodeBlock, takeSrc1_of_sees hsees, ok_bind, headerFields_eq_extract]
  exact congrArg (· >>= _) hcheck

end Sys2Proof.Machine
end

section
/-! PROOFS. What the FastPFOR encoder has staged in scratch: the byte buffer and the buckets of the blocks
encoded so far (42_fastpfor_encode.md R141 to R143, R147). -/

namespace Sys2Proof.Machine

/-- The byte buffer holds exactly the bytes `bytes`, and bucket `k` exactly the values `vals k`. -/
structure Staged (sc : Scratch) (bytes : List Byte) (vals : Nat → List Word) : Prop where
  bblen : sc.bblen = some bytes.length
  buffer : Arr.Holds sc.bb 0 bytes
  counts : ∀ k, 1 ≤ k → k ≤ 32 → sc.dp.get? k = some (vals k).length
  entries : ∀ k, 1 ≤ k → k ≤ 32 → Arr.Holds sc.bk (bkIndex k 0) (vals k)

section
variable {sc : Scratch} {bytes : List Byte} {vals : Nat → List Word}

theorem Staged.bbLen (h : Staged sc bytes vals) : sc.bbLen = bytes.length := by
  rw [Scratch.bbLen, h.bblen, Option.getD_some]

theorem Staged.dpAt (h : Staged sc bytes vals) {k : Nat} (h1 : 1 ≤ k) (h32 : k ≤ 32) :
    sc.dpAt k = (vals k).length := by
  rw [Scratch.dpAt, h.counts k h1 h32, Option.getD_some]

theorem Staged.bbAt (h : Staged sc bytes vals) {i : Nat} (hi : i < bytes.length) :
    sc.bbAt i = bytes.getD i 0 := by
  have hget := h.buffer.get? hi
  rw [Nat.zero_add] at hget
  rw [Scratch.bbAt, hget, Option.getD_some, List.getD_eq_getElem _ _ hi]

theorem Staged.bkAt (h : Staged sc bytes vals) {k j : Nat} (h1 : 1 ≤ k) (h32 : k ≤ 32)
    (hj : j < (vals k).length) : sc.bkAt k j = (vals k).getD j 0 := by
  rw [Scratch.bkAt, bkIndex_eq_add, (h.entries k h1 h32).get? hj, Option.getD_some,
    List.getD_eq_getElem _ _ hj]

/-- A page starts with nothing staged, whatever scratch held (R141). -/
theorem staged_start (sc : Scratch) : Staged { sc.clearDp with bblen := some 0 } [] fun _ => [] :=
  ⟨rfl, holds_nil _ _, fun _ _ h32 => clearDp_get? sc h32, fun _ _ _ => holds_nil _ _⟩

theorem Staged.bbPut (h : Staged sc bytes vals) (y : Byte) : Staged (sc.bbPut y) (bytes ++ [y]) vals where
  bblen := by rw [Scratch.bbPut, h.bbLen, List.length_append, List.length_singleton]
  buffer := by
    have hmore := h.buffer.write_append [y]
    rwa [Nat.zero_add, ← h.bbLen] at hmore
  counts := h.counts
  entries := h.entries

/-- Appending to a bucket: a bucket of fewer than 65536 entries has room before the next
(00_scope.md R10). -/
theorem Staged.bkAppend (h : Staged sc bytes vals) (hroom : ∀ j, (vals j).length < 65536) {k : Nat}
    (h1 : 1 ≤ k) (h32 : k ≤ 32) (v : Word) :
    Staged (sc.bkAppend k v) bytes (Function.update vals k (vals k ++ [v])) where
  bblen := h.bblen
  buffer := h.buffer
  counts := fun i hi1 hi32 => by
    rw [Scratch.bkAppend, get?_write_one, h.dpAt h1 h32, Function.update_apply]
    split
    · rw [List.length_append, List.length_singleton]
    · exact h.counts i hi1 hi32
  entries := fun i hi1 hi32 => by
    rw [Scratch.bkAppend, h.dpAt h1 h32, bkIndex_eq_add, Function.update_apply]
    split
    · next hik =>
      subst hik
      exact (h.entries i h1 h32).write_append [v]
    · have hi := hroom i
      have hk := hroom k
      refine (h.entries i hi1 hi32).congr fun a _ _ => get?_write_outside _ ?_
      simp only [bkIndex, List.length_singleton] at *
      omega

/-- The dispatch of the values of a block: the positions of its exceptions, counted from `k`, go to the
byte buffer and their high parts to bucket `idx`, in order (R143). -/
theorem Staged.dispatch {b idx k : Nat} (h1 : 1 ≤ idx) (h32 : idx ≤ 32) {vs : List Word}
    (h : Staged sc bytes vals) (hroom : ∀ j, (vals j).length + vs.length ≤ 65536) :
    Staged (dispatch b idx k vs sc)
      (bytes ++ (exceptionPositions vs b).map fun p => BitVec.ofNat 8 (k + p))
      (Function.update vals idx (vals idx ++ exceptionHighs vs b)) := by
  induction vs generalizing k sc bytes vals with
  | nil => simpa [Machine.dispatch, exceptionPositions, exceptionHighs] using h
  | cons v vs ih =>
    have hshift : (fun p => BitVec.ofNat 8 (k + p)) ∘ (· + 1) = fun p => BitVec.ofNat 8 (k + 1 + p) := by
      funext p
      rw [Function.comp_apply, Nat.add_assoc, Nat.add_comm 1]
    simp only [List.length_cons] at hroom
    rw [exceptionPositions_cons, exceptionHighs_cons, Machine.dispatch]
    by_cases hv : high v b = 0
    · simp only [hv, ne_eq, not_true_eq_false, if_false, List.map_map, hshift]
      exact ih h fun j => by have := hroom j; omega
    · simp only [hv, ne_eq, not_false_eq_true, if_true, List.map_cons, List.map_map, hshift]
      have hnext := (h.bbPut (BitVec.ofNat 8 k)).bkAppend (fun j => by have := hroom j; omega) h1 h32
        (BitVec.ofNat 32 (high v b))
      have hall := ih (k := k + 1) hnext fun j => by
        have := hroom j
        rw [Function.update_apply]
        split
        · next hj => subst hj; rw [List.length_append, List.length_singleton]; omega
        · omega
      simpa using hall

/-- `while BBLEN mod 4 != 0` appends as many zeros as are missing (R147). -/
theorem Staged.padBytes {pad rounds : Nat} (h : Staged sc bytes vals) (hpad : pad < 4)
    (hrounds : pad ≤ rounds) (hfull : (bytes.length + pad) % 4 = 0) :
    Staged (padBytes rounds sc) (bytes ++ List.replicate pad 0) vals := by
  induction rounds generalizing pad sc bytes with
  | zero =>
    obtain rfl : pad = 0 := by omega
    simpa [Machine.padBytes] using h
  | succ n ih =>
    rw [Machine.padBytes, h.bbLen]
    split
    · obtain ⟨pad, rfl⟩ : ∃ q, pad = q + 1 := ⟨pad - 1, by omega⟩
      have hmore := ih (h.bbPut 0) (pad := pad) (by omega) (by omega)
        (by rw [List.length_append, List.length_singleton]; omega)
      rwa [List.append_assoc, List.singleton_append, ← List.replicate_succ] at hmore
    · obtain rfl : pad = 0 := by omega
      simpa using h

/-- Word `i` of the padded byte buffer (R145). -/
theorem Staged.bbWord {pad i : Nat} (h : Staged sc (bytes ++ List.replicate pad 0) vals)
    (hi : 4 * i + 4 ≤ bytes.length + pad) : sc.bbWord i = bufferWord bytes i := by
  have hbyte {r : Nat} (hr : r < bytes.length + pad) : sc.bbAt r = bytes.getD r 0 := by
    rw [h.bbAt (by simpa using hr)]
    by_cases hlt : r < bytes.length
    · rw [List.getD_append _ _ _ _ hlt]
    · rw [List.getD_append_right _ _ _ _ (by omega), List.getD_replicate _ (by omega),
        List.getD_eq_default _ _ (by omega)]
  rw [Scratch.bbWord, bufferWord, hbyte (by omega), hbyte (by omega), hbyte (by omega),
    hbyte (by omega)]

/-- Group `g` of bucket `k`, zero padded (R145, R149). -/
theorem Staged.bucketGroup (h : Staged sc bytes vals) {k : Nat} (h1 : 1 ≤ k) (h32 : k ≤ 32) (g : Nat) :
    bucketGroup sc k g = valueGroup (vals k) g := by
  simp only [Machine.bucketGroup, valueGroup, h.dpAt h1 h32]
  refine List.map_congr_left fun i _ => ?_
  split
  · next hi => exact h.bkAt h1 h32 hi
  · next hi => rw [List.getD_eq_default _ _ (by omega)]

end

section
variable {sc : Scratch} {done : List (List Word)} {blk : List Word}

/-- What is staged of a page after the blocks `done`. -/
abbrev StagedBlocks (sc : Scratch) (done : List (List Word)) : Prop :=
  Staged sc (byteBuffer done) (bucketValues done)

/-- The bitmap says which buckets received a value (R148). -/
theorem ofNat_bucketBitmap {bytes : List Byte} (h : Staged sc bytes (bucketValues done)) :
    BitVec.ofNat 32 (bucketBitmap sc) = bitmapWord done := by
  rw [bucketBitmap, bitmapWord]
  congr 2
  refine List.map_congr_left fun j hj => ?_
  have := List.mem_range.1 hj
  rw [h.dpAt (by omega) (by omega)]

/-- The record of a block and its exceptions join those of the blocks before it (R142). -/
theorem StagedBlocks.emitRecord (h : StagedBlocks sc done) (hlen : blk.length = 128)
    (hpage : done.length < 512) :
    StagedBlocks (emitRecord blk (fpfSelected blk).1 (fpfSelected blk).2.1 (fpfSelected blk).2.2 sc)
      (done ++ [blk]) := by
  have hfits := fpfSelected_fits blk
  have hhead := (h.bbPut (BitVec.ofNat 8 (fpfSelected blk).1)).bbPut (BitVec.ofNat 8 (fpfSelected blk).2.1)
  have hvals : bucketValues (done ++ [blk]) = fun k => bucketValues done k ++ bucketValues [blk] k :=
    funext fun k => bucketValues_append done [blk] k
  rw [StagedBlocks, byteBuffer_append, byteBuffer_singleton, hvals, Machine.emitRecord]
  by_cases hc : (fpfSelected blk).2.1 > 0
  · have hlt := hfits.lt hc
    have htop := hfits.top
    have hall := (hhead.bbPut (BitVec.ofNat 8 (fpfSelected blk).2.2)).dispatch (b := (fpfSelected blk).1)
      (idx := (fpfSelected blk).2.2 - (fpfSelected blk).1) (k := 0) (by omega) (by omega) (vs := blk)
      fun j => by have := length_bucketValues_le done j; omega
    rw [if_pos hc, blockRecord_of_pos hc]
    convert hall using 1
    · simp
    · funext k
      rw [bucketValues_singleton, Function.update_apply]
      by_cases hk : k = (fpfSelected blk).2.2 - (fpfSelected blk).1
      · subst hk
        simp [hc]
      · rw [if_neg fun hboth => hk hboth.2.symm, if_neg hk, List.append_nil]
  · rw [if_neg hc, blockRecord_of_zero hc]
    convert hhead using 1
    · simp
    · funext k
      rw [bucketValues_singleton, if_neg fun hboth => hc hboth.1, List.append_nil]

end

end Sys2Proof.Machine
end

section
/-! PROOFS. The FastPFOR encoder writes the page format and the stream format (30_encoding.md R80 to R90;
42_fastpfor_encode.md R140 to R151), and the length of a page (R85). -/

namespace Sys2Proof.Machine

/-! ### Blocks -/

section
variable {w : Work} {done : List (List Word)} {blk : List Word}

/-- A block's low bits are written and its exceptions staged (R142). -/
theorem fpfEncodeBlock_ok (hlen : blk.length = 128) (hsees : w.s.Sees w.ip blk)
    (hroom : w.op + (lowBitsWords blk (fpfSelected blk).1).length ≤ w.s.params.dstLen.toNat)
    (hpage : done.length < 512) (h : StagedBlocks w.s.scratch done) :
    ∃ w', fpfEncodeBlock w = .ok w' ∧ w.Wrote w' w.op (lowBitsWords blk (fpfSelected blk).1) ∧
      w'.ip = w.ip + blk.length ∧ w'.op = w.op + (lowBitsWords blk (fpfSelected blk).1).length ∧
      StagedBlocks w'.s.scratch (done ++ [blk]) := by
  have htake := takeSrc_of_sees hsees
  have hselect : StagedBlocks (fpfSelect w.s.scratch blk).2 done :=
    ⟨h.bblen, h.buffer, h.counts, h.entries⟩
  rw [hlen] at htake ⊢
  simp only [fpfEncodeBlock, htake, ok_bind, fpfSelect_fst, took_scratch]
  generalize hsc : emitRecord blk _ _ _ _ = sc
  have hstaged : StagedBlocks sc (done ++ [blk]) := hsc ▸ hselect.emitRecord hlen hpage
  obtain ⟨w', hw', hwrote, hip, hop, hsc'⟩ := putsAll_packBlock blk (fpfSelected blk).1
    ((w.took 128).onScratch fun _ => sc) rfl hroom
  refine ⟨w', hw', (((Work.Wrote.refl w w.op).took 128).onScratch _).after_quiet hwrote, hip, hop, ?_⟩
  rw [hsc']
  exact hstaged

/-- The blocks of a page are encoded one after another (R141). -/
theorem fpfEncodeBlocks_ok {todo : List (List Word)} (hlen : ∀ blk ∈ todo, blk.length = 128)
    (hsees : w.s.Sees w.ip todo.flatten)
    (hroom : w.op + (lowBitsSection todo).length ≤ w.s.params.dstLen.toNat)
    (hpage : done.length + todo.length ≤ 512) (h : StagedBlocks w.s.scratch done) :
    ∃ w', iter fpfEncodeBlock todo.length w = .ok w' ∧ w.Wrote w' w.op (lowBitsSection todo) ∧
      w'.ip = w.ip + todo.flatten.length ∧ w'.op = w.op + (lowBitsSection todo).length ∧
      StagedBlocks w'.s.scratch (done ++ todo) := by
  induction todo generalizing done w with
  | nil => exact ⟨w, rfl, .refl w _, rfl, rfl, by simpa using h⟩
  | cons blk rest ih =>
    rw [List.flatten_cons] at hsees ⊢
    obtain ⟨hnow, hlater⟩ := sees_append.1 hsees
    have hsplit : lowBitsSection (blk :: rest) =
        lowBitsWords blk (fpfSelected blk).1 ++ lowBitsSection rest := rfl
    rw [hsplit, List.length_append] at hroom
    rw [List.length_cons] at hpage
    obtain ⟨w1, h1, hw1, hip1, hop1, hstaged1⟩ :=
      fpfEncodeBlock_ok (hlen blk (by simp)) hnow (by omega) (by omega) h
    obtain ⟨w2, h2, hw2, hip2, hop2, hstaged2⟩ := ih (fun x hx => hlen x (by simp [hx]))
      (done := done ++ [blk]) (by rw [hip1]; exact hw1.sees hlater) (by rw [hop1, hw1.params]; omega)
      (by rw [List.length_append, List.length_singleton]; omega) hstaged1
    rw [hop1] at hw2
    refine ⟨w2, ?_, hw1.append hw2, ?_, ?_, by simpa using hstaged2⟩
    · rw [List.length_cons, iter_succ, h1, ok_bind, h2]
    · rw [hip2, hip1, List.length_append, Nat.add_assoc]
    · rw [hop2, hop1, hsplit, List.length_append, Nat.add_assoc]

end

/-! ### The meta section -/

section
variable {sc : Scratch} {bytes : List Byte} {vals : Nat → List Word}

/-- The section of a bucket is put out (R145, R149). -/
theorem putsAll_flushBucket (h : Staged sc bytes vals) {k : Nat} (h1 : 1 ≤ k) (h32 : k ≤ 32) :
    PutsAll sc (flushBucket k) (bucketSection k (vals k)) := by
  have hcount := h.dpAt h1 h32
  by_cases hpos : 0 < (vals k).length
  · have hgroup (g : Nat) : PutsAll sc (fun w => w.putDst (pack32 (bucketGroup w.s.scratch k g) k))
        (pack32 (valueGroup (vals k) g) k) :=
      (putsAll_putDst _).congr fun w hsc => by rw [hsc, h.bucketGroup h1 h32]
    rw [bucketSection_eq_cons k hpos]
    refine ((putsAll_putDst [BitVec.ofNat 32 (vals k).length]).append
      (putsAll_forEach fun g _ => hgroup g)).congr fun w hsc => ?_
    rw [flushBucket, hsc, hcount, if_pos hpos]
    rfl
  · rw [show bucketSection k (vals k) = [] from if_neg hpos]
    exact putsAll_nil.congr fun w hsc => by rw [flushBucket, hsc, hcount, if_neg hpos]

/-- The words of the byte buffer are put out, its zero padding included (R145, R147). -/
theorem putsAll_bytes {pad : Nat} (h : Staged sc (bytes ++ List.replicate pad 0) vals)
    (hn : 4 * ceilDiv bytes.length 4 = bytes.length + pad) :
    PutsAll sc (fun w => forEach (fun i w => w.putDst1 (w.s.scratch.bbWord i))
      (List.range (w.s.scratch.bbLen / 4)) w) (byteWords bytes) := by
  have hwords : sc.bbLen / 4 = ceilDiv bytes.length 4 := by
    rw [h.bbLen, List.length_append, List.length_replicate]
    omega
  have hput : ∀ i ∈ List.range (ceilDiv bytes.length 4),
      PutsAll sc (fun w => w.putDst1 (w.s.scratch.bbWord i)) [bufferWord bytes i] := by
    intro i hi
    have := List.mem_range.1 hi
    exact (putsAll_putDst _).congr fun w hsc => by rw [hsc, h.bbWord (by omega), Work.putDst1]
  rw [byteWords_eq_map, ← List.flatMap_pure_eq_map]
  exact (putsAll_forEach hput).congr fun w hsc => by rw [hsc, hwords]

theorem putsAll_bitmap {blks : List (List Word)} (h : Staged sc bytes (bucketValues blks)) :
    PutsAll sc (fun w => w.putDst1 (BitVec.ofNat 32 (bucketBitmap w.s.scratch))) [bitmapWord blks] :=
  (putsAll_putDst _).congr fun w hsc => by rw [hsc, ofNat_bucketBitmap h, Work.putDst1]

end

/-- The meta section of a page (R87 to R90). -/
def metaSection (blks : List (List Word)) : List Word :=
  (BitVec.ofNat 32 (byteBuffer blks).length :: byteWords (byteBuffer blks)) ++ (bitmapWord blks ::
    bucketNumbers.flatMap fun k => bucketSection k (bucketValues blks k))

theorem pageImage_eq_metaSection (blks : List (List Word)) : pageImage blks =
    BitVec.ofNat 32 (1 + (lowBitsSection blks).length) :: lowBitsSection blks ++ metaSection blks :=
  pageImage_eq blks

/-- What `fpf_flush_page` does after it has stored the head word (R145 to R149). -/
def flushMeta (w1 : Work) : Except Trap Work := do
  let bytesize := w1.s.scratch.bbLen
  let w2 := w1.onScratch (padBytes 3)
  let w3 ← w2.putDst1 (BitVec.ofNat 32 bytesize)
  let w4 ← forEach (fun i w => w.putDst1 (w.s.scratch.bbWord i))
    (List.range (w3.s.scratch.bbLen / 4)) w3
  let w5 ← w4.putDst1 (BitVec.ofNat 32 (bucketBitmap w4.s.scratch))
  forEach flushBucket bucketNumbers w5

theorem fpfFlushPage_eq (hp : Nat) (w : Work) :
    fpfFlushPage hp w = w.writeDst hp [BitVec.ofNat 32 (w.op - hp)] >>= flushMeta := rfl

/-- The meta section is put out from what is staged. -/
theorem flushMeta_ok {w : Work} {blks : List (List Word)} (h : StagedBlocks w.s.scratch blks)
    (hroom : w.op + (metaSection blks).length ≤ w.s.params.dstLen.toNat) :
    ∃ w', flushMeta w = .ok w' ∧ w.Wrote w' w.op (metaSection blks) ∧ w'.ip = w.ip ∧
      w'.op = w.op + (metaSection blks).length := by
  have hle : (byteBuffer blks).length ≤ 4 * ceilDiv (byteBuffer blks).length 4 :=
    le_mul_ceilDiv _ (by decide)
  have hlt : 4 * ceilDiv (byteBuffer blks).length 4 < (byteBuffer blks).length + 4 := by
    unfold ceilDiv
    omega
  obtain ⟨pad, hn⟩ : ∃ pad, 4 * ceilDiv (byteBuffer blks).length 4 = (byteBuffer blks).length + pad :=
    ⟨_, (Nat.add_sub_cancel' hle).symm⟩
  have hpadded := h.padBytes (pad := pad) (rounds := 3) (by omega) (by omega) (by omega)
  have hputs := (putsAll_putDst [BitVec.ofNat 32 (byteBuffer blks).length]).append
    ((putsAll_bytes hpadded hn).append ((putsAll_bitmap hpadded).append
      (putsAll_forEach (ks := bucketNumbers) fun k hk =>
        putsAll_flushBucket hpadded (mem_bucketNumbers.1 hk).1 (mem_bucketNumbers.1 hk).2)))
  obtain ⟨w', hw', hwrote, hip, hop, _⟩ := hputs (w.onScratch (padBytes 3)) rfl hroom
  refine ⟨w', ?_, ((Work.Wrote.refl w w.op).onScratch _).after_quiet hwrote, hip, hop⟩
  simp only [flushMeta, h.bbLen]
  exact hw'

/-! ### Pages and streams -/

/-- A page has at most 512 blocks (00_scope.md R8). -/
theorem length_blocksOf_le {p : Params} {vs : List Word} (h : vs.length ≤ pageSize p) :
    (blocksOf vs).length ≤ 512 := by
  have hle : pageSize p ≤ 65536 := bucketCap_le p
  rw [length_blocksOf]
  omega

/-- The values of a page are encoded to its page image (R141). -/
theorem encodesTo_fpfEncodePage {p : Params} {n : Nat} {vs : List Word} (hvs : vs.length = 128 * (n / 128))
    (hsize : vs.length ≤ pageSize p) :
    EncodesTo p (fpfEncodePage n) vs (pageImage (blocksOf vs)) := by
  rintro w rfl hsees hroom
  have hblocks := length_blocksOf_le hsize
  have hflatten : (blocksOf vs).flatten = vs := flatten_blocksOf (by omega)
  rw [pageImage_eq_metaSection, List.length_append, List.length_cons] at hroom
  obtain ⟨w1, h1, hw1, hip1, hop1, _⟩ := putsAll_putDst (sc := w.s.scratch) [0] w rfl
    (by rw [List.length_singleton]; omega)
  rw [List.length_singleton] at hop1
  let w2 : Work := w1.onScratch fun sc => { sc.clearDp with bblen := some 0 }
  have hw2 : w.Wrote w2 w.op [0] := hw1.onScratch _
  obtain ⟨w3, h3, hw3, hip3, hop3, hstaged⟩ := fpfEncodeBlocks_ok (w := w2) (done := [])
    (todo := blocksOf vs) (fun blk => length_of_mem_blocksOf)
    (by rw [hflatten, show w2.ip = w.ip from hip1]; exact hw2.sees hsees)
    (by rw [show w2.op = w.op + 1 from hop1, hw2.params]; omega) (by simpa using hblocks) (staged_start _)
  rw [show w2.op = w.op + 1 from hop1] at hw3 hop3
  rw [show w2.ip = w.ip from hip1, hflatten] at hip3
  rw [length_blocksOf, show vs.length / 128 = n / 128 by omega] at h3
  rw [List.nil_append] at hstaged
  obtain ⟨w4, h4, hw4, hip4, hop4, hsc4⟩ := (hw2.append hw3).rewriteHead
    (y := BitVec.ofNat 32 (1 + (lowBitsSection (blocksOf vs)).length)) (by omega)
  obtain ⟨w5, h5, hw5, hip5, hop5⟩ := flushMeta_ok (w := w4) (by rw [hsc4]; exact hstaged)
    (by rw [hop4, hop3, hw4.params]; omega)
  rw [hop4, hop3, Nat.add_assoc w.op, Nat.add_comm 1] at hw5
  refine ⟨w5, ?_, ?_, ?_, ?_⟩
  · simp only [fpfEncodePage, Work.putDst1]
    rw [show w.putDst [0] = .ok w1 from h1, ok_bind]
    exact (congrArg (· >>= fpfFlushPage w.op) h3).trans <| by
      rw [ok_bind, fpfFlushPage_eq, show w3.op - w.op = 1 + (lowBitsSection (blocksOf vs)).length by omega,
        h4, ok_bind, h5]
  · rw [pageImage_eq_metaSection]
    exact hw4.append hw5
  · rw [hip5, hip4, hip3]
  · rw [hop5, hop4, hop3, pageImage_eq_metaSection, List.length_append, List.length_cons]
    omega

/-- Settles O37: the low bits of block after block, then the head word and the meta section from what
the blocks have staged. -/
theorem fpfEncpageWritesThePageFormat : Obligations.FpfEncpageWritesThePageFormat := by
  intro s ip op vs hs hsize hvs hsrc hbound hroom
  exact page_completes (encodesTo_fpfEncodePage hvs (by omega)) hs hsize ⟨hsrc, hbound⟩ hroom

/-- Settles O38: page after page the page image is written. -/
theorem fpfCompressWritesTheStreamFormat : Obligations.FpfCompressWritesTheStreamFormat := by
  intro s ip op vs hs hvs hinlen hsrc hbound hroom
  have hpages := encodesTo_forPages (p := s.params) (page := fpfEncodePage)
    (image := fun page => pageImage (blocksOf page)) (size := pageSize s.params)
    (Nat.mul_pos (by decide) (Nat.succ_pos _)) (vs := vs) fun page hpage => by
      obtain ⟨hle, h128⟩ := length_of_mem_pagesOf (Nat.mul_mod_right _ _) (by omega) hpage
      exact encodesTo_fpfEncodePage (by omega) hle
  exact compress_completes hpages hs hvs hinlen ⟨hsrc, hbound⟩ hroom

/-! ### The length of a page -/

/-- The record of a block is two bytes, and for a block with exceptions the largest width and the
positions (R88). -/
theorem length_blockRecord (blk : List Word) : (blockRecord blk).length =
    2 + if (fpfSelected blk).2.1 > 0 then 1 + (fpfSelected blk).2.1 else 0 := by
  have hcount := (fpfSelected_fits blk).count
  by_cases hc : (fpfSelected blk).2.1 > 0
  · rw [blockRecord_of_pos hc, if_pos hc, List.length_cons, List.length_cons, List.length_cons,
      List.length_map, length_exceptionPositions, ← hcount]
    omega
  · rw [blockRecord_of_zero hc, if_neg hc]
    rfl

theorem length_bucketSection (k : Nat) (vals : List Word) : (bucketSection k vals).length =
    if vals.length > 0 then 1 + k * ceilDiv vals.length 32 else 0 := by
  by_cases hpos : 0 < vals.length
  · rw [bucketSection_eq_cons k hpos, if_pos hpos, List.length_cons,
      length_flatMap_const _ fun _ _ => pack32_length _ _, List.length_range, Nat.mul_comm,
      Nat.add_comm]
  · rw [if_neg hpos, show bucketSection k vals = [] from if_neg hpos]
    rfl

theorem length_lowBitsSection (blks : List (List Word)) :
    (lowBitsSection blks).length = (blks.map fun blk => 4 * (fpfSelected blk).1).sum := by
  simp only [lowBitsSection, List.length_flatMap, length_lowBitsWords]

theorem length_byteBuffer (blks : List (List Word)) : (byteBuffer blks).length = (blks.map fun blk =>
    2 + if (fpfSelected blk).2.1 > 0 then 1 + (fpfSelected blk).2.1 else 0).sum := by
  simp only [byteBuffer, List.length_flatMap, length_blockRecord]

@[simp] theorem length_byteWords (bytes : List Byte) :
    (byteWords bytes).length = ceilDiv bytes.length 4 := by
  rw [byteWords_eq_map, List.length_map, List.length_range]

/-- Settles O35: the length of a page is that of its sections. -/
theorem pageLength : Obligations.PageLength := by
  intro blks _
  simp only [← length_lowBitsSection, ← length_byteBuffer, pageImage_eq_metaSection]
  refine ⟨?_, rfl, ?_⟩
  · simp only [metaSection, List.length_append, List.length_cons, length_byteWords, List.length_flatMap,
      length_bucketSection]
    omega
  · rw [Nat.add_comm, List.cons_append, List.getElem?_cons_succ, List.getElem?_append_right le_rfl,
      Nat.sub_self]
    rfl

end Sys2Proof.Machine
end

section
/-! PROOFS. The laws of the packer (40_bitpacking.md R103). -/

namespace Sys2Proof.Machine

/-! ### Packing what was unpacked -/

/-- A word holds any field of at most 32 bits. -/
theorem toNat_ofNat_field {w : Nat} (hw : w ≤ 32) (S : Nat) :
    (BitVec.ofNat 32 (S % 2 ^ w)).toNat = S % 2 ^ w :=
  BitVec.toNat_ofNat .. |>.trans <| Nat.mod_eq_of_lt <|
    (Nat.mod_lt S (Nat.two_pow_pos w)).trans_le (Nat.pow_le_pow_right two_pos hw)

/-- The values unpacked at a width fit it (R103(e)). -/
theorem toNat_lt_of_mem_unpack32 {w : Nat} (hw : w ≤ 32) {o : List Word} {x : Word}
    (hx : x ∈ unpack32 o w) : x.toNat < 2 ^ w := by
  obtain ⟨i, _, rfl⟩ := List.mem_map.1 hx
  rw [toNat_ofNat_field hw]
  exact Nat.mod_lt _ (Nat.two_pow_pos w)

/-- The words of a list as digits of a bit string. -/
theorem lt_of_mem_map_toNat {o : List Word} : ∀ d ∈ o.map BitVec.toNat, d < 2 ^ 32 := by
  simp only [List.mem_map, forall_exists_index, and_imp, forall_apply_eq_imp_iff₂]
  exact fun x _ => x.isLt

/-- Digit `j` of the bit string that words make is word `j`. -/
theorem bitString_word (o : List Word) (j : Nat) :
    bitString 32 (o.map BitVec.toNat) / 2 ^ (32 * j) % 2 ^ 32 = (o.getD j 0).toNat := by
  rw [Nat.mul_comm, bitString_field lt_of_mem_map_toNat]
  exact List.getD_map o 0 BitVec.toNat

/-- Packing what was unpacked gives the words (R103(b)). -/
theorem pack32_unpack32 {w : Nat} (hw : w ≤ 32) {o : List Word} (ho : o.length = w) :
    pack32 (unpack32 o w) w = o := by
  have hlt := bitString_lt (lt_of_mem_map_toNat (o := o))
  rw [List.length_map, ho] at hlt
  have hdigits : (unpack32 o w).map (low · w) = (List.range 32).map fun i =>
      bitString 32 (o.map BitVec.toNat) / 2 ^ (w * i) % 2 ^ w := by
    simp [unpack32, low, toNat_ofNat_field hw, Nat.mul_comm]
  have hS : bitString w ((unpack32 o w).map (low · w)) = bitString 32 (o.map BitVec.toNat) := by
    rw [hdigits, bitString_digits, Nat.mul_comm w, Nat.mod_eq_of_lt hlt]
  have hword (j : Nat) : BitVec.ofNat 32 (bitString 32 (o.map BitVec.toNat) / 2 ^ (32 * j)) =
      o.getD j 0 := BitVec.eq_of_toNat_eq (by rw [BitVec.toNat_ofNat, bitString_word])
  simp only [pack32, hS, hword]
  exact (map_range_getD id o 0 ho).trans (List.map_id o)

/-- At width 32 the fields are the words (R103(d)). -/
theorem unpack32_width_32 {o : List Word} (ho : o.length = 32) : unpack32 o 32 = o := by
  have hword (i : Nat) : BitVec.ofNat 32 (bitString 32 (o.map BitVec.toNat) / 2 ^ (i * 32) % 2 ^ 32) =
      o.getD i 0 := by rw [Nat.mul_comm, bitString_word, BitVec.ofNat_toNat, BitVec.setWidth_eq]
  simp only [unpack32, hword]
  exact (map_range_getD id o 0 ho).trans (List.map_id o)

theorem pack32_width_32 {v : List Word} (hv : v.length = 32) : pack32 v 32 = v := by
  simpa only [unpack32_width_32 hv] using pack32_unpack32 le_rfl hv

/-- At width 0 every field is 0 (R103(c)). -/
theorem unpack32_width_zero (o : List Word) : unpack32 o 0 = List.replicate 32 0 := by
  simp [unpack32, Nat.mod_one, List.map_const']

/-- Packing is a function of the cut values alone (R103(f)). -/
theorem pack32_congr {v v' : List Word} {w : Nat} (h : v.map (low · w) = v'.map (low · w)) :
    pack32 v w = pack32 v' w := by
  simp only [pack32, h]

/-- Settles O28, law by law: both compositions of packing and unpacking, the two end widths, the bound
on the fields, and the dependence on the cut values. -/
theorem packerLaws : Obligations.PackerLaws := fun w hw =>
  ⟨fun _ hv => ⟨unpack32_pack32 hv w, unpack32_pack32_of_lt hv⟩,
    fun _ ho => pack32_unpack32 hw ho,
    fun _ hv => ⟨rfl, pack32_width_32 hv⟩,
    unpack32_width_zero [],
    fun _ ho => unpack32_width_32 ho,
    fun _ _ _ hx => toNat_lt_of_mem_unpack32 hw hx,
    fun _ _ h => pack32_congr h⟩

end Sys2Proof.Machine
end

section
/-! PROOFS. The word-by-word forms of the packer and the unpacker (40_bitpacking.md R104). -/

namespace Sys2Proof.Machine

/-! ### Packing word by word -/

/-- Word `j` of the field `x` laid at bit `32*i + sh` of a bit string: the field shifted left in the word
it begins in, its high part in the next, and nothing elsewhere. -/
theorem word_of_shifted_field {x w sh : Nat} (hx : x < 2 ^ w) (hw : w ≤ 32) (hsh : sh < 32) (i j : Nat) :
    BitVec.ofNat 32 (2 ^ (32 * i + sh) * x / 2 ^ (32 * j)) =
      if j = i then BitVec.ofNat 32 (x * 2 ^ sh)
      else if j = i + 1 then BitVec.ofNat 32 (x / 2 ^ (32 - sh)) else 0 := by
  have hbeyond {m : Nat} (hm : w ≤ m) : x.testBit m = false :=
    Nat.testBit_lt_two_pow (hx.trans_le (Nat.pow_le_pow_right two_pos hm))
  refine BitVec.eq_of_getLsbD_eq fun k hk => ?_
  simp only [BitVec.getLsbD_ofNat, Nat.testBit_div_two_pow, Nat.testBit_two_pow_mul]
  rcases Nat.lt_trichotomy j i with hj | rfl | hj
  · simp [show ¬ j = i by omega, show ¬ j = i + 1 by omega, show ¬ 32 * i + sh ≤ k + 32 * j by omega]
  · rw [if_pos rfl, BitVec.getLsbD_ofNat, Nat.mul_comm x, Nat.testBit_two_pow_mul,
      show k + 32 * j - (32 * j + sh) = k - sh by omega]
    simp [Nat.add_comm k]
  · rw [if_neg (by omega)]
    by_cases hnext : j = i + 1
    · rw [if_pos hnext, BitVec.getLsbD_ofNat, Nat.testBit_div_two_pow,
        show k + 32 * j - (32 * i + sh) = k + (32 - sh) by omega]
      simp [show 32 * i + sh ≤ k + 32 * j by omega]
    · simp [hnext, hbeyond (m := k + 32 * j - (32 * i + sh)) (by omega)]

/-- A value laid behind those of a bit string adds its words to theirs by OR. -/
theorem getD_pack32_append_singleton (us : List Word) (x : Word) {w j : Nat} (hj : j < w) :
    (pack32 (us ++ [x]) w).getD j 0 =
      (pack32 us w).getD j 0 ||| BitVec.ofNat 32 (2 ^ (us.length * w) * low x w / 2 ^ (32 * j)) := by
  have hlt : bitString w (us.map (low · w)) < 2 ^ (us.length * w) := by
    simpa [Nat.mul_comm] using bitString_lt (w := w) (ds := us.map (low · w)) (by simp [low_lt])
  have hor : bitString w ((us ++ [x]).map (low · w)) =
      2 ^ (us.length * w) * low x w ||| bitString w (us.map (low · w)) := by
    rw [List.map_append, List.map_singleton, bitString_append_singleton, List.length_map, Nat.mul_comm w,
      Nat.add_comm, Nat.two_pow_add_eq_or_of_lt hlt]
  simp only [pack32, hor, Nat.or_div_two_pow, BitVec.ofNat_or]
  simp [hj, BitVec.or_comm]

@[simp] theorem packShiftStep_length (w : Nat) (o : List Word) (iv : Nat × Word) :
    (packShiftStep w o iv).length = o.length := by
  simp only [packShiftStep]
  split <;> simp

/-- ORing `x` into word `i` of a list. -/
theorem getD_set_or {o : List Word} {j : Nat} (hj : j < o.length) (i : Nat) (x : Word) :
    (o.set i (o.getD i 0 ||| x)).getD j 0 = o.getD j 0 ||| if j = i then x else 0 := by
  by_cases hij : j = i
  · subst hij
    simp [hj]
  · simp [hij, Ne.symm hij]

/-- One step of the shift-and-OR form lays value `i` at bit `i*w` of the words so far. -/
theorem getD_packShiftStep {w : Nat} (hw : w ≤ 32) {o : List Word} (i : Nat) (x : Word) {j : Nat}
    (hj : j < o.length) :
    (packShiftStep w o (i, x)).getD j 0 =
      o.getD j 0 ||| BitVec.ofNat 32 (2 ^ (i * w) * low x w / 2 ^ (32 * j)) := by
  have hword := word_of_shifted_field (low_lt x w) hw (Nat.mod_lt (i * w) (by decide)) (i * w / 32) j
  rw [Nat.div_add_mod] at hword
  rw [hword]
  simp only [packShiftStep, shl32, toNat_ofNat_low]
  split
  next hstraddle =>
    rw [getD_set_or (by simpa using hj), getD_set_or hj, BitVec.or_assoc]
    congr 1
    simp only [high, toNat_ofNat_low]
    by_cases hq : j = i * w / 32 <;> simp [hq]
  next hwithin =>
    have hhigh : low x w / 2 ^ (32 - i * w % 32) = 0 := Nat.div_eq_of_lt <|
      (low_lt x w).trans_le (Nat.pow_le_pow_right two_pos (by omega))
    rw [getD_set_or hj]
    simp [hhigh]

/-- The shift-and-OR form, begun with the words of the values `us`, packs the values `vs` behind them. -/
theorem foldl_packShiftStep {w : Nat} (hw : w ≤ 32) (us vs : List Word) :
    ((List.range' us.length vs.length).zip vs).foldl (packShiftStep w) (pack32 us w) =
      pack32 (us ++ vs) w := by
  induction vs generalizing us with
  | nil => simp
  | cons x vs ih =>
    have hstep : packShiftStep w (pack32 us w) (us.length, x) = pack32 (us ++ [x]) w := by
      refine List.ext_getElem (by simp) fun j h1 h2 => ?_
      have hj : j < w := by simpa using h2
      rw [← List.getD_eq_getElem _ 0, ← List.getD_eq_getElem _ 0, getD_pack32_append_singleton us x hj,
        getD_packShiftStep hw _ x (by simpa using hj)]
    rw [List.length_cons, List.range'_succ, List.zip_cons_cons, List.foldl_cons, hstep]
    simpa using ih (us ++ [x])

/-- The word-by-word form packs as `pack32` does (R104). -/
theorem packShift_eq_pack32 {w : Nat} (hw : w ≤ 32) (v : List Word) : packShift v w = pack32 v w := by
  unfold packShift
  split
  next h0 => rw [h0]; rfl
  next =>
    have hempty : pack32 [] w = List.replicate w 0 := by simp [pack32, bitString, List.map_const']
    rw [← hempty, List.range_eq_range']
    exact foldl_packShiftStep hw [] v

/-! ### Unpacking word by word -/

/-- A field of at most 32 bits at bit `sh` of two words: the high part of the first, and, where it
straddles, the second shifted above it. -/
theorem field_of_two_words {T sh w : Nat} {a b : Word} (hw : w ≤ 32) (hsh : sh < 32)
    (ha : T % 2 ^ 32 = a.toNat) (hb : T / 2 ^ 32 % 2 ^ 32 = b.toNat) :
    (BitVec.ofNat 32 (high a sh) ||| (if sh + w > 32 then shl32 b (32 - sh) else 0)).toNat % 2 ^ w =
      T / 2 ^ sh % 2 ^ w := by
  refine Nat.eq_of_testBit_eq fun k => ?_
  simp only [Nat.testBit_mod_two_pow, BitVec.toNat_or, Nat.testBit_or, Nat.testBit_div_two_pow]
  by_cases hk : k < w
  · have hfirst : (BitVec.ofNat 32 (high a sh)).toNat.testBit k =
        (decide (k + sh < 32) && T.testBit (k + sh)) := by
      rw [toNat_ofNat_high, high, Nat.testBit_div_two_pow, ← ha, Nat.testBit_mod_two_pow]
    have hsecond : (shl32 b (32 - sh)).toNat.testBit k =
        (!decide (k + sh < 32) && T.testBit (k + sh)) := by
      rw [shl32, BitVec.toNat_ofNat, Nat.testBit_mod_two_pow, Nat.mul_comm, Nat.testBit_two_pow_mul, ← hb,
        Nat.testBit_mod_two_pow, Nat.testBit_div_two_pow]
      by_cases hfits : k + sh < 32
      · simp [hfits, show ¬ 32 - sh ≤ k by omega]
      · simp [hfits, show k - (32 - sh) + 32 = k + sh by omega, show k < 32 by omega,
          show k - (32 - sh) < 32 by omega, show 32 - sh ≤ k by omega]
    rw [hfirst]
    split
    next => rw [hsecond, ← Bool.and_or_distrib_right, Bool.or_not_self, Bool.true_and]
    next => simp [show k + sh < 32 by omega]
  · simp [hk]

/-- The shift form unpacks as `unpack32` does (R104). -/
theorem unpackShift_eq_unpack32 {w : Nat} (hw : w ≤ 32) (o : List Word) :
    unpackShift o w = unpack32 o w := by
  unfold unpackShift unpack32
  refine List.map_congr_left fun i _ => congrArg (BitVec.ofNat 32) ?_
  have hsplit : 2 ^ (i * w) = 2 ^ (32 * (i * w / 32)) * 2 ^ (i * w % 32) := by
    rw [← pow_add, Nat.div_add_mod]
  rw [hsplit, ← Nat.div_div_eq_div_mul]
  refine field_of_two_words hw (Nat.mod_lt _ (by decide)) (bitString_word o _) ?_
  rw [Nat.div_div_eq_div_mul, ← pow_add, ← Nat.mul_add_one, bitString_word]

/-- Settles O29: both word-by-word forms, over any list. -/
theorem packerWordByWordForm : Obligations.PackerWordByWordForm := fun _ hw =>
  ⟨fun v _ => packShift_eq_pack32 hw v, fun o _ => unpackShift_eq_unpack32 hw o⟩

end Sys2Proof.Machine
end

section
/-! PROOFS. `PACK32` and `UNPACK32`: the three ends of a command that takes one group and puts another,
their words, and the illegal words with their opcodes (40_bitpacking.md R105, R106; 30_encoding.md R70 to
R73). -/

namespace Sys2Proof.Machine

/-! ### Taking a late fault -/

/-- A fault raised after the command's start leaves what R251(d) says, `DST` cut off where it started. -/
theorem takeFault_lateFault (s : State) {e : Trap} (he : causeIsEarly e.cause = false) :
    s.LateFault (takeFault s e) s.start.op (causeCode e.cause) (BitVec.ofNat 32 e.info) := by
  have hdst := get?_forget s.dst s.start.op
  rw [takeFault_late he]
  exact ⟨rfl, rfl, rfl, rfl, rfl, rfl, rfl, rfl, rfl, rfl, rfl, rfl, rfl, rfl, rfl,
    fun a ha => (hdst a).trans (if_pos ha), fun a ha => (hdst a).trans (if_neg (not_lt.2 ha))⟩

/-! ### One group -/

/-- What reading a memory gives is a list that reading it may give. -/
theorem mayRead_readWords (m : Memory) (a n tick : Nat) : m.mayRead a (readWords m a n tick) := by
  intro j hj x hx
  rw [readWords_length] at hj
  rw [readWords_getElem? _ _ _ _ _ hj, hx]
  rfl

section
variable {s : State} {ip op : Word} {n : Nat} {f : List Word → List Word}

/-- Past the end of `SRC` a group command faults with the last index it asks for. -/
theorem groupBody_srcBounds (hs : s.ready ip op)
    (hsrc : ¬ (n = 0 ∨ ip.toNat + n ≤ s.params.srcLen.toNat)) :
    ∃ t, runCommand s (groupBody n f) = .next t ∧
      s.LateFault t op.toNat 2 (BitVec.ofNat 32 (ip.toNat + n - 1)) := by
  obtain ⟨hfault, hin, hout⟩ := hs
  rw [← start_ip_known s ip hin] at hsrc ⊢
  rw [← start_op_known s op hout]
  have htake := takeSrc_eq_error.2 ⟨hsrc, rfl⟩
  exact ⟨_, runCommand_error hfault (by rw [groupBody, htake, error_bind]), takeFault_lateFault s rfl⟩

/-- Within `SRC` a group command takes `n` words, and what is left is to put what `f` makes of them. -/
theorem groupBody_of_inSrc (hin : s.inpos = .known ip)
    (hsrc : n = 0 ∨ ip.toNat + n ≤ s.params.srcLen.toNat) :
    ∃ v : List Word, v.length = n ∧ s.src.mayRead ip.toNat v ∧
      groupBody n f s = ((s.start.took n).putDst (f v) >>= fun w => .ok w.commit) := by
  rw [← start_ip_known s ip hin] at hsrc ⊢
  refine ⟨_, readWords_length .., mayRead_readWords s.src _ n s.start.s.tick, ?_⟩
  rw [groupBody, takeSrc_eq_ok.2 ⟨hsrc, rfl⟩]
  rfl

/-- Within both memories a group command consumes `n` words and writes what `f` makes of them. -/
theorem groupBody_completes (hs : s.ready ip op) {m : Nat} (hf : ∀ v, (f v).length = m)
    (hsrc : n = 0 ∨ ip.toNat + n ≤ s.params.srcLen.toNat)
    (hdst : m = 0 ∨ op.toNat + m ≤ s.params.dstLen.toNat) :
    ∃ (t : State) (v : List Word), v.length = n ∧ s.src.mayRead ip.toNat v ∧
      runCommand s (groupBody n f) = .next t ∧ s.Completes t ip.toNat op.toNat n (f v) := by
  obtain ⟨hfault, hin, hout⟩ := hs
  obtain ⟨v, hlen, hread, hbody⟩ := groupBody_of_inSrc (f := f) hin hsrc
  have hop := start_op_known s op hout
  rw [← hf v, ← hop] at hdst
  have hput := putDst_eq_ok (w := s.start.took n) |>.2 ⟨hdst, rfl⟩
  rw [hput, ok_bind] at hbody
  refine ⟨_, v, hlen, hread, runCommand_ok hfault hbody, completes_commit ?_ ?_ ?_⟩
  · rw [← hop]
    exact ⟨rfl, holds_write _ _ _, fun _ hi => get?_write_outside _ hi⟩
  · rw [took_ip, start_ip_known s ip hin]
  · rw [took_op, hop]

/-- Within `SRC` but past the end of `DST` a group command faults with the last index it would write. -/
theorem groupBody_dstBounds (hs : s.ready ip op) {m : Nat} (hf : ∀ v, (f v).length = m)
    (hsrc : n = 0 ∨ ip.toNat + n ≤ s.params.srcLen.toNat)
    (hdst : ¬ (m = 0 ∨ op.toNat + m ≤ s.params.dstLen.toNat)) :
    ∃ t, runCommand s (groupBody n f) = .next t ∧
      s.LateFault t op.toNat 3 (BitVec.ofNat 32 (op.toNat + m - 1)) := by
  obtain ⟨hfault, hin, hout⟩ := hs
  obtain ⟨v, _, _, hbody⟩ := groupBody_of_inSrc (f := f) hin hsrc
  rw [← hf v, ← start_op_known s op hout] at hdst ⊢
  have hput := putDst_eq_error (w := s.start.took n) |>.2 ⟨hdst, rfl⟩
  rw [hput, error_bind] at hbody
  exact ⟨_, runCommand_error hfault hbody, takeFault_lateFault s rfl⟩

end

/-! ### The two commands and their words -/

/-- `PACK32` at a legal width runs the group body. -/
theorem exec_pack32 {k : BitVec 6} (hk : k.toNat ≤ 32) (s : State) :
    exec (.pack32 k) s = runCommand s (groupBody 32 (pack32 · k.toNat)) := by
  rw [exec_eq_runCommand (by simp)]
  exact congrArg (runCommand s) (funext fun _ => if_neg (not_lt.2 hk))

/-- `UNPACK32` at a legal width runs the group body. -/
theorem exec_unpack32 {k : BitVec 6} (hk : k.toNat ≤ 32) (s : State) :
    exec (.unpack32 k) s = runCommand s (groupBody k.toNat (unpack32 · k.toNat)) := by
  rw [exec_eq_runCommand (by simp)]
  exact congrArg (runCommand s) (funext fun _ => if_neg (not_lt.2 hk))

/-- The command words R105 and R106 write out are those of R70 and R72. -/
theorem width_words_eq_encode : ∀ k : BitVec 6,
    (0x10 : Word) ||| k.zeroExtend 32 <<< 8 = encode (.pack32 k) ∧
    (0x11 : Word) ||| k.zeroExtend 32 <<< 8 = encode (.unpack32 k) := by
  decide

/-- A word with the opcode of `PACK32` or `UNPACK32` and an illegal width or `Z` faults alone (R73). -/
theorem issueCommand_illegal_width {s : State} {c : Word} (hs : s.faulted = false)
    (hopc : Field.opc c ∈ widthOpcodes) (hc : 32 < (Field.w c).toNat ∨ Field.z c ≠ 0) :
    issueCommand c s = .next (s.afterEarlyFault 1 c) := by
  have hnone : ∀ i : Instr, ¬ i.rowSelects c := (no_rowSelects_iff c).2 <| by
    rcases hc with hw | hz
    · exact .inr (.inr (.inr ⟨hopc, hw⟩))
    · exact .inr (.inl hz)
  obtain ⟨_, _, hfaults⟩ := illegalWordFaultsAlone c
  exact hfaults s hs hnone

/-- Settles O30, by the three ends of a group command that takes 32 words and puts `k`. -/
theorem pack32MeetsItsRule : Obligations.Pack32MeetsItsRule := by
  intro s ip op k hs
  have hlen (v : List Word) : (pack32 v k.toNat).length = k.toNat := pack32_length v _
  refine ⟨fun hk hsrc hdst => ?_, fun hk hsrc => ?_, fun hk hsrc h1 hdst => ?_, fun hk => ?_,
    fun c ho hc => ?_⟩
  · rw [exec_pack32 hk]
    exact groupBody_completes hs hlen (.inr hsrc) hdst
  · rw [exec_pack32 hk]
    exact groupBody_srcBounds hs (by omega)
  · rw [exec_pack32 hk]
    exact groupBody_dstBounds hs hlen (.inr hsrc) (by omega)
  · rw [(width_words_eq_encode k).1]
    exact decode_encode (decide_eq_true hk)
  · exact issueCommand_illegal_width hs.1 (by simp [ho, widthOpcodes]) hc

/-- Settles O31, by the three ends of a group command that takes `k` words and puts 32. -/
theorem unpack32MeetsItsRule : Obligations.Unpack32MeetsItsRule := by
  intro s ip op k hs
  have hlen (o : List Word) : (unpack32 o k.toNat).length = 32 := unpack32_length o _
  refine ⟨fun hk hsrc hdst => ?_, fun hk h1 hsrc => ?_, fun hk hsrc hdst => ?_, fun hk => ?_,
    fun c ho hc => ?_⟩
  · rw [exec_unpack32 hk]
    exact groupBody_completes hs hlen hsrc (.inr hdst)
  · rw [exec_unpack32 hk]
    exact groupBody_srcBounds hs (by omega)
  · rw [exec_unpack32 hk]
    exact groupBody_dstBounds hs hlen hsrc (by omega)
  · rw [(width_words_eq_encode k).2]
    exact decode_encode (decide_eq_true hk)
  · exact issueCommand_illegal_width hs.1 (by simp [ho, widthOpcodes]) hc

end Sys2Proof.Machine
end

section
/-! PROOFS. The FastPFOR selector takes the cheapest candidate, the largest among equals, and the ends of
a `SELECT` (41_fastpfor_selector.md R120 to R128). -/

namespace Sys2Proof.Machine

/-! ### The true maximum width -/

/-- Only 0 needs no bits. -/
theorem bitlen_eq_zero_iff (v : Word) : bitlen v = 0 ↔ v = 0 := by
  rw [← Nat.le_zero, bitlen_le_iff, pow_zero, Nat.lt_one_iff]
  exact BitVec.toNat_inj (y := 0)

/-- The largest used width is used, as soon as one is (R121 step 2). -/
theorem freqAt_largestUsed_pos {freqs : Arr Nat} {top w : Nat} (hw : w ≤ top)
    (hused : 0 < freqAt freqs w) : 0 < freqAt freqs (largestUsed freqs top) := by
  induction top with
  | zero =>
    obtain rfl := Nat.le_zero.1 hw
    exact hused
  | succ t ih =>
    rw [largestUsed]
    split
    · next htop => exact htop
    · next htop => exact ih (Nat.le_of_lt_succ (hw.lt_of_ne fun heq => htop (heq ▸ hused)))

/-- The selector's `maxb` is the true maximum width of a block (R128(e)). -/
theorem fpfSelected_isMaxWidth {blk : List Word} (hlen : 0 < blk.length) :
    isMaxWidth blk (fpfSelected blk).2.2 := by
  refine ⟨(fpfSelected_fits blk).wide, ?_⟩
  have hfreqs {w : Nat} (hw : w ≤ 32) := freqAt_histogram [] blk hw
  obtain ⟨v, hv⟩ := List.exists_mem_of_length_pos hlen
  have hused : 0 < freqAt (histogram [] blk) (bitlen v) := by
    rw [hfreqs (bitlen_le_32 v), List.countP_pos_iff]
    exact ⟨v, hv, decide_eq_true rfl⟩
  have hmax := freqAt_largestUsed_pos (bitlen_le_32 v) hused
  rw [hfreqs (largestUsed_le _ 32), List.countP_pos_iff] at hmax
  obtain ⟨u, hu, hwidth⟩ := hmax
  exact ⟨u, hu, of_decide_eq_true hwidth⟩

/-- The maximum width is 0 exactly for a block of zeros. -/
theorem isMaxWidth.eq_zero_iff {blk : List Word} {m : Nat} (h : isMaxWidth blk m) :
    m = 0 ↔ ∀ v ∈ blk, v = 0 := by
  obtain ⟨hwide, u, hu, hmax⟩ := h
  constructor
  · rintro rfl v hv
    exact (bitlen_eq_zero_iff v).1 (Nat.le_zero.1 (hwide v hv))
  · intro hzero
    rw [← hmax, bitlen_eq_zero_iff]
    exact hzero u hu

/-- A block has exceptions exactly at the widths below its maximum. -/
theorem isMaxWidth.above_eq_zero_iff {blk : List Word} {m b : Nat} (h : isMaxWidth blk m) :
    above blk b = 0 ↔ m ≤ b := by
  obtain ⟨hwide, u, hu, hmax⟩ := h
  refine ⟨fun hnone => ?_, fun hle => above_eq_zero fun v hv => (hwide v hv).trans hle⟩
  have hfits := List.countP_eq_zero.1 hnone u hu
  rw [decide_eq_true_eq, high_ne_zero_iff, hmax] at hfits
  exact not_lt.1 hfits

/-! ### The descent -/

/-- A smaller width has at least as many exceptions. -/
theorem above_antitone (blk : List Word) : Antitone (above blk) :=
  antitone_nat_of_succ_le fun b => by rw [above_eq_above_succ blk b]; exact Nat.le_add_right _ _

/-- What the descent chooses from: the baseline and the candidates (R121, R123). -/
def fpfChoosable (blk : List Word) (m b : Nat) : Prop := b = m ∨ fpfCandidate blk m b

/-- `best` is the cheapest choice among the widths from `n` on, the largest among equals (R125). -/
structure FpfBestFrom (blk : List Word) (m n : Nat) (best : Choice) : Prop where
  reached : n ≤ best.b
  choosable : fpfChoosable blk m best.b
  cost : best.cost = fpfCostOf blk m best.b
  least : ∀ b', n ≤ b' → fpfChoosable blk m b' →
    fpfCostOf blk m best.b ≤ fpfCostOf blk m b' ∧
      (fpfCostOf blk m b' = fpfCostOf blk m best.b → b' ≤ best.b)

section
variable {blk : List Word} {m b : Nat} {best : Choice}

/-- Before the descent the baseline is the only choice (R121 step 3). -/
theorem fpfBestFrom_baseline (blk : List Word) (m : Nat) : FpfBestFrom blk m m ⟨m, 0, m * 128⟩ where
  reached := le_rfl
  choosable := .inl rfl
  cost := (if_pos rfl).symm
  least := by
    rintro b' hb' (rfl | ⟨hlt, _⟩)
    · exact ⟨le_rfl, fun _ => le_rfl⟩
    · exact absurd hlt (not_lt.2 hb')

/-- The descent may stop at a width with more than 127 exceptions: below it there is no candidate
(R123). -/
theorem FpfBestFrom.stop (h : FpfBestFrom blk m (b + 1) best) (hb : b < m) (hmany : 127 < above blk b) :
    FpfBestFrom blk m 0 best where
  reached := Nat.zero_le _
  choosable := h.choosable
  cost := h.cost
  least b' _ hb' := by
    refine h.least b' (Nat.lt_of_not_le fun hle => ?_) hb'
    have hmore := above_antitone blk hle
    rcases hb' with rfl | ⟨_, hfew⟩ <;> omega

/-- A strictly cheaper candidate is the new best (R125). -/
theorem FpfBestFrom.replace (h : FpfBestFrom blk m (b + 1) best) (hb : fpfCandidate blk m b) (c : Nat)
    (hless : fpfCostOf blk m b < best.cost) :
    FpfBestFrom blk m b ⟨b, c, fpfCostOf blk m b⟩ where
  reached := le_rfl
  choosable := .inr hb
  cost := rfl
  least b' hle hb' := by
    rcases hle.eq_or_lt with rfl | hlt
    · exact ⟨le_rfl, fun _ => le_rfl⟩
    · have hold := (h.least b' hlt hb').1
      have hcost := h.cost
      dsimp only
      omega

/-- A candidate that is not strictly cheaper leaves the best, which is larger (R125). -/
theorem FpfBestFrom.keep (h : FpfBestFrom blk m (b + 1) best)
    (hmore : ¬ fpfCostOf blk m b < best.cost) : FpfBestFrom blk m b best where
  reached := (Nat.le_succ b).trans h.reached
  choosable := h.choosable
  cost := h.cost
  least b' hle hb' := by
    rcases hle.eq_or_lt with rfl | hlt
    · exact ⟨h.cost ▸ not_lt.1 hmore, fun _ => (Nat.le_succ b).trans h.reached⟩
    · exact h.least b' hlt hb'

/-- The cost the descent computes for a candidate is that of R124. -/
theorem fpfCost_above (hb : b < m) : fpfCost m b (above blk b) = fpfCostOf blk m b :=
  (if_neg hb.ne).symm

end

/-- The descent ends with the best of all choices (R121 steps 3 to 5). -/
theorem fpfDescend_best {freqs : Arr Nat} {blk : List Word} {m : Nat} (hm : m ≤ 32)
    (hfreqs : ∀ w, w ≤ 32 → freqAt freqs w = blk.countP fun v => decide (bitlen v = w)) (n : Nat)
    (best : Choice) (hn : n ≤ m) (h : FpfBestFrom blk m n best) :
    FpfBestFrom blk m 0 (fpfDescend freqs m n (above blk n) best) := by
  induction n generalizing best with
  | zero => exact h
  | succ b ih =>
    have hcount : above blk (b + 1) + freqAt freqs (b + 1) = above blk b := by
      rw [hfreqs _ (hn.trans hm), ← above_eq_above_succ]
    simp only [fpfDescend, hcount, fpfCost_above hn]
    split
    · next hmany => exact h.stop hn hmany
    · next hfew =>
      split
      · next hless => exact ih _ (Nat.le_of_lt hn) (h.replace ⟨hn, not_lt.1 hfew⟩ _ hless)
      · next hmore => exact ih _ (Nat.le_of_lt hn) (h.keep hmore)

/-- The selector's width is the cheapest choice, the largest among equals (R125). -/
theorem fpfSelected_best {blk : List Word} {b c m : Nat} (hsel : fpfSelected blk = (b, c, m)) :
    fpfChoosable blk m b ∧ ∀ b', fpfChoosable blk m b' →
      fpfCostOf blk m b ≤ fpfCostOf blk m b' ∧ (fpfCostOf blk m b' = fpfCostOf blk m b → b' ≤ b) := by
  have hfits := fpfSelected_fits blk
  have hbest := fpfDescend_best hfits.top (fun w => freqAt_histogram [] blk) _ _ le_rfl
    (fpfBestFrom_baseline blk _)
  rw [above_eq_zero hfits.wide] at hbest
  cases hsel
  exact ⟨hbest.choosable, fun b' => hbest.least b' (Nat.zero_le b')⟩

/-- Settles O33: the result fits its block, `maxb` is the true maximum width, and the descent keeps the
best choice so far. -/
theorem fpfSelectorIsOptimal : Obligations.FpfSelectorIsOptimal := by
  intro sc blk b c m hlen hsel
  rw [fpfSelect_fst] at hsel
  have hfits := fpfSelected_fits blk
  have hmax := fpfSelected_isMaxWidth (blk := blk) (by omega)
  simp only [hsel] at hfits hmax
  obtain ⟨horder, htop, hcount, hsmall, hwide⟩ := hfits
  obtain ⟨hchoosable, hleast⟩ := fpfSelected_best hsel
  have hnone : c = 0 ↔ b = m := by
    rw [hcount, hmax.above_eq_zero_iff]
    omega
  have hhigh : ∀ v ∈ blk, high v b ≠ 0 → 1 ≤ high v b ∧ high v b < 2 ^ (m - b) :=
    fun v hv hne => ⟨Nat.one_le_iff_ne_zero.2 hne, high_lt ((hwide v hv).trans (by omega))⟩
  exact ⟨horder, htop, hnone, hcount, hsmall, hhigh, hmax, hmax.eq_zero_iff, by omega, hchoosable, hleast⟩

/-! ### The two ends of a `SELECT` -/

section
variable {select : Scratch → List Word → (Nat × Nat × Nat) × Scratch} {s : State} {ip op : Word}

/-- Within `SRC` a `SELECT` writes the results of its selector for the words it reads, and nothing
else. -/
theorem selectBody_completes {chosen : List Word → Nat × Nat × Nat}
    (hchosen : ∀ sc blk, (select sc blk).1 = chosen blk) (hs : s.ready ip op)
    (hsrc : ip.toNat + 128 ≤ s.params.srcLen.toNat) :
    ∃ (blk : List Word) (k : Nat), blk.length = 128 ∧ s.src.mayRead ip.toNat blk ∧
      runCommand s (selectBody select) =
        .next (s.afterSelect (chosen blk).1 (chosen blk).2.1 (chosen blk).2.2 k) := by
  obtain ⟨hfault, hin, _⟩ := hs
  rw [← start_ip_known s ip hin] at hsrc ⊢
  have hread := readSrc_eq_ok (w := s.start).2 ⟨.inr hsrc, rfl⟩
  refine ⟨_, s.start.s.tick + 128, readWords_length .., mayRead_readWords s.src _ 128 s.start.s.tick,
    runCommand_ok hfault ?_⟩
  rw [selectBody, hread, ok_bind]
  simp only [hchosen]
  rfl

/-- Past the end of `SRC` a `SELECT` faults with the last index it asks for. -/
theorem selectBody_srcBounds (hs : s.ready ip op) (hsrc : s.params.srcLen.toNat < ip.toNat + 128) :
    ∃ t, runCommand s (selectBody select) = .next t ∧
      s.LateFault t op.toNat 2 (BitVec.ofNat 32 (ip.toNat + 127)) := by
  obtain ⟨hfault, hin, hout⟩ := hs
  rw [← start_ip_known s ip hin] at hsrc ⊢
  rw [← start_op_known s op hout]
  have hread := readSrc_eq_error (w := s.start) (n := 128).2 ⟨by simpa using hsrc, rfl⟩
  exact ⟨_, runCommand_error hfault (by rw [selectBody, hread, error_bind]), takeFault_lateFault s rfl⟩

end

/-- Settles O32, by the two ends of a `SELECT`. -/
theorem fpfSelectMeetsItsRule : Obligations.FpfSelectMeetsItsRule := by
  intro s ip op hs
  rw [exec_eq_runCommand (by simp)]
  exact ⟨selectBody_completes fpfSelect_fst hs, selectBody_srcBounds hs⟩

end Sys2Proof.Machine
end

section
/-! PROOFS. The ends of a page command and of the facades at which no page is run: an oversized page is
refused (42_fastpfor_encode.md R140; 60_exceptions.md R251), empty input completes (60_exceptions.md
R254), and a page of no blocks is three words (42_fastpfor_encode.md R140, R141). -/

namespace Sys2Proof.Machine

/-! ### An oversized page -/

section
variable {s : State}

/-- `BAD_PARAM` is raised before anything is read or written (60_exceptions.md R251(c)). -/
theorem takeFault_badParam (s : State) (v : Word) (k : Nat) :
    takeFault s ⟨.badParam, v.toNat, k⟩ = s.afterEarlyFault 12 v := by
  rw [takeFault_early rfl, State.recordFault, BitVec.ofNat_toNat, BitVec.setWidth_eq]
  rfl

theorem checkThissize_error {limit : Nat} (h : limit < s.thissize.toNat) :
    checkThissize s limit = .error ⟨.badParam, s.thissize.toNat, s.tick⟩ := if_pos h

/-- A page command checks `THISSIZE` before its page procedure, whatever that does. -/
theorem pageBody_oversized (page : Nat → Work → Except Trap Work) {limit : Nat}
    (hs : s.faulted = false) (h : limit < s.thissize.toNat) :
    runCommand s (pageBody page limit) = .next (s.afterEarlyFault 12 s.thissize) := by
  rw [← takeFault_badParam s s.thissize s.tick]
  exact runCommand_error hs (by rw [pageBody, checkThissize_error h, error_bind])

end

/-- Settles O23: the four page commands share one body. -/
theorem oversizedPageIsBadParam : Obligations.OversizedPageIsBadParam := fun _ hs =>
  ⟨fun h => ⟨pageBody_oversized fpfEncodePage hs h, pageBody_oversized fpfDecodePage hs h⟩,
    fun h => ⟨pageBody_oversized (opdEncodePage Config.s16) hs h,
      pageBody_oversized (opdDecodePage Config.s16) hs h⟩⟩

/-! ### Empty input -/

section
variable {s : State} {ip op : Word}

/-- Closing the result registers is a completion that consumes and produces nothing. -/
theorem completes_closeResults (hin : s.inpos = .known ip) (hout : s.outpos = .known op) :
    s.Completes s.closeResults ip.toNat op.toNat 0 [] where
  params := rfl
  status := rfl
  fcause := rfl
  finfo := rfl
  inpos := by simpa using hin
  outpos := by simpa using hout
  inlen := rfl
  thissize := rfl
  bestb := rfl
  cexcept := rfl
  maxb := rfl
  scratch := rfl
  src := rfl
  host := rfl
  rdata := rfl
  written := holds_nil s.dst _
  kept := fun _ _ => rfl

/-- A body that only closes the result registers completes without consuming or producing a word. -/
theorem runCommand_closeResults {body : State → Except Trap State} (hs : s.ready ip op)
    (hbody : body s = .ok s.closeResults) :
    ∃ t, runCommand s body = .next t ∧ s.Completes t ip.toNat op.toNat 0 [] := by
  obtain ⟨hfault, hin, hout⟩ := hs
  exact ⟨_, runCommand_ok hfault hbody, completes_closeResults hin hout⟩

/-- Fewer than 128 values are no whole block (42_fastpfor_encode.md R150). -/
theorem compressBody_empty (page : Nat → Work → Except Trap Work) (size : Nat)
    (h : s.inlen.toNat < 128) : compressBody page size s = .ok s.closeResults :=
  if_pos (by rw [Nat.mod_eq_of_lt h, Nat.sub_self])

theorem uncompressBody_empty (page : Nat → Work → Except Trap Work) (size : Nat)
    (h : s.inlen.toNat = 0) : uncompressBody page size s = .ok s.closeResults := if_pos h

end

/-- Settles O24: on empty input a facade closes the result registers and runs no page. -/
theorem emptyInputCompletes : Obligations.EmptyInputCompletes := fun _ _ _ hs =>
  ⟨fun h => ⟨runCommand_closeResults hs (compressBody_empty _ _ h),
      runCommand_closeResults hs (compressBody_empty _ _ h)⟩,
    fun h => ⟨runCommand_closeResults hs (uncompressBody_empty _ _ h),
      runCommand_closeResults hs (uncompressBody_empty _ _ h)⟩⟩

/-! ### A page of no blocks -/

/-- Nothing is staged, so the meta section is an empty byte buffer and an empty bitmap (R87 to R90). -/
theorem metaSection_nil : metaSection [] = [0, 0] := rfl

/-- The working state with nothing staged, as a page starts (R141). -/
def Work.clearPage (w : Work) : Work := w.onScratch fun sc => { sc.clearDp with bblen := some 0 }

/-- With no block to encode a page is its head word, then the flush. -/
theorem fpfEncodePage_of_lt {n : Nat} (hn : n < 128) (w : Work) :
    fpfEncodePage n w = (w.putDst [0] >>= fun w1 => fpfFlushPage w.op w1.clearPage) := by
  have hiter (v : Work) : (iter fpfEncodeBlock 0 v >>= fpfFlushPage w.op) = fpfFlushPage w.op v := by
    rw [iter_zero, ok_bind]
  rw [fpfEncodePage, Nat.div_eq_of_lt hn]
  exact congrArg (w.putDst [0] >>= ·) (funext fun w1 => hiter w1.clearPage)

/-- A page of no blocks reads no word of `SRC`, wherever the source cursor stands: its head word is
written and its meta section is empty (R141, R145). -/
theorem fpfEncodePage_noBlocks {w : Work} {n : Nat} (hn : n < 128)
    (hroom : w.op + 3 ≤ w.s.params.dstLen.toNat) :
    ∃ w', fpfEncodePage n w = .ok w' ∧ w.Wrote w' w.op [1, 0, 0] ∧ w'.ip = w.ip ∧
      w'.op = w.op + 3 := by
  obtain ⟨w1, h1, hw1, hip1, hop1, _⟩ := (Work.Wrote.refl w w.op).putDst rfl (ws := [0])
    (by rw [List.length_nil, List.length_singleton]; omega)
  have hop2 : w1.clearPage.op = w.op + 1 := hop1
  have hw2 : w.Wrote w1.clearPage w.op [0] := hw1.onScratch _
  obtain ⟨w3, h3, hw3, hip3, hop3, hsc3⟩ := hw2.rewriteHead (y := BitVec.ofNat 32 1) (by omega)
  have hstaged : StagedBlocks w3.s.scratch [] := by rw [hsc3]; exact staged_start _
  obtain ⟨w4, h4, hw4, hip4, hop4⟩ := flushMeta_ok hstaged (by
    rw [metaSection_nil, hop3, hop2, hw3.params]
    exact hroom)
  rw [hop3, hop2, metaSection_nil] at hw4 hop4
  refine ⟨w4, ?_, hw3.append hw4, hip4.trans (hip3.trans hip1), hop4⟩
  rw [fpfEncodePage_of_lt hn, h1, ok_bind, fpfFlushPage_eq, hop2, Nat.add_sub_cancel_left, h3, ok_bind,
    h4]

/-- Settles O36: the page procedure writes the three words without looking at the source cursor. -/
theorem fpfEncpageOfNoBlocks : Obligations.FpfEncpageOfNoBlocks := by
  rintro s ip op ⟨hf, hin, hout⟩ hsize hroom
  have hip : s.start.ip = ip.toNat := start_ip_known s ip hin
  have hop : s.start.op = op.toNat := start_op_known s op hout
  obtain ⟨w, hw, hwrote, hip', hop'⟩ := fpfEncodePage_noBlocks (w := s.start) hsize (by rwa [hop])
  rw [hop] at hwrote hop'
  have hpage : s.thissize.toNat ≤ pageSize s.params := by unfold pageSize; omega
  rw [exec_eq_runCommand (by simp)]
  refine ⟨w.commit, runCommand_ok hf ?_, completes_commit hwrote (hip'.trans hip) hop'⟩
  rw [commandBody, pageBody, checkThissize_ok hpage, ok_bind, hw, ok_bind]

end Sys2Proof.Machine
end

section
/-! PROOFS. What the dispatch of a block does to scratch, whatever scratch held before
(42_fastpfor_encode.md R142, R143). -/

namespace Sys2Proof.Machine

/-- From `m` to `m'` an array took the elements of a list from index `a` on, and no other element
changed. -/
structure Arr.Gained {α : Type} (m m' : Arr α) (a : Nat) (vs : List α) : Prop where
  holds : Arr.Holds m' a vs
  kept : ∀ i, i < a ∨ a + vs.length ≤ i → m'.get? i = m.get? i

section
variable {α : Type} {m m' : Arr α} {a : Nat} {us : List α}

theorem Arr.Gained.refl (m : Arr α) (a : Nat) : m.Gained m a [] := ⟨holds_nil m a, fun _ _ => rfl⟩

/-- Writing one element right behind those taken takes it too. -/
theorem Arr.Gained.write (h : m.Gained m' a us) (v : α) :
    m.Gained (m'.write (a + us.length) [v]) a (us ++ [v]) where
  holds := h.holds.write_append [v]
  kept := fun i hi => by
    rw [List.length_append, List.length_singleton] at hi
    rw [get?_write_outside m' (by rw [List.length_singleton]; omega)]
    exact h.kept i (by omega)

end

/-- From `sc` to `sc'` the bytes `bytes` were appended to a byte buffer of `n` bytes and the values
`vals` to a bucket `idx` of `d` entries, and no other element of the three arrays changed. -/
structure Scratch.Appended (sc sc' : Scratch) (n idx d : Nat) (bytes : List Byte) (vals : List Word) :
    Prop where
  bblen : sc'.bblen = some (n + bytes.length)
  buffer : sc.bb.Gained sc'.bb n bytes
  count : sc'.dp.get? idx = some (d + vals.length)
  counts : ∀ k, k ≠ idx → sc'.dp.get? k = sc.dp.get? k
  bucket : sc.bk.Gained sc'.bk (bkIndex idx d) vals

/-- The entries of a bucket stand one behind the other. -/
theorem bkIndex_add (k i j : Nat) : bkIndex k (i + j) = bkIndex k i + j := (Nat.add_assoc ..).symm

section
variable {sc sc' : Scratch} {n idx d : Nat} {bytes : List Byte} {vals : List Word}

theorem Scratch.Appended.refl (hn : sc.bblen = some n) (hd : sc.dp.get? idx = some d) :
    sc.Appended sc n idx d [] [] := ⟨hn, .refl _ _, hd, fun _ _ => rfl, .refl _ _⟩

/-- One exception more: a byte to the byte buffer and a value to the bucket. -/
theorem Scratch.Appended.put (h : sc.Appended sc' n idx d bytes vals) (y : Byte) (v : Word) :
    sc.Appended ((sc'.bbPut y).bkAppend idx v) n idx d (bytes ++ [y]) (vals ++ [v]) := by
  have hlen : sc'.bbLen = n + bytes.length := by rw [Scratch.bbLen, h.bblen, Option.getD_some]
  have hcount : (sc'.bbPut y).dpAt idx = d + vals.length := by
    rw [Scratch.dpAt, Scratch.bbPut, h.count, Option.getD_some]
  refine ⟨?_, ?_, ?_, fun k hk => ?_, ?_⟩
  · rw [Scratch.bkAppend, Scratch.bbPut, hlen, List.length_append, List.length_singleton, Nat.add_assoc]
  · rw [Scratch.bkAppend, Scratch.bbPut, hlen]
    exact h.buffer.write y
  · rw [Scratch.bkAppend, hcount, get?_write_one, if_pos rfl, List.length_append, List.length_singleton,
      Nat.add_assoc]
  · rw [Scratch.bkAppend, get?_write_one, if_neg hk]
    exact h.counts k hk
  · rw [Scratch.bkAppend, hcount, bkIndex_add]
    exact h.bucket.write v

/-- The scan from position `k` on appends the positions of the exceptions and their high parts, in
ascending position (R143). -/
theorem Scratch.Appended.dispatch {b k : Nat} {vs : List Word} (h : sc.Appended sc' n idx d bytes vals) :
    sc.Appended (dispatch b idx k vs sc') n idx d
      (bytes ++ (exceptionPositions vs b).map fun p => BitVec.ofNat 8 (k + p))
      (vals ++ exceptionHighs vs b) := by
  induction vs generalizing k sc' bytes vals with
  | nil => simpa [Machine.dispatch, exceptionPositions, exceptionHighs] using h
  | cons v vs ih =>
    have hshift : (fun p => BitVec.ofNat 8 (k + p)) ∘ (· + 1) = fun p => BitVec.ofNat 8 (k + 1 + p) :=
      funext fun p => congrArg (BitVec.ofNat 8) (by rw [Nat.add_assoc, Nat.add_comm 1])
    rw [exceptionPositions_cons, exceptionHighs_cons, Machine.dispatch]
    split
    · have hrest := ih (k := k + 1) (h.put (BitVec.ofNat 8 k) (BitVec.ofNat 32 (high v b)))
      simpa [hshift] using hrest
    · simpa [hshift] using ih (k := k + 1) h

end

/-- Settles O34: the scan from position 0 on, read element by element. -/
theorem dispatchFillsOneBucketInOrder : Obligations.DispatchFillsOneBucketInOrder := by
  intro b idx blk sc n d _ hn hd _
  have happ := (Scratch.Appended.refl hn hd).dispatch (b := b) (k := 0) (vs := blk)
  have hlen := length_exceptionHighs blk b
  simp only [List.nil_append, Nat.zero_add] at happ
  obtain ⟨hbblen, ⟨hbytes, hearlier⟩, hcount, hcounts, ⟨hvals, hother⟩⟩ := happ
  rw [List.length_map] at hbblen
  rw [hlen] at hcount
  refine ⟨hbblen, fun j hj => ?_, fun j hj => hearlier j (.inl hj), hcount, hcounts, fun j hj => ?_,
    fun a ha => hother a ?_, hlen⟩
  · rw [hbytes j (by rwa [List.length_map]), List.getElem?_map]
  · rw [bkIndex_add]
    exact hvals j (by rwa [hlen])
  · rwa [hlen, ← bkIndex_add]

end Sys2Proof.Machine
end

section
/-! PROOFS. Reading on in `SRC`: procedures that take the words of a list one after the other and write
nothing to `DST`, wherever the output cursor stands. -/

namespace Sys2Proof.Machine

/-- A single word is seen where `SRC` has one and it is specified. -/
theorem sees_singleton {s : State} {a : Nat} {x : Word} :
    s.Sees a [x] ↔ s.src.get? a = some x ∧ a < s.params.srcLen.toNat :=
  ⟨fun h => ⟨(holds_cons.1 h.holds).1, h.inSrc⟩,
    fun h => ⟨holds_cons.2 ⟨h.1, holds_nil _ _⟩, h.2⟩⟩

/-- In a build `p`, wherever the running command sees the words `ws`, the procedure completes, having
taken exactly those and written nothing. Unlike `DecodesTo p run ws []` it asks nothing of the output
cursor. -/
def ReadsOver (p : Params) (run : Work → Except Trap Work) (ws : List Word) : Prop :=
  ∀ w : Work, w.s.params = p → w.s.Sees w.ip ws →
    ∃ w', run w = .ok w' ∧ w.Wrote w' w.op [] ∧ w'.ip = w.ip + ws.length ∧ w'.op = w.op

section
variable {p : Params} {f g : Work → Except Trap Work} {us vs ws : List Word}

theorem readsOver_nil : ReadsOver p .ok [] := fun w _ _ => ⟨w, rfl, .refl w _, rfl, rfl⟩

/-- Reading in sequence reads the concatenation. -/
theorem ReadsOver.append (hf : ReadsOver p f us) (hg : ReadsOver p g vs) :
    ReadsOver p (fun w => f w >>= g) (us ++ vs) := by
  intro w hp hsees
  obtain ⟨hus, hvs⟩ := sees_append.1 hsees
  obtain ⟨w1, h1, hw1, hip1, hop1⟩ := hf w hp hus
  obtain ⟨w2, h2, hw2, hip2, hop2⟩ := hg w1 (hw1.params.trans hp) (by rw [hip1]; exact hw1.sees hvs)
  refine ⟨w2, (congrArg (· >>= g) h1).trans h2, ?_, ?_, hop2.trans hop1⟩
  · exact hw1.after_quiet (hop1 ▸ hw2)
  · rw [hip2, hip1, List.length_append, Nat.add_assoc]

/-- A loop reads the words of its rounds, one round after the other. -/
theorem readsOver_forEach {body : Nat → Work → Except Trap Work} {image : Nat → List Word} {ks : List Nat}
    (h : ∀ k ∈ ks, ReadsOver p (body k) (image k)) :
    ReadsOver p (forEach body ks) (ks.flatMap image) := by
  induction ks with
  | nil => exact readsOver_nil
  | cons k ks ih =>
    rw [List.flatMap_cons]
    exact (h k (by simp)).append (ih fun j hj => h j (by simp [hj]))

/-- A loop of `n` rounds that each take `c` words reads `c * n` words, whatever they are. -/
theorem readsOver_forEach_range {body : Nat → Work → Except Trap Work} {c n : Nat}
    (h : ∀ i us, us.length = c → ReadsOver p (body i) us) (hws : ws.length = c * n) :
    ReadsOver p (forEach body (List.range n)) ws := by
  have hpieces := readsOver_forEach (p := p) (body := body) (ks := List.range n)
    (image := fun i => (ws.drop (c * i)).take c) fun i hi => h i _ ?_
  · rwa [flatMap_pieces, List.take_of_length_le hws.le] at hpieces
  · have hlast : c * (i + 1) ≤ c * n := Nat.mul_le_mul_left c (List.mem_range.1 hi)
    rw [List.length_take, List.length_drop, hws]
    rw [Nat.mul_succ] at hlast
    omega

/-- Reading, then changing scratch. -/
theorem ReadsOver.then_onScratch (hf : ReadsOver p f ws) (h : Scratch → Scratch) :
    ReadsOver p (fun w => f w >>= fun v => .ok (v.onScratch h)) ws := by
  have hsc : ReadsOver p (fun w => .ok (w.onScratch h)) [] := fun w _ _ =>
    ⟨_, rfl, (Work.Wrote.refl w _).onScratch h, rfl, rfl⟩
  simpa using hf.append hsc

/-- Changing scratch, then reading. -/
theorem ReadsOver.after_onScratch (hf : ReadsOver p f ws) (h : Scratch → Scratch) :
    ReadsOver p (fun w => f (w.onScratch h)) ws :=
  (readsOver_nil.then_onScratch h).append hf

theorem readsOver_took (ws : List Word) : ReadsOver p (fun w => .ok (w.took ws.length)) ws :=
  fun w _ _ => ⟨_, rfl, (Work.Wrote.refl w _).took _, rfl, rfl⟩

/-- Taking one word, then reading on. -/
theorem ReadsOver.after_takeSrc1 {x : Word} (hf : ReadsOver p f ws)
    (hg : ∀ w : Work, w.s.params = p → w.s.Sees w.ip [x] → g w = f (w.took 1)) :
    ReadsOver p g (x :: ws) := fun w hp hsees => by
  rw [hg w hp (sees_cons hsees).1]
  exact (readsOver_took [x]).append hf w hp hsees

/-- Procedures that agree where the words stand read over them alike. -/
theorem ReadsOver.congr (hf : ReadsOver p f ws)
    (h : ∀ w : Work, w.s.params = p → w.s.Sees w.ip ws → g w = f w) : ReadsOver p g ws :=
  fun w hp hsees => h w hp hsees ▸ hf w hp hsees

end

end Sys2Proof.Machine
end

section
/-! PROOFS. The meta section of a FastPFOR page, whatever its words are: the two capacity checks, and
reading over a section within the capacities (43_fastpfor_decode.md R170 to R174). -/

namespace Sys2Proof.Machine

theorem check_of {P : Prop} [Decidable P] (h : P) (w : Work) (c : Cause) (i : Nat) :
    w.check (decide P) c i = .ok () := check_eq_ok.2 (decide_eq_true h)

theorem check_of_not {P : Prop} [Decidable P] (h : ¬ P) (w : Work) (c : Cause) (i : Nat) :
    w.check (decide P) c i = .error ⟨c, i, w.s.tick⟩ := check_eq_error.2 ⟨decide_eq_false h, rfl⟩

/-- The working state with every bucket empty, as the buckets start (R174). -/
def Work.clearSizes (w : Work) : Work :=
  w.onScratch fun sc => { sc with bsize := sc.bsize.write 1 (List.replicate 32 0) }

/-! ### What the loaders do with the words they take first -/

section
variable {w : Work} {size bitmap : Word} {k : Nat}

/-- The padded byte count is checked, then each word is loaded (R172, R173). -/
theorem loadBytes_eq (h : w.s.Sees w.ip [size]) :
    loadBytes w =
      ((w.took 1).check (decide (4 * ceilDiv size.toNat 4 ≤ byteBufCap w.s.params)) .bytebufOverrun
        size.toNat >>= fun _ => forEach loadWord (List.range (ceilDiv size.toNat 4)) (w.took 1) >>= fun v =>
          .ok (v.onScratch fun sc => { sc with bblen := some size.toNat, bbpos := some 0 })) := by
  rw [loadBytes, takeSrc1_of_sees h]
  rfl

/-- A bucket that the bitmap does not name reads nothing (R174). -/
theorem loadBucket_unnamed (hbit : bitmap.getLsbD (k - 1) = false) (w : Work) :
    loadBucket bitmap k w = .ok w := if_neg (by simp [hbit])

/-- The count of a bucket that the bitmap names is checked, then each group is loaded (R174). -/
theorem loadBucket_named (hbit : bitmap.getLsbD (k - 1) = true) (h : w.s.Sees w.ip [size]) :
    loadBucket bitmap k w =
      ((w.took 1).check (decide (size.toNat ≤ bucketCap w.s.params)) .bucketOverrun size.toNat >>= fun _ =>
        forEach (loadGroup k) (List.range (ceilDiv size.toNat 32))
          ((w.took 1).onScratch fun sc => { sc with bsize := sc.bsize.write k [size.toNat] })) := by
  rw [loadBucket, if_pos hbit, takeSrc1_of_sees h]
  rfl

/-- The bitmap is read and the buckets start empty (R174). -/
theorem loadBuckets_eq (h : w.s.Sees w.ip [bitmap]) :
    loadBuckets w = forEach (loadBucket bitmap) bucketNumbers (w.took 1).clearSizes := by
  rw [loadBuckets, takeSrc1_of_sees h]
  rfl

/-! ### The capacity checks -/

/-- A byte buffer above `BYTEBUF_CAP` is refused (R172). -/
theorem loadBytes_overrun (h : w.s.Sees w.ip [size])
    (hcap : byteBufCap w.s.params < 4 * ceilDiv size.toNat 4) :
    loadBytes w = .error ⟨.bytebufOverrun, size.toNat, w.s.tick + 1⟩ := by
  rw [loadBytes_eq h, check_of_not (not_le.2 hcap), error_bind]
  rfl

/-- A bucket above `BUCKET_CAP` is refused (R174). -/
theorem loadBucket_overrun (hbit : bitmap.getLsbD (k - 1) = true) (h : w.s.Sees w.ip [size])
    (hcap : bucketCap w.s.params < size.toNat) :
    loadBucket bitmap k w = .error ⟨.bucketOverrun, size.toNat, w.s.tick + 1⟩ := by
  rw [loadBucket_named hbit h, check_of_not (not_le.2 hcap), error_bind]
  rfl

/-- Rounds that do nothing may be left out. -/
theorem forEach_append_of_idle {body : Nat → Work → Except Trap Work} {ks js : List Nat}
    (h : ∀ k ∈ ks, body k w = .ok w) : forEach body (ks ++ js) w = forEach body js w := by
  induction ks with
  | nil => rfl
  | cons k ks ih =>
    rw [List.cons_append, forEach_cons, h k (by simp), ok_bind, ih fun i hi => h i (by simp [hi])]

theorem bucketNumbers_split (h1 : 1 ≤ k) (h32 : k ≤ 32) :
    bucketNumbers = List.range' 1 (k - 1) ++ k :: List.range' (k + 1) (32 - k) := by
  have hk : 1 + (k - 1) = k := by omega
  have hlen : 32 = k - 1 + (32 - k + 1) := by omega
  calc bucketNumbers = List.range' 1 (k - 1 + (32 - k + 1)) := congrArg (List.range' 1) hlen
    _ = List.range' 1 (k - 1) ++ k :: List.range' (k + 1) (32 - k) := by
      rw [← List.range'_append_1, hk, List.range'_succ]

/-- The lowest bucket that the bitmap names is the first whose count is checked (R174). -/
theorem loadBuckets_overrun (h1 : 1 ≤ k) (hbit : bitmap.getLsbD (k - 1) = true)
    (hlowest : ∀ j, j < k - 1 → bitmap.getLsbD j = false) (h : w.s.Sees w.ip [bitmap, size])
    (hcap : bucketCap w.s.params < size.toNat) :
    loadBuckets w = .error ⟨.bucketOverrun, size.toNat, w.s.tick + 2⟩ := by
  have hk : k - 1 < 32 := BitVec.lt_of_getLsbD hbit
  obtain ⟨hbitmap, hsize⟩ := sees_cons h
  have hover := loadBucket_overrun (w := (w.took 1).clearSizes) hbit (hsize.congr rfl rfl) hcap
  have hidle : ∀ j ∈ List.range' 1 (k - 1), loadBucket bitmap j (w.took 1).clearSizes =
      .ok (w.took 1).clearSizes := fun j hj => by
    have := List.mem_range'_1.1 hj
    exact loadBucket_unnamed (hlowest _ (by omega)) _
  rw [loadBuckets_eq hbitmap, bucketNumbers_split h1 (by omega), forEach_append_of_idle hidle,
    forEach_cons, hover, error_bind]
  rfl

end

/-! ### Reading over a meta section -/

section
variable {p : Params} {size bitmap : Word} {us ws bytes : List Word}

theorem readsOver_loadWord (i : Nat) (hus : us.length = 1) : ReadsOver p (loadWord i) us := by
  obtain ⟨x, rfl⟩ := List.length_eq_one_iff.1 hus
  refine ((readsOver_took [x]).then_onScratch fun sc =>
    { sc with bb := sc.bb.write (4 * i) (bytesOfWord x) }).congr fun w _ hsees => ?_
  rw [loadWord, takeSrc1_of_sees hsees]
  rfl

theorem readsOver_loadGroup {k : Nat} (g : Nat) (hus : us.length = k) : ReadsOver p (loadGroup k g) us := by
  subst hus
  refine ((readsOver_took us).then_onScratch fun sc =>
    { sc with bk := sc.bk.write (bkIndex us.length (32 * g)) (unpack32 us us.length) }).congr
      fun w _ hsees => ?_
  rw [loadGroup, takeSrc_of_sees hsees]
  rfl

/-- A byte buffer within `BYTEBUF_CAP` is read over, whatever its words (R172, R173). -/
theorem readsOver_loadBytes (hlen : bytes.length = ceilDiv size.toNat 4)
    (hcap : 4 * bytes.length ≤ byteBufCap p) : ReadsOver p loadBytes (size :: bytes) := by
  have hloop := readsOver_forEach_range (p := p) (fun i _ => readsOver_loadWord i)
    (hlen.trans (Nat.one_mul _).symm)
  refine (hloop.then_onScratch fun sc =>
    { sc with bblen := some size.toNat, bbpos := some 0 }).after_takeSrc1 fun w hp hsees => ?_
  rw [hlen, ← hp] at hcap
  rw [loadBytes_eq hsees, check_of hcap, ok_bind]

/-- A bucket within `BUCKET_CAP` is read over, whatever its words; one that the bitmap does not name has
none (R174). -/
theorem readsOver_loadBucket {k : Nat} (hfit : bitmap.getLsbD (k - 1) = true →
      size.toNat ≤ bucketCap p ∧ ws.length = k * ceilDiv size.toNat 32) :
    ReadsOver p (loadBucket bitmap k) (if bitmap.getLsbD (k - 1) then size :: ws else []) := by
  cases hbit : bitmap.getLsbD (k - 1) with
  | false => exact readsOver_nil.congr fun w _ _ => loadBucket_unnamed hbit w
  | true =>
    obtain ⟨hcap, hlen⟩ := hfit hbit
    have hloop := readsOver_forEach_range (p := p) (fun g _ => readsOver_loadGroup g) hlen
    refine (hloop.after_onScratch fun sc =>
      { sc with bsize := sc.bsize.write k [size.toNat] }).after_takeSrc1 fun w hp hsees => ?_
    rw [← hp] at hcap
    rw [loadBucket_named hbit hsees, check_of hcap, ok_bind]

/-- The words of the buckets that the bitmap names, in ascending order (R85, R90). -/
def bucketWords (bitmap : Word) (cnt : Nat → Word) (ws : Nat → List Word) : List Word :=
  bucketNumbers.flatMap fun k => if bitmap.getLsbD (k - 1) then cnt k :: ws k else []

/-- Buckets within `BUCKET_CAP` are read over (R174). -/
theorem readsOver_loadBuckets {cnt : Nat → Word} {ws : Nat → List Word}
    (hfit : ∀ k, 1 ≤ k → k ≤ 32 → bitmap.getLsbD (k - 1) = true →
      (cnt k).toNat ≤ bucketCap p ∧ (ws k).length = k * ceilDiv (cnt k).toNat 32) :
    ReadsOver p loadBuckets (bitmap :: bucketWords bitmap cnt ws) := by
  have hloop : ReadsOver p (forEach (loadBucket bitmap) bucketNumbers) (bucketWords bitmap cnt ws) :=
    readsOver_forEach fun k hk => readsOver_loadBucket fun hbit => by
      rw [bucketNumbers_eq_range'] at hk
      have := List.mem_range'_1.1 hk
      exact hfit k (by omega) (by omega) hbit
  exact (hloop.after_onScratch _).after_takeSrc1 fun w _ hsees => loadBuckets_eq hsees

end

/-! ### Commands that raise past their start -/

section
variable {s : State} {ip op : Word}

/-- A command that raises past its start leaves what R251(d) says. -/
theorem runCommand_lateFault {body : State → Except Trap State} {c : Cause} {info : Word} {k : Nat}
    (hs : s.ready ip op) (hc : causeIsEarly c = false) (hbody : body s = .error ⟨c, info.toNat, k⟩) :
    ∃ t, runCommand s body = .next t ∧ s.LateFault t op.toNat (causeCode c) info := by
  obtain ⟨hfault, _, hout⟩ := hs
  have hlate := takeFault_lateFault s (e := ⟨c, info.toNat, k⟩) hc
  rw [start_op_known s op hout, BitVec.ofNat_toNat, BitVec.setWidth_eq] at hlate
  exact ⟨_, runCommand_error hfault hbody, hlate⟩

/-- A command sees at its source cursor what the state holds there. -/
theorem start_sees (hin : s.inpos = .known ip) {d : Nat} {ws : List Word}
    (h : s.Sees (ip.toNat + d) ws) : s.start.s.Sees (s.start.ip + d) ws := by
  rw [start_ip_known s ip hin]
  exact h.congr rfl rfl

end

/-! ### Pages -/

/-- The working state at the meta section `m` words after the page's head. -/
def Work.atMeta (w : Work) (m : Word) : Work := ⟨w.s.draw 1, w.ip + m.toNat, w.op⟩

/-- Loading the meta section, decoding `n` values from index `lp` of `SRC` on, then moving to the end of
the meta section (R171, R175). -/
def decodeFromMeta (n lp : Nat) (w : Work) : Except Trap Work := do
  let w1 ← loadBytes w
  let w2 ← loadBuckets w1
  let w3 ← iter fpfDecodeBlock (n / 128) ({ w2 with ip := lp }.onScratch Scratch.clearDp)
  .ok { w3 with ip := w2.ip }

/-- The head word says where the meta section lies (R171). -/
theorem fpfDecodePage_eq {w : Work} {m : Word} (n : Nat) (h : w.s.Sees w.ip [m]) :
    fpfDecodePage n w = decodeFromMeta n (w.ip + 1) (w.atMeta m) := by
  rw [fpfDecodePage, readSrc1_of_sees h]
  rfl

/-- A page of no blocks is its head word and a meta section that is read over (R170, corner case). -/
theorem fpfDecodePage_noBlocks {w : Work} {n : Nat} {m : Word} {us vs : List Word} (hn : n < 128)
    (hbytes : ReadsOver w.s.params loadBytes us) (hbuckets : ReadsOver w.s.params loadBuckets vs)
    (hhead : w.s.Sees w.ip [m]) (hmeta : w.s.Sees (w.ip + m.toNat) (us ++ vs)) :
    ∃ w', fpfDecodePage n w = .ok w' ∧ w.Wrote w' w.op [] ∧
      w'.ip = w.ip + (m.toNat + (us ++ vs).length) ∧ w'.op = w.op := by
  obtain ⟨w2, h2, hw2, hip2, hop2⟩ := hbytes.append hbuckets (w.atMeta m) rfl (hmeta.congr rfl rfl)
  obtain ⟨w1, h1, h2⟩ := bind_eq_ok.1 h2
  have hwrote : w.Wrote w2 w.op [] := Work.Wrote.after_quiet (.quiet (by rfl) w.op) hw2
  refine ⟨w2.onScratch Scratch.clearDp, ?_, hwrote.onScratch _, hip2.trans (Nat.add_assoc ..), hop2⟩
  rw [fpfDecodePage_eq n hhead, decodeFromMeta, h1, ok_bind, h2, ok_bind, Nat.div_eq_of_lt hn, iter_zero,
    ok_bind]
  rfl

section
variable {s : State} {ip op m : Word}

/-- `FPF.DECPAGE` of no blocks ends after a meta section that is read over, having written nothing. -/
theorem fpfDecpage_noBlocks {us vs : List Word} (hs : s.ready ip op) (hsize : s.thissize.toNat < 128)
    (hbytes : ReadsOver s.params loadBytes us) (hbuckets : ReadsOver s.params loadBuckets vs)
    (hhead : s.Sees ip.toNat [m]) (hmeta : s.Sees (ip.toNat + m.toNat) (us ++ vs)) :
    ∃ t, exec .fpfDecpage s = .next t ∧
      s.Completes t ip.toNat op.toNat (m.toNat + (us ++ vs).length) [] := by
  obtain ⟨hfault, hin, hout⟩ := hs
  have hpage : s.thissize.toNat ≤ pageSize s.params := by unfold pageSize; omega
  obtain ⟨w, hw, hwrote, hip, hop⟩ := fpfDecodePage_noBlocks (w := s.start) hsize hbytes hbuckets
    (start_sees (d := 0) hin hhead) (start_sees hin hmeta)
  rw [start_op_known s op hout] at hwrote hop
  rw [start_ip_known s ip hin] at hip
  rw [exec_eq_runCommand (by simp)]
  refine ⟨w.commit, runCommand_ok hfault ?_, completes_commit hwrote hip hop⟩
  rw [commandBody, pageBody, checkThissize_ok hpage, ok_bind, hw, ok_bind]

/-- `FPF.DECPAGE` takes the fault that its page's meta section raises. -/
theorem fpfDecpage_lateFault {info : Word} {c : Cause} {k : Nat} (hs : s.ready ip op)
    (hsize : s.thissize.toNat ≤ pageSize s.params) (hhead : s.Sees ip.toNat [m])
    (hc : causeIsEarly c = false)
    (hmeta : ∀ n lp, decodeFromMeta n lp (s.start.atMeta m) = .error ⟨c, info.toNat, k⟩) :
    ∃ t, exec .fpfDecpage s = .next t ∧ s.LateFault t op.toNat (causeCode c) info := by
  have ⟨_, hin, _⟩ := hs
  rw [exec_eq_runCommand (by simp)]
  refine runCommand_lateFault hs hc (k := k) ?_
  rw [commandBody, pageBody, checkThissize_ok hsize, ok_bind,
    fpfDecodePage_eq _ (start_sees (d := 0) hin hhead), hmeta, error_bind]

/-- The byte count of a page above `BYTEBUF_CAP` (R172). -/
theorem fpfDecpage_bytebufOverrun {size : Word} (hs : s.ready ip op)
    (hpage : s.thissize.toNat ≤ pageSize s.params) (hhead : s.Sees ip.toNat [m])
    (hmeta : s.Sees (ip.toNat + m.toNat) [size]) (hcap : byteBufCap s.params < 4 * ceilDiv size.toNat 4) :
    ∃ t, exec .fpfDecpage s = .next t ∧ s.LateFault t op.toNat 8 size := by
  have ⟨_, hin, _⟩ := hs
  have hsees := start_sees hin hmeta
  have hover := loadBytes_overrun (w := s.start.atMeta m) (hsees.congr rfl rfl) hcap
  exact fpfDecpage_lateFault hs hpage hhead rfl fun n lp => by rw [decodeFromMeta, hover, error_bind]

/-- The count of the lowest bucket of a page above `BUCKET_CAP`, behind an empty byte buffer (R174). -/
theorem fpfDecpage_bucketOverrun {bitmap size : Word} {k : Nat} (hs : s.ready ip op)
    (hpage : s.thissize.toNat ≤ pageSize s.params) (hhead : s.Sees ip.toNat [m]) (h1 : 1 ≤ k)
    (hbit : bitmap.getLsbD (k - 1) = true) (hlowest : ∀ j, j < k - 1 → bitmap.getLsbD j = false)
    (hmeta : s.Sees (ip.toNat + m.toNat) ([0] ++ [bitmap, size]))
    (hcap : bucketCap s.params < size.toNat) :
    ∃ t, exec .fpfDecpage s = .next t ∧ s.LateFault t op.toNat 9 size := by
  have ⟨_, hin, _⟩ := hs
  obtain ⟨hbytes, hbuckets⟩ := sees_append.1 (start_sees hin hmeta)
  obtain ⟨w1, hload, hw1, hip1, _⟩ := readsOver_loadBytes (p := s.params) (bytes := []) (size := 0) rfl
    (Nat.zero_le _) (s.start.atMeta m) rfl (hbytes.congr rfl rfl)
  have hsees : w1.s.Sees w1.ip [bitmap, size] := by
    rw [hip1]
    exact hw1.sees (hbuckets.congr rfl rfl)
  have hover := loadBuckets_overrun h1 hbit hlowest hsees (by rwa [hw1.params])
  exact fpfDecpage_lateFault hs hpage hhead rfl fun n lp => by
    rw [decodeFromMeta, hload, ok_bind, hover, error_bind]

end

/-- Settles O43: both loaders read over their words, and no block is decoded. -/
theorem fpfDecpageOfNoBlocks : Obligations.FpfDecpageOfNoBlocks := by
  intro s ip op m size bitmap bytes cnt ws hs hsize hlen hcap hfit section_ hm hsec hbound
  have hpos : 0 < section_.length := Nat.succ_pos _
  exact fpfDecpage_noBlocks hs hsize (readsOver_loadBytes hlen hcap) (readsOver_loadBuckets hfit)
    (sees_singleton.2 ⟨hm, by omega⟩) ⟨hsec, hbound⟩

/-- Settles O44, by the check of each loader and its way out of the command. -/
theorem fpfMetaCapacityChecks : Obligations.FpfMetaCapacityChecks := by
  refine ⟨fun w size hlt hsize hcap => ?_,
    fun w bitmap size k => ⟨fun hbit => ?_, fun hbit hlt hsize hcap => ?_⟩,
    fun s ip op m size hs hpage hlt hm => ⟨fun hlt' hsize hcap => ?_,
      fun bitmap k h1 hbit hlowest hbound hzero hbitmap hsize hcap => ?_⟩⟩
  · exact ⟨_, loadBytes_overrun (sees_singleton.2 ⟨hsize, hlt⟩) hcap, rfl, rfl⟩
  · exact loadBucket_unnamed hbit w
  · exact ⟨_, loadBucket_overrun hbit (sees_singleton.2 ⟨hsize, hlt⟩) hcap, rfl, rfl⟩
  · exact fpfDecpage_bytebufOverrun hs hpage (sees_singleton.2 ⟨hm, hlt⟩)
      (sees_singleton.2 ⟨hsize, hlt'⟩) hcap
  · refine fpfDecpage_bucketOverrun hs hpage (sees_singleton.2 ⟨hm, hlt⟩) h1 hbit hlowest
      ⟨?_, hbound⟩ hcap
    simp only [List.cons_append, List.nil_append, holds_cons, holds_nil, and_true]
    exact ⟨hzero, hbitmap, hsize⟩

end Sys2Proof.Machine
end

section
/-! PROOFS. The count word of a stream, on both decompressors (43_fastpfor_decode.md R180; 44_optpfd.md
R225). -/

namespace Sys2Proof.Machine

section
variable {page : Nat → Work → Except Trap Work} {size : Nat} {s : State} {ip op n : Word}

/-- A decompressor whose count word lies past the end of `SRC`. -/
theorem uncompressBody_srcBounds (hs : s.ready ip op) (hinlen : s.inlen.toNat ≠ 0)
    (hsrc : s.params.srcLen.toNat ≤ ip.toNat) :
    ∃ t, runCommand s (uncompressBody page size) = .next t ∧ s.LateFault t op.toNat 2 ip := by
  have ⟨_, hin, _⟩ := hs
  have hip := start_ip_known s ip hin
  have htake : s.start.takeSrc1 = .error ⟨.srcBounds, ip.toNat, s.start.s.tick⟩ :=
    takeSrc1_eq_error.2 ⟨by rw [hip, start_params]; omega, by rw [hip]⟩
  refine runCommand_lateFault hs (c := .srcBounds) (k := s.start.s.tick) rfl ?_
  rw [uncompressBody, if_neg hinlen, htake, error_bind]

/-- Past its count word a decompressor checks the count, then decodes the pages (R180). -/
theorem uncompressBody_eq (hs : s.ready ip op) (hinlen : s.inlen.toNat ≠ 0) (hn : s.Sees ip.toNat [n]) :
    uncompressBody page size s =
      ((s.start.took 1).check (decide (n.toNat % 128 = 0)) .badCount n.toNat >>= fun _ =>
        forPages page size n.toNat (s.start.took 1) >>= fun w => .ok w.commit) := by
  have ⟨_, hin, _⟩ := hs
  rw [uncompressBody, if_neg hinlen, takeSrc1_of_sees (start_sees (d := 0) hin hn)]
  rfl

/-- A count that is no multiple of 128. -/
theorem uncompressBody_badCount (hs : s.ready ip op) (hinlen : s.inlen.toNat ≠ 0)
    (hn : s.Sees ip.toNat [n]) (hcount : n.toNat % 128 ≠ 0) :
    ∃ t, runCommand s (uncompressBody page size) = .next t ∧ s.LateFault t op.toNat 10 n := by
  refine runCommand_lateFault hs (c := .badCount) (k := s.start.s.tick + 1) rfl ?_
  rw [uncompressBody_eq hs hinlen hn, check_of_not hcount, error_bind]
  rfl

theorem forPages_zero (hsize : 0 < size) (w : Work) : forPages page size 0 w = .ok w := by
  rw [forPages, ceilDiv_zero hsize, pageRounds]

/-- A count of 0 is the whole stream, wherever the output cursor stands. -/
theorem uncompressBody_zero (hsize : 0 < size) (hs : s.ready ip op) (hinlen : s.inlen.toNat ≠ 0)
    (hn : s.Sees ip.toNat [0]) :
    ∃ t, runCommand s (uncompressBody page size) = .next t ∧ s.Completes t ip.toNat op.toNat 1 [] := by
  have hbody := uncompressBody_eq (page := page) (size := size) hs hinlen hn
  obtain ⟨hfault, hin, hout⟩ := hs
  rw [check_of (by decide), ok_bind] at hbody
  refine ⟨_, runCommand_ok hfault (hbody.trans ?_), completes_commit (w := s.start.took 1)
    ((Work.Wrote.refl _ _).took 1) ?_ ?_⟩
  · exact congrArg (· >>= _) (forPages_zero hsize _)
  · rw [took_ip, start_ip_known s ip hin]
  · rw [took_op, start_op_known s op hout]
    rfl

/-- The two decompressors share one body. -/
theorem exec_uncompress {i : Instr} (hi : i = .fpfUncompress ∨ i = .opdUncompress) (s : State) :
    ∃ page size, 0 < size ∧ exec i s = runCommand s (uncompressBody page size) := by
  rcases hi with rfl | rfl
  · exact ⟨fpfDecodePage, pageSize s.params, Nat.mul_pos (by decide) (Nat.succ_pos _), rfl⟩
  · exact ⟨opdDecodePage Config.s16, Config.opdPageSize, by decide, rfl⟩

end

/-- Settles O42, by the three ends of the count word on the one body of the two commands. -/
theorem uncompressChecksTheCountWord : Obligations.UncompressChecksTheCountWord := by
  intro s ip op n hs hinlen i hi
  obtain ⟨page, size, hsize, hexec⟩ := exec_uncompress hi s
  rw [hexec]
  refine ⟨uncompressBody_srcBounds hs hinlen, fun hlt hn hcount => ?_, fun hlt hn hzero => ?_⟩
  · exact uncompressBody_badCount hs hinlen (sees_singleton.2 ⟨hn, hlt⟩) hcount
  · exact uncompressBody_zero hsize hs hinlen (sees_singleton.2 ⟨hzero ▸ hn, hlt⟩)

end Sys2Proof.Machine
end

section
/-! PROOFS. The checks on a FastPFOR block's bytes, in order, and the multiplex step
(43_fastpfor_decode.md R176, R177, R179; 60_exceptions.md R256). -/

namespace Sys2Proof.Machine

/-! ### The next byte -/

/-- The working state with the byte buffer's read position at `p`. -/
def Work.seekByte (w : Work) (p : Nat) : Work := w.onScratch fun sc => { sc with bbpos := some p }

theorem seekByte_seekByte (w : Work) (p q : Nat) : (w.seekByte p).seekByte q = w.seekByte q := rfl

section
variable {w : Work} {p n : Nat} {y : Byte}

/-- Past the last byte (R179). -/
theorem bbGet_overrun (hpos : w.s.scratch.bbpos = some p) (hlen : w.s.scratch.bblen = some n) (h : n ≤ p) :
    bbGet w = .error ⟨.bytebufOverrun, p, w.s.tick⟩ := by
  have hp : w.s.scratch.bbPos = p := by rw [Scratch.bbPos, hpos, Option.getD_some]
  have hn : w.s.scratch.bbLen = n := by rw [Scratch.bbLen, hlen, Option.getD_some]
  exact bbGet_eq_error.2 ⟨by omega, by rw [hp]⟩

/-- A specified byte is read, and the position advances (R179). -/
theorem bbGet_seekByte (hpos : w.s.scratch.bbpos = some p) (hlen : w.s.scratch.bblen = some n) (h : p < n)
    (hy : w.s.scratch.bb.get? p = some y) : bbGet w = .ok (y, w.seekByte (p + 1)) :=
  bbGet_ok hpos hlen h hy

/-- Before the end some byte is read, specified or not, and the position advances (R179). -/
theorem bbGet_advances (hpos : w.s.scratch.bbpos = some p) (hlen : w.s.scratch.bblen = some n) (h : p < n) :
    ∃ y, bbGet w = .ok (y, w.seekByte (p + 1)) := by
  have hp : w.s.scratch.bbPos = p := by rw [Scratch.bbPos, hpos, Option.getD_some]
  have hn : w.s.scratch.bbLen = n := by rw [Scratch.bbLen, hlen, Option.getD_some]
  refine ⟨w.s.scratch.bbAt w.s.scratch.bbPos, bbGet_eq_ok.2 ⟨by omega, ?_⟩⟩
  rw [Work.seekByte, Work.onScratch, Work.onScratch, hp]

end

/-! ### The first two bytes of a block -/

section
variable {w : Work} {p n : Nat} {b c : Byte}

/-- Past its first two bytes a block checks its width, then its count of exceptions (R176). -/
theorem fpfDecodeBlock_eq (hpos : w.s.scratch.bbpos = some p) (hlen : w.s.scratch.bblen = some n)
    (h : p + 2 ≤ n) (hb : w.s.scratch.bb.get? p = some b) (hc : w.s.scratch.bb.get? (p + 1) = some c) :
    fpfDecodeBlock w =
      ((w.seekByte (p + 2)).check (decide (b.toNat ≤ 32)) .badWidth b.toNat >>= fun _ =>
        (w.seekByte (p + 2)).check (decide (c.toNat ≤ 128)) .badExceptCount c.toNat >>= fun _ =>
        unpackBlock b.toNat (w.seekByte (p + 2)) >>= fun w1 =>
        mergeExceptions b.toNat c.toNat w1 >>= fun w2 => .ok { w2 with op := w2.op + 128 }) := by
  have hget1 := bbGet_seekByte hpos hlen (by omega) hb
  have hget2 := bbGet_seekByte (w := w.seekByte (p + 1)) rfl hlen (by omega) hc
  simp only [fpfDecodeBlock, hget1, ok_bind, hget2, seekByte_seekByte]

end

/-- Settles O39, check by check. -/
theorem fpfBlockHeaderChecks : Obligations.FpfBlockHeaderChecks := by
  refine fun w p n b c hpos hlen => ⟨fun h => ?_, fun h => ?_, fun h hb hc => ⟨fun hwidth => ?_,
    fun hwidth hcount => ?_⟩⟩
  · exact ⟨_, by rw [fpfDecodeBlock, bbGet_overrun hpos hlen h, error_bind], rfl, rfl⟩
  · obtain ⟨y, hget⟩ := bbGet_advances hpos hlen (by omega)
    have hover := bbGet_overrun (w := w.seekByte (p + 1)) rfl hlen h.le
    have hfault : fpfDecodeBlock w = .error ⟨.bytebufOverrun, p + 1, (w.seekByte (p + 1)).s.tick⟩ := by
      simp only [fpfDecodeBlock, hget, ok_bind, hover, error_bind]
    exact ⟨_, hfault, rfl, rfl⟩
  · exact ⟨_, by rw [fpfDecodeBlock_eq hpos hlen h hb hc, check_of_not (not_le.2 hwidth), error_bind],
      rfl, rfl⟩
  · exact ⟨_, by rw [fpfDecodeBlock_eq hpos hlen h hb hc, check_of hwidth, ok_bind,
      check_of_not (not_le.2 hcount), error_bind], rfl, rfl⟩

/-! ### The `maxb` byte of a block -/

section
variable {w : Work} {b c p n : Nat}

/-- With exceptions `maxb` is read and checked, then each exception is one multiplex step (R176). -/
theorem mergeExceptions_eq {m : Byte} (hc : 0 < c) (hpos : w.s.scratch.bbpos = some p)
    (hlen : w.s.scratch.bblen = some n) (h : p < n) (hm : w.s.scratch.bb.get? p = some m) :
    mergeExceptions b c w =
      ((w.seekByte (p + 1)).check (decide (b < m.toNat ∧ m.toNat ≤ 32)) .badMaxb m.toNat >>= fun _ =>
        iter (multiplex (m.toNat - b) b) c (w.seekByte (p + 1))) := by
  rw [mergeExceptions, if_pos hc, bbGet_seekByte hpos hlen h hm, ok_bind]

end

/-- Settles O40, check by check. -/
theorem fpfMaxbChecks : Obligations.FpfMaxbChecks := by
  refine fun w b c p n hpos hlen => ⟨fun hc => ?_, fun hc h => ?_, fun m hc h hm => ⟨fun hbad => ?_,
    fun hlt hle => ?_⟩⟩
  · exact if_neg (Nat.not_lt.2 hc.le)
  · exact ⟨_, by rw [mergeExceptions, if_pos hc, bbGet_overrun hpos hlen h, error_bind], rfl, rfl⟩
  · exact ⟨_, by rw [mergeExceptions_eq hc hpos hlen h hm, check_of_not (by omega), error_bind], rfl, rfl⟩
  · rw [mergeExceptions_eq hc hpos hlen h hm, check_of ⟨hlt, hle⟩, ok_bind]
    rfl

/-! ### The multiplex step -/

section
variable {w : Work} {idx p n d k : Nat} {pos : Byte}

/-- The working state with the byte at `p` and entry `d` of bucket `idx` taken. -/
def Work.takeException (w : Work) (idx p d : Nat) : Work :=
  w.onScratch fun sc => { sc with bbpos := some (p + 1), dp := sc.dp.write idx [d + 1] }

/-- The OR into a word past the end of `DST` (R177). -/
theorem orDst_dstBounds {a : Nat} (x : Word) (h : w.s.params.dstLen.toNat ≤ a) :
    orDst a x w = .error ⟨.dstBounds, a, w.s.tick⟩ := by
  rw [orDst, readDst1_eq_error.2 ⟨by omega, rfl⟩, error_bind]

/-- The OR into a specified word of `DST` (R177). -/
theorem orDst_ok {a : Nat} {y : Word} (x : Word) (h : a < w.s.params.dstLen.toNat)
    (hy : w.s.dst.get? a = some y) :
    orDst a x w = .ok { w with s := { w.s.draw 1 with dst := w.s.dst.write a [y ||| x] } } :=
  orDst_eq_ok.2 ⟨h, by rw [hy]; rfl⟩

/-- Past its byte a multiplex step checks the position, then the bucket, then ORs the bucket's next entry
into its place (R177). -/
theorem multiplex_eq (hbbpos : w.s.scratch.bbpos = some p) (hlen : w.s.scratch.bblen = some n) (h : p < n)
    (hbyte : w.s.scratch.bb.get? p = some pos) (hd : w.s.scratch.dp.get? idx = some d)
    (hk : w.s.scratch.bsize.get? idx = some k) (b : Nat) :
    multiplex idx b w =
      ((w.seekByte (p + 1)).check (decide (pos.toNat < 128)) .badPosition pos.toNat >>= fun _ =>
        (w.seekByte (p + 1)).check (decide (d < k)) .bucketOverrun idx >>= fun _ =>
        orDst (w.op + pos.toNat) (shl32 (w.s.scratch.bkAt idx d) b) (w.takeException idx p d)) := by
  have hdp : (w.seekByte (p + 1)).s.scratch.dpAt idx = d := (congrArg (Option.getD · _) hd :)
  have hsize : (w.seekByte (p + 1)).s.scratch.bsizeAt idx = k := (congrArg (Option.getD · _) hk :)
  simp only [multiplex, bbGet_seekByte hbbpos hlen h hbyte, ok_bind, hdp, hsize]
  rfl

end

/-- Settles O41: three checks, then the OR of the bucket's next entry. -/
theorem multiplexTakesTheNextBucketValue : Obligations.MultiplexTakesTheNextBucketValue := by
  refine fun w idx b p n hbbpos hlen => ⟨fun h => ?_, fun pos d k h hbyte hd hk => ?_⟩
  · exact ⟨_, by rw [multiplex, bbGet_overrun hbbpos hlen h, error_bind], rfl, rfl⟩
  have hstep := multiplex_eq hbbpos hlen h hbyte hd hk b
  refine ⟨fun hpos => ?_, fun hpos hover => ?_, fun hpos hnext hbound => ?_,
    fun val x hpos hnext hroom hval hx => ?_⟩
  · exact ⟨_, by rw [hstep, check_of_not (not_lt.2 hpos), error_bind], rfl, rfl⟩
  · exact ⟨_, by rw [hstep, check_of hpos, ok_bind, check_of_not (not_lt.2 hover), error_bind], rfl, rfl⟩
  · have hor := orDst_dstBounds (w := w.takeException idx p d) (shl32 (w.s.scratch.bkAt idx d) b) hbound
    exact ⟨_, by rw [hstep, check_of hpos, ok_bind, check_of hnext, ok_bind]; exact hor, rfl, rfl⟩
  · have hentry : w.s.scratch.bkAt idx d = val := by rw [Scratch.bkAt, hval, Option.getD_some]
    have hor := orDst_ok (w := w.takeException idx p d) (shl32 val b) hroom hx
    rw [check_of hpos, ok_bind, check_of hnext, ok_bind, hentry, hor] at hstep
    refine ⟨_, hstep, rfl, rfl, rfl, ?_, fun j hj => ?_, ?_, fun i hi => ?_⟩
    · exact (get?_write_one _ idx _ idx).trans (if_pos rfl)
    · exact (get?_write_one _ idx _ j).trans (if_neg hj)
    · exact (get?_write_one _ _ _ _).trans (if_pos rfl)
    · exact get?_write_outside _ hi

end Sys2Proof.Machine
end

section
/-! PROOFS. The OptPFD selector takes the cheapest candidate, the smallest width index among equals
(44_optpfd.md R205 to R209; 90_conflicts.md C10). -/

namespace Sys2Proof.Machine

/-! ### What the walk chooses from -/

/-- What the walk chooses from: the baseline, which has index 16, and the candidates (R206). -/
def optChoosable (blk : List Word) (mb i : Nat) : Prop := i = 16 ∨ optCandidate blk mb i

/-- The cost of a choice: the baseline costs 128 words whatever the coder says (R206). -/
def optChoiceCost (S : S16) (blk : List Word) (i : Nat) : Nat :=
  if i = 16 then 128 else optCostOf S blk i

@[simp] theorem optChoiceCost_baseline (S : S16) (blk : List Word) : optChoiceCost S blk 16 = 128 :=
  if_pos rfl

theorem optChoiceCost_of_lt {S : S16} {blk : List Word} {i : Nat} (h : i < 16) :
    optChoiceCost S blk i = optCostOf S blk i := if_neg h.ne

/-- `best` is the cheapest choice among the indices from `n` on, the smallest among equals (R208). -/
structure OptBestFrom (S : S16) (blk : List Word) (mb n : Nat) (best : OptChoice) : Prop where
  choosable : optChoosable blk mb best.besti
  cost : best.cost = optChoiceCost S blk best.besti
  least : ∀ i, n ≤ i → optChoosable blk mb i →
    optChoiceCost S blk best.besti ≤ optChoiceCost S blk i ∧
      (optChoiceCost S blk i = optChoiceCost S blk best.besti → best.besti ≤ i)

section
variable {S : S16} {blk : List Word} {mb k : Nat} {best : OptChoice}

/-- Before the walk the baseline is the only choice (R206). -/
theorem optBestFrom_baseline (S : S16) (blk : List Word) (mb : Nat) :
    OptBestFrom S blk mb 16 ⟨16, 0, 128⟩ where
  choosable := .inl rfl
  cost := (optChoiceCost_baseline S blk).symm
  least := by
    rintro i hi (rfl | ⟨_, hle, _⟩)
    · exact ⟨le_rfl, fun _ => le_rfl⟩
    · omega

/-- An index with 128 exceptions is no candidate (R206). -/
theorem OptBestFrom.skip (h : OptBestFrom S blk mb (k + 1) best) (hk : k < 16)
    (hall : above blk (widthOf k) = 128) : OptBestFrom S blk mb k best where
  choosable := h.choosable
  cost := h.cost
  least i hi hchoice := by
    rcases hi.eq_or_lt with rfl | hlt
    · rcases hchoice with rfl | ⟨_, _, hfew⟩
      · exact absurd hk (lt_irrefl _)
      · exact absurd hall hfew
    · exact h.least i hlt hchoice

/-- A candidate that is at most as dear is the new best, since its index is smaller (R208). -/
theorem OptBestFrom.replace (h : OptBestFrom S blk mb (k + 1) best) (hk : optCandidate blk mb k)
    (c : Nat) (hless : optCostOf S blk k ≤ best.cost) :
    OptBestFrom S blk mb k ⟨k, c, optCostOf S blk k⟩ := by
  have hcost : optChoiceCost S blk k = optCostOf S blk k :=
    optChoiceCost_of_lt (Nat.lt_succ_of_le hk.2.1)
  refine ⟨.inr hk, hcost.symm, fun i hi hchoice => ⟨?_, fun _ => hi⟩⟩
  rcases hi.eq_or_lt with rfl | hlt
  · exact le_rfl
  · calc optChoiceCost S blk k = optCostOf S blk k := hcost
      _ ≤ best.cost := hless
      _ = optChoiceCost S blk best.besti := h.cost
      _ ≤ optChoiceCost S blk i := (h.least i hlt hchoice).1

/-- A dearer candidate leaves the best (R208). -/
theorem OptBestFrom.keep (h : OptBestFrom S blk mb (k + 1) best) (hk : k < 16)
    (hmore : ¬ optCostOf S blk k ≤ best.cost) : OptBestFrom S blk mb k best where
  choosable := h.choosable
  cost := h.cost
  least i hi hchoice := by
    rcases hi.eq_or_lt with rfl | hlt
    · rw [h.cost, ← optChoiceCost_of_lt hk] at hmore
      omega
    · exact h.least i hlt hchoice

end

/-! ### The walk -/

/-- The walk ends with the best of all choices (R206). -/
theorem opdWalk_best {S : S16} {blk : List Word} {mb : Nat} (steps : Nat) (best : OptChoice)
    (sc : Scratch) (hsteps : opdMini mb + steps ≤ 16)
    (h : OptBestFrom S blk mb (opdMini mb + steps) best) :
    OptBestFrom S blk mb (opdMini mb) (opdWalk S blk (opdMini mb) steps best sc).1 := by
  induction steps generalizing best sc with
  | zero => exact h
  | succ k ih =>
    have hk : opdMini mb + k < 16 := hsteps
    simp only [opdWalk, countHigh_eq_above, ebList_opdStage]
    split
    · next hall => exact ih _ _ (by omega) (h.skip hk hall)
    · next hfew =>
      split
      · next hless =>
        exact ih _ _ (by omega) (h.replace ⟨Nat.le_add_right _ _, Nat.le_of_lt_succ hk, hfew⟩ _ hless)
      · next hmore => exact ih _ _ (by omega) (h.keep hk hmore)

/-- The selector's index is the cheapest choice, the smallest among equals (R208). -/
theorem optSelected_best {S : S16} {blk : List Word} {besti n mb : Nat}
    (hsel : optSelected S blk = (besti, n, mb)) :
    optChoosable blk mb besti ∧ ∀ i, optChoosable blk mb i →
      optChoiceCost S blk besti ≤ optChoiceCost S blk i ∧
        (optChoiceCost S blk i = optChoiceCost S blk besti → besti ≤ i) := by
  have hmini := opdMini_le (maxBitlen_le blk)
  have hsteps : opdMini (maxBitlen blk) + (16 - opdMini (maxBitlen blk)) = 16 := by omega
  have hbest := opdWalk_best (S := S) _ ⟨16, 0, 128⟩ Scratch.unspecified hsteps.le
    (by rw [hsteps]; exact optBestFrom_baseline S blk (maxBitlen blk))
  cases hsel
  refine ⟨hbest.choosable, fun i hi => hbest.least i ?_ hi⟩
  rcases hi with rfl | ⟨hle, _⟩
  · omega
  · exact hle

/-- Settles O49: the walk keeps the best choice so far, and the baseline is one of the choices. -/
theorem opdSelectorIsOptimal : Obligations.OpdSelectorIsOptimal := by
  intro S sc blk besti n mb _ hsel
  rw [opdSelect_fst] at hsel
  obtain ⟨hchoice, hbest⟩ := optSelected_best hsel
  have hcost {i : Nat} (hi : optCandidate blk mb i) : optChoiceCost S blk i = optCostOf S blk i :=
    optChoiceCost_of_lt (Nat.lt_succ_of_le hi.2.1)
  rcases hchoice with rfl | hcand
  · refine .inl ⟨rfl, fun i hi => ?_⟩
    obtain ⟨hle, htie⟩ := hbest i (.inr hi)
    rw [optChoiceCost_baseline, hcost hi] at hle htie
    exact hle.lt_of_ne fun heq => absurd (htie heq.symm) (not_le.2 (Nat.lt_succ_of_le hi.2.1))
  · have hbase := (hbest 16 (.inl rfl)).1
    rw [optChoiceCost_baseline, hcost hcand] at hbase
    refine .inr ⟨hcand, hbase, fun i hi => ?_⟩
    rw [← hcost hcand, ← hcost hi]
    exact hbest i (.inr hi)

/-! ### Properties of the result -/

/-- The largest width of a block is the width of one of its values (R206). -/
theorem isMaxWidth_maxBitlen {blk : List Word} (hblk : blk ≠ []) : isMaxWidth blk (maxBitlen blk) := by
  refine ⟨fun v hv => bitlen_le_maxBitlen hv, ?_⟩
  induction blk with
  | nil => exact absurd rfl hblk
  | cons u blk ih =>
    have hcons : maxBitlen (u :: blk) = max (bitlen u) (maxBitlen blk) := rfl
    rcases le_total (maxBitlen blk) (bitlen u) with hle | hle
    · exact ⟨u, by simp, by rw [hcons, max_eq_left hle]⟩
    · rw [hcons, max_eq_right hle]
      by_cases hnil : blk = []
      · subst hnil
        exact ⟨u, by simp, Nat.le_zero.1 hle⟩
      · obtain ⟨v, hv, hmax⟩ := ih hnil
        exact ⟨v, by simp [hv], hmax⟩

/-- The walk asks the coder for estimates only (R209). -/
theorem opdWalk_congr {S S' : S16} (h : S'.estimate = S.estimate) (blk : List Word) (lo steps : Nat)
    (best : OptChoice) (sc : Scratch) :
    opdWalk S' blk lo steps best sc = opdWalk S blk lo steps best sc := by
  induction steps generalizing best sc with
  | zero => rfl
  | succ k ih => simp only [opdWalk, h, ih]

theorem optSelected_congr {S S' : S16} (h : S'.estimate = S.estimate) (blk : List Word) :
    optSelected S' blk = optSelected S blk := by
  simp only [optSelected, opdSelect, opdWalk_congr h]

theorem widthOf_zero : widthOf 0 = 0 := rfl

/-- With a coder that asks nothing for no exceptions, index 0 is free for a block of zeros (R209). -/
theorem optChoiceCost_zero {S : S16} {blk : List Word} (hS : S.Empty) (hnone : above blk 0 = 0) :
    optChoiceCost S blk 0 = 0 := by
  rw [optChoiceCost_of_lt (by decide), optCostOf, widthOf_zero, hnone, (hS _).1]

/-- A choice that costs nothing has index 0: every other width has low-bit words (R206). -/
theorem eq_zero_of_optChoiceCost_eq_zero {S : S16} {blk : List Word} {i : Nat} (hi : i ≤ 16)
    (h : optChoiceCost S blk i = 0) : i = 0 := by
  have hwidth := le_widthOf hi
  rw [optChoiceCost, optCostOf] at h
  split at h <;> omega

/-- A block of zeros is chosen width index 0 (R209). -/
theorem optSelected_zeros {S : S16} {blk : List Word} {besti n : Nat} (hS : S.Empty)
    (hsel : optSelected S blk = (besti, n, 0)) (hbesti : besti ≤ 16) (hnone : above blk 0 = 0) :
    besti = 0 := by
  have hcand : optCandidate blk 0 0 := ⟨le_rfl, Nat.zero_le _, by rw [widthOf_zero, hnone]; decide⟩
  have hle := ((optSelected_best hsel).2 0 (.inr hcand)).1
  rw [optChoiceCost_zero hS hnone] at hle
  exact eq_zero_of_optChoiceCost_eq_zero hbesti (Nat.le_zero.1 hle)

/-- Settles O48: the result fits its block, and the rest follows from the maximum width. -/
theorem opdSelectorProperties : Obligations.OpdSelectorProperties := by
  intro S sc blk besti n mb hlen hsel
  rw [opdSelect_fst] at hsel
  obtain ⟨hlower, hupper, hcount, hsmall⟩ := optSelected_fits S hlen
  have hmb : (optSelected S blk).2.2 = maxBitlen blk := rfl
  rw [hsel] at hlower hupper hcount hsmall hmb
  simp only at hlower hupper hcount hsmall hmb
  subst hmb
  have hmax : isMaxWidth blk (maxBitlen blk) := isMaxWidth_maxBitlen (by rintro rfl; simp at hlen)
  refine ⟨hupper, hsmall, hcount, fun htop => ?_, hlower.trans (le_widthOf hupper), fun hn => ?_, hmax,
    fun hS hzeros => ?_, fun S' sc' hS' => ?_⟩
  · rw [hcount, htop]
    exact above_eq_zero fun v _ => bitlen_le_32 v
  · exact hmax.above_eq_zero_iff.1 (hcount.symm.trans hn)
  · have hmb := hmax.eq_zero_iff.2 hzeros
    have hnone : above blk 0 = 0 := hmax.above_eq_zero_iff.2 hmb.le
    rw [hmb] at hsel
    have hbesti := optSelected_zeros hS hsel hupper hnone
    exact ⟨hbesti, by rw [hcount, hbesti]; exact hnone, hmb⟩
  · rw [opdSelect_fst, optSelected_congr hS', hsel]

/-- Settles O47, by the two ends of a `SELECT`. -/
theorem opdSelectMeetsItsRule : Obligations.OpdSelectMeetsItsRule := by
  intro s ip op hs
  rw [exec_eq_runCommand (by simp)]
  exact ⟨selectBody_completes (opdSelect_fst Config.s16) hs, selectBody_srcBounds hs⟩

end Sys2Proof.Machine
end

section
/-! PROOFS. The OptPFD page decoder on the records of a coder and on records without exceptions, and the
page loop over records (44_optpfd.md R220 to R226). -/

namespace Sys2Proof.Machine

/-! ### Records of a coder -/

/-- A page is as many records as it has whole blocks (R220). -/
theorem opdDecodePage_congr (S : S16) {m n : Nat} (h : m / 128 = n / 128) :
    opdDecodePage S m = opdDecodePage S n := by
  funext w
  rw [opdDecodePage, h, opdDecodePage]

/-- Settles O54: the records of a page are decoded one after the other to its blocks. -/
theorem opdDecpageReversesTheRecords : Obligations.OpdDecpageReversesTheRecords := by
  refine ⟨fun s => rfl, fun S hS hSlen s ip op vs hs hsize hvs hsrc hbound hroom => ?_⟩
  have hpage := decodesTo_opdDecodePage s.params hS hSlen (vs := vs) (by omega)
  rw [opdDecodePage_congr S (show vs.length / 128 = s.thissize.toNat / 128 by omega)] at hpage
  exact page_completes (limit := Config.opdPageSize) hpage hs hsize ⟨hsrc, hbound⟩ hroom

/-! ### Records without exceptions -/

/-- Words `b * g .. b * g + b - 1` of a list, 0 where it has none: the words of group `g` at width `b`, of
the length `b` that `unpackBlock` takes for every `g`. -/
def groupWords (b : Nat) (ws : List Word) (g : Nat) : List Word :=
  (List.range b).map fun i => ws.getD (b * g + i) 0

@[simp] theorem length_groupWords (b : Nat) (ws : List Word) (g : Nat) :
    (groupWords b ws g).length = b := by simp [groupWords]

/-- A group that lies in the list is a piece of it. -/
theorem groupWords_eq_take_drop {b g : Nat} {ws : List Word} (h : b * (g + 1) ≤ ws.length) :
    groupWords b ws g = (ws.drop (b * g)).take b := by
  rw [Nat.mul_succ] at h
  refine List.ext_getElem (by simp; omega) fun i h1 _ => ?_
  have hi : b * g + i < ws.length := by simp at h1; omega
  simp [groupWords, hi]

/-- The groups of a list make the list. -/
theorem flatMap_groupWords {b n : Nat} {ws : List Word} (h : ws.length = b * n) :
    (List.range n).flatMap (groupWords b ws) = ws := by
  unfold groupWords
  rw [flatMap_range_pieces (fun i => ws.getD i 0)]
  exact (map_range_getD id ws 0 h).trans (List.map_id ws)

theorem length_plainValues (r : Nat × List Word) : (plainValues r).length = 128 :=
  (length_flatMap_const _ fun _ _ => unpack32_length _ _).trans rfl

/-- Unpacking the four groups of a record without exceptions gives its values (R221). -/
theorem unpackBlock_plain {w : Work} {r : Nat × List Word} (hr : plainOk r) (hsees : w.s.Sees w.ip r.2)
    (hroom : w.op + 128 ≤ w.s.params.dstLen.toNat) :
    ∃ w', unpackBlock (widthOf r.1) w = .ok w' ∧ w.Wrote w' w.op (plainValues r) ∧
      w'.ip = w.ip + r.2.length ∧ w'.op = w.op := by
  obtain ⟨_, hlen⟩ := hr
  have hwords : (List.range 4).flatMap (groupWords (widthOf r.1) r.2) = r.2 :=
    flatMap_groupWords (by omega)
  have hvalues : (List.range 4).flatMap (fun g =>
      unpack32 (groupWords (widthOf r.1) r.2 g) (widthOf r.1)) = plainValues r := by
    refine List.flatMap_congr fun g hg => ?_
    have hlast : widthOf r.1 * (g + 1) ≤ r.2.length := by
      rw [hlen, Nat.mul_comm 4]
      exact Nat.mul_le_mul_left _ (List.mem_range.1 hg)
    rw [groupWords_eq_take_drop hlast]
  obtain ⟨w', hw', hwrote, hip, hop, _⟩ := unpackBlock_ok (length_groupWords (widthOf r.1) r.2)
    (hwords.symm ▸ hsees) hroom
  rw [hvalues] at hwrote
  exact ⟨w', hw', hwrote, by rw [hip, hlen], hop⟩

/-- A record without exceptions is decoded to its unpacked groups, whatever the coder (R221). -/
theorem decodesTo_plainRecord (p : Params) (S : S16) {r : Nat × List Word} (hr : plainOk r) :
    DecodesTo p (opdDecodeBlock S) (plainRecord r) (plainValues r) := by
  rintro w rfl hsees hroom
  rw [length_plainValues] at hroom ⊢
  obtain ⟨hhead, hlows⟩ := sees_cons hsees
  obtain ⟨w1, h1, hw1, hip1, hop1⟩ := unpackBlock_plain hr (w := w.took 1) (hlows.took 1) hroom
  have hwidth : ¬ 16 < r.1 := not_lt.2 hr.1
  have hcheck : (w.took 1).check (headerOk r.1 0 0) .badOptHeader (opdHeader r.1 0 0).toNat = .ok () :=
    check_eq_ok.2 (by simp [headerOk, hwidth])
  have hpayload : loadPayload S 0 0 (w.took 1) = .ok (w.took 1) := rfl
  refine ⟨{ w1 with op := w1.op + 128 }, ?_, ?_, ?_, ?_⟩
  · simp only [opdDecodeBlock, takeSrc1_of_sees hhead, ok_bind,
      headerFields_opdHeader (show r.1 < 256 by omega) (show 0 < 256 by decide)
        (show 0 < 65536 by decide)]
    rw [hcheck, ok_bind, hpayload, ok_bind, h1, ok_bind, List.range_zero, forEach_nil, ok_bind]
  · exact (((Work.Wrote.refl w w.op).took 1).after_quiet hw1).then_quiet rfl
  · show w1.ip = _
    rw [hip1, took_ip, plainRecord, List.length_cons]
    omega
  · show w1.op + 128 = _
    rw [hop1, took_op]

/-- One round for each record decodes the records. -/
theorem decodesTo_iter_flatMap {p : Params} {β : Type} {body : Work → Except Trap Work}
    {image values : β → List Word} {rs : List β}
    (h : ∀ r ∈ rs, DecodesTo p body (image r) (values r)) :
    DecodesTo p (iter body rs.length) (rs.flatMap image) (rs.flatMap values) := by
  induction rs with
  | nil => exact decodesTo_nil
  | cons r rs ih =>
    rw [List.flatMap_cons, List.flatMap_cons]
    exact (h r (by simp)).append (ih fun x hx => h x (by simp [hx]))

/-- Records without exceptions are decoded one after the other (R220). -/
theorem decodesTo_plainRecords (p : Params) (S : S16) {rs : List (Nat × List Word)}
    (hrs : ∀ r ∈ rs, plainOk r) :
    DecodesTo p (iter (opdDecodeBlock S) rs.length) (rs.flatMap plainRecord) (rs.flatMap plainValues) :=
  decodesTo_iter_flatMap fun r hr => decodesTo_plainRecord p S (hrs r hr)

theorem length_flatMap_plainValues (rs : List (Nat × List Word)) :
    (rs.flatMap plainValues).length = 128 * rs.length := by
  rw [length_flatMap_const _ fun r _ => length_plainValues r, Nat.mul_comm]

/-- Settles O53: a page procedure is one round for each record. -/
theorem opdDecpageOfPlainRecords : Obligations.OpdDecpageOfPlainRecords := by
  intro s ip op rs hs hsize hlen hrs hsrc hbound hroom
  have hpage : DecodesTo s.params (opdDecodePage Config.s16 s.thissize.toNat) _ _ :=
    hlen ▸ decodesTo_plainRecords s.params Config.s16 hrs
  exact page_completes (limit := Config.opdPageSize) hpage hs hsize ⟨hsrc, hbound⟩
    (by rwa [length_flatMap_plainValues])

/-! ### The page loop over records -/

theorem iter_add (body : Work → Except Trap Work) (m n : Nat) (w : Work) :
    iter body (m + n) w = (iter body m w >>= iter body n) := by
  induction m generalizing w with
  | zero => rw [Nat.zero_add, iter_zero, ok_bind]
  | succ m ih =>
    rw [Nat.succ_add, iter_succ, iter_succ]
    cases body w with
    | error e => rfl
    | ok v => exact ih v

/-- Where a page procedure is one round for each block, so is the page loop (R81, R220, R225). -/
theorem forPages_iter (body : Work → Except Trap Work) {size n : Nat} (hsize : 0 < size)
    (h128 : size % 128 = 0) (hn : n % 128 = 0) (w : Work) :
    forPages (fun m => iter body (m / 128)) size n w = iter body (n / 128) w := by
  unfold forPages
  generalize hrounds : ceilDiv n size = rounds
  induction rounds generalizing n w with
  | zero =>
    have hle := le_mul_ceilDiv n hsize
    obtain rfl : n = 0 := by simpa [hrounds] using hle
    rfl
  | succ k ih =>
    have hpos : 0 < n := by
      by_contra h0
      rw [show n = 0 by omega, ceilDiv_zero hsize] at hrounds
      omega
    rw [ceilDiv_eq_succ hsize hpos] at hrounds
    have hsplit : n / 128 = min size n / 128 + (n - min size n) / 128 := by omega
    rw [hsplit, iter_add, pageRounds]
    refine congrArg (iter body (min size n / 128) w >>= ·) (funext fun v => ?_)
    exact ih (by omega) v (by rw [show n - min size n = n - size by omega]; omega)

/-- Settles O55: the page loop is one round for each record of the stream. -/
theorem opdUncompressOfPlainRecords : Obligations.OpdUncompressOfPlainRecords := by
  intro s ip op rs hs hinlen hlt hrs hsrc hbound hroom
  have hlen := length_flatMap_plainValues rs
  have h128 : (rs.flatMap plainValues).length % 128 = 0 := by omega
  have hloop : forPages (opdDecodePage Config.s16) Config.opdPageSize (rs.flatMap plainValues).length =
      iter (opdDecodeBlock Config.s16) rs.length := by
    funext w
    rw [show rs.length = (rs.flatMap plainValues).length / 128 by omega]
    exact forPages_iter (opdDecodeBlock Config.s16) (by decide) (by decide) h128 w
  have hpages := decodesTo_plainRecords s.params Config.s16 hrs
  rw [← hloop] at hpages
  refine uncompress_completes hpages hs hinlen h128 (by omega) ⟨?_, ?_⟩ (by omega)
  · rwa [hlen]
  · rw [List.length_cons]
    omega

end Sys2Proof.Machine
end

section
/-! PROOFS. Where an OptPFD block raises: a payload too long to encode, a payload the coder cannot decode,
and the checks of the patch step (44_optpfd.md R212, R221 to R223; 60_exceptions.md R256). -/

namespace Sys2Proof.Machine

/-! ### The encoder -/

/-- Settles O52: the block's selection and payload do not depend on scratch, so the check after them is
that of `optPayload`. -/
theorem opdBlockOverlongPayloadFaults : Obligations.OpdBlockOverlongPayloadFaults := by
  intro S w blk hlen hsrc hbound hlong
  have htake : w.takeSrc 128 = .ok (blk, w.took 128) := hlen ▸ takeSrc_of_sees ⟨hsrc, by rwa [hlen]⟩
  have hcheck (v : Work) := check_of_not (not_le.2 hlong) v .s16Fault (optPayload S blk).length
  refine ⟨⟨.s16Fault, (optPayload S blk).length, (w.took 128).s.tick⟩, ?_, rfl, rfl⟩
  simp only [opdEncodeBlock, htake, ok_bind, opdSelect_fst, opdPayload_stage S hlen, hcheck, error_bind]
  rfl

/-! ### The payload -/

/-- Taking no words, or words that `SRC` has and holds. -/
theorem takeSrc_of_holds {w : Work} {ws : List Word}
    (hbound : ws.length = 0 ∨ w.ip + ws.length ≤ w.s.params.srcLen.toNat)
    (h : Arr.Holds w.s.src w.ip ws) : w.takeSrc ws.length = .ok (ws, w.took ws.length) :=
  takeSrc_eq_ok.2 ⟨hbound, by rw [readWords_of_holds _ _ _ _ h]; rfl⟩

section
variable {S : S16} {n es : Nat} {w w1 : Work} {pl : List Word}

/-- Without exceptions there is no payload (R221). -/
theorem loadPayload_zero (S : S16) (es : Nat) (w : Work) : loadPayload S 0 es w = .ok w :=
  if_neg (Nat.lt_irrefl 0)

theorem loadPayload_srcBounds (hn : 0 < n) (hes : 0 < es)
    (hsrc : w.s.params.srcLen.toNat < w.ip + es) :
    loadPayload S n es w = .error ⟨.srcBounds, w.ip + es - 1, w.s.tick⟩ := by
  rw [loadPayload, if_pos hn, takeSrc_eq_error.2 ⟨by omega, rfl⟩, error_bind]

/-- The coder fails on the payload (R223). -/
theorem loadPayload_s16Fault (hn : 0 < n) (htake : w.takeSrc es = .ok (pl, w1))
    (hnone : S.uncompress pl es (2 * n) = none) :
    loadPayload S n es w = .error ⟨.s16Fault, es, w1.s.tick⟩ := by
  simp only [loadPayload, hn, if_true, htake, ok_bind, hnone]
  rfl

/-- The coder decodes the payload, which fills `EB` from its start on (R221). -/
theorem loadPayload_decoded (hn : 0 < n) (htake : w.takeSrc es = .ok (pl, w1))
    {r : Vector Word (2 * n)} (hsome : S.uncompress pl es (2 * n) = some r) :
    loadPayload S n es w =
      .ok (w1.onScratch fun sc => { sc with eb := sc.eb.write 0 r.toList }) := by
  simp only [loadPayload, hn, if_true, htake, ok_bind, hsome]

/-- Past an accepted header a block loads its payload, and a fault there is the block's (R221). -/
theorem opdDecodeBlock_of_loadPayload_error {h : Word} {besti : Nat} {e : Trap}
    (hhead : w.s.Sees w.ip [h]) (hfields : headerFields h = (besti, n, es))
    (hok : headerOk besti n es = true) (hfault : loadPayload S n es (w.took 1) = .error e) :
    opdDecodeBlock S w = .error e := by
  have hcheck : (w.took 1).check (headerOk besti n es) .badOptHeader h.toNat = .ok () :=
    check_eq_ok.2 hok
  simp only [opdDecodeBlock, takeSrc1_of_sees hhead, ok_bind, hfields]
  rw [hcheck, ok_bind, hfault, error_bind]

/-- A page of at least one block ends in the fault of its first block (R220). -/
theorem opdDecodePage_of_first_error {e : Trap} (hn : 128 ≤ n) (hfault : opdDecodeBlock S w = .error e) :
    opdDecodePage S n w = .error e := by
  obtain ⟨k, hk⟩ := Nat.exists_eq_succ_of_ne_zero (show n / 128 ≠ 0 by omega)
  rw [opdDecodePage, hk, iter_succ, hfault, error_bind]

theorem headerOk_of_exceptions {besti : Nat} (hbesti : besti ≤ 15) (hpos : 1 ≤ n) (hn : n ≤ 128) :
    headerOk besti n es = true := by
  rw [← Bool.not_eq_false, headerOk_eq_false_iff]
  omega

end

/-- A page command whose page procedure raises past its start (R251(d)). -/
theorem page_lateFault {page : Nat → Work → Except Trap Work} {limit k : Nat} {s : State}
    {ip op info : Word} {c : Cause} (hs : s.ready ip op) (hsize : s.thissize.toNat ≤ limit)
    (hc : causeIsEarly c = false) (hpage : page s.thissize.toNat s.start = .error ⟨c, info.toNat, k⟩) :
    ∃ t, runCommand s (pageBody page limit) = .next t ∧ s.LateFault t op.toNat (causeCode c) info :=
  runCommand_lateFault hs hc (by rw [pageBody, checkThissize_ok hsize, ok_bind, hpage, error_bind])

/-- The coder fails on the payload of the first block of a page (R223). -/
theorem opdDecpage_s16Fault {S : S16} {s : State} {ip op h : Word} {pl : List Word} {besti n es : Nat}
    (hs : s.ready ip op) (hpos : 128 ≤ s.thissize.toNat) (hsize : s.thissize.toNat ≤ 65536)
    (hsees : s.Sees ip.toNat (h :: pl)) (hfields : headerFields h = (besti, n, es))
    (hok : headerOk besti n es = true) (hn : 0 < n) (hlen : pl.length = es) (hes : es < 2 ^ 32)
    (hnone : S.uncompress pl es (2 * n) = none) :
    ∃ t, runCommand s (opdDecpageBody S) = .next t ∧
      s.LateFault t op.toNat 13 (BitVec.ofNat 32 es) := by
  obtain ⟨hhead, hpayload⟩ := sees_cons (start_sees (d := 0) hs.2.1 hsees)
  have htake : (s.start.took 1).takeSrc es = .ok (pl, (s.start.took 1).took es) :=
    hlen ▸ takeSrc_of_sees (hpayload.took 1)
  have hinfo : (BitVec.ofNat 32 es).toNat = es := by rw [BitVec.toNat_ofNat, Nat.mod_eq_of_lt hes]
  have hfault := loadPayload_s16Fault hn htake hnone
  have hpage := opdDecodePage_of_first_error hpos
    (opdDecodeBlock_of_loadPayload_error hhead hfields hok hfault)
  exact page_lateFault (page := opdDecodePage S) (limit := Config.opdPageSize) (c := .s16Fault) hs hsize
    rfl (by rw [hpage, hinfo])

/-- Settles O57: the four ends of the payload, then the way of the coder's failure out of the first block
of a page. -/
theorem opdPayloadIsDecodedOrFaults : Obligations.OpdPayloadIsDecodedOrFaults := by
  intro S
  refine ⟨fun n es w => ⟨fun hn => ?_, fun hn hes hsrc => ?_, fun pl hn hbound hlen hheld =>
    ⟨fun hnone => ?_, fun r hsome => ?_⟩⟩, ?_⟩
  · rw [hn, loadPayload_zero]
  · exact ⟨_, loadPayload_srcBounds hn hes hsrc, rfl, rfl⟩
  · subst hlen
    exact ⟨_, loadPayload_s16Fault hn (takeSrc_of_holds hbound hheld) hnone, rfl, rfl⟩
  · subst hlen
    refine ⟨_, loadPayload_decoded hn (takeSrc_of_holds hbound hheld) hsome, rfl, rfl, rfl,
      fun j hj => ?_, fun j hj => get?_write_outside _ (.inr (by simpa using hj))⟩
    have hwritten := holds_write w.s.scratch.eb 0 r.toList j (by simpa using hj)
    rwa [Nat.zero_add] at hwritten
  · intro s ip op h pl hs hpos hsize hhead besti n es hbesti h1 hn hlen hheld hbound hnone
    have hes : es < 2 ^ 16 := (h.extractLsb' 16 16).isLt
    exact opdDecpage_s16Fault hs hpos hsize
      ⟨holds_cons.2 ⟨hhead, hheld⟩, by rw [List.length_cons]; omega⟩ (headerFields_eq_extract h)
      (headerOk_of_exceptions hbesti h1 hn) h1 hlen (by omega) hnone

/-! ### The patches -/

/-- A patch step checks the position in `EB`, then ORs the payload in `EB` into its place (R222). -/
theorem opdPatch_eq {w : Work} {n k : Nat} {pos v : Word} (hpos : w.s.scratch.eb.get? (n + k) = some pos)
    (hv : w.s.scratch.eb.get? k = some v) (b : Nat) :
    opdPatch n b k w = (w.check (decide (pos.toNat < 128)) .badPosition pos.toNat >>= fun _ =>
      orDst (w.op + pos.toNat) (shl32 v b) w) := by
  rw [opdPatch, ebAt_of_get? hpos, ebAt_of_get? hv]

/-- Settles O58: the position check, then the two ends of the OR. -/
theorem opdPatchOrsThePayload : Obligations.OpdPatchOrsThePayload := by
  intro w n b k pos v x hpos hv
  have hstep := opdPatch_eq hpos hv b
  refine ⟨fun hbad => ?_, fun hlt hbound => ?_, fun hlt hroom hx => ?_⟩
  · exact ⟨_, by rw [hstep, check_of_not (not_lt.2 hbad), error_bind], rfl, rfl⟩
  · exact ⟨_, by rw [hstep, check_of hlt, ok_bind, orDst_dstBounds _ hbound], rfl, rfl⟩
  · rw [check_of hlt, ok_bind, orDst_ok _ hroom hx] at hstep
    refine ⟨_, hstep, rfl, rfl, rfl, ?_, fun i hi => get?_write_outside _ hi⟩
    exact (get?_write_one _ _ _ _).trans (if_pos rfl)

end Sys2Proof.Machine
end

section
/-! PROOFS. The system command and the host's port: a step with a pending action, register reads and
writes, and `SRESET` (45_system.md R240 to R243; 30_encoding.md R70 to R73). -/

namespace Sys2Proof.Machine

/-! ### Command issue -/

/-- A word that decodes to a command runs it (R243). -/
theorem issueCommand_of_decode {c : Word} {i : Instr} (h : decode c = .command i) (s : State) :
    issueCommand c s = exec i s := by
  rw [issueCommand, h]

/-- Number 0 is `CMD` (R242, R243). -/
@[simp] theorem hostAction_wr_zero (c : Word) (s : State) :
    hostAction (.wr 0 c) s = issueCommand c s := by
  rw [hostAction, if_pos rfl]

/-- A step at the state `withFetchWord` prepares issues the word it was given (log entry 6). -/
theorem step_withFetchWord (s : State) (c : Word) :
    step (s.withFetchWord 32 c.toNat) = issueCommand c s := by
  have hword : BitVec.ofNat 32 (c.toNat % 2 ^ 32) = c := by
    rw [Nat.mod_eq_of_lt c.isLt, BitVec.ofNat_toNat, BitVec.setWidth_eq]
  calc step (s.withFetchWord 32 c.toNat)
      = hostAction (.wr 0 (BitVec.ofNat 32 (c.toNat % 2 ^ 32))) s := step_of_host rfl
    _ = issueCommand c s := by rw [hword, hostAction_wr_zero]

/-- Settles O6: a step performs the pending action, and an issued word runs what it decodes to. -/
theorem stepRunsDecodedCommand : Obligations.StepRunsDecodedCommand :=
  ⟨fun _ _ _ => step_of_host,
    fun _ c _ _ hhost hdec => by
      rw [step_of_host hhost, hostAction_wr_zero, issueCommand_of_decode hdec],
    fun s _ hi => by rw [step_withFetchWord, issueCommand_of_decode (decode_encode hi)]⟩

/-! ### Register reads -/

/-- A read of `STATUS` shows the flag `FAULT` alone (10_state.md R25). -/
theorem statusRead_eq_ite (s : State) : s.statusRead = if s.faulted then 1 else 0 := by
  have hbit : s.statusRead = (BitVec.ofBool s.faulted).setWidth 32 :=
    BitVec.and_one_eq_setWidth_ofBool_getLsbD
  rw [hbit]
  cases s.faulted <;> rfl

@[simp] theorem read_known (v free : Word) : (Content.known v).read free = v := rfl

/-- `CMD` and the numbers from 14 on read 0 (R241; 10_state.md R29). -/
theorem readReg_eq_zero {r : Nat} (hr : r = 0 ∨ 14 ≤ r) (free : Word) (s : State) :
    readReg r free s = 0 := by
  unfold readReg
  split
  case h_14 => rfl
  all_goals omega

/-- Settles O11: the answer changes the model's own record alone, and each register has its value. -/
theorem registerReadsReturnTheirValues : Obligations.RegisterReadsReturnTheirValues := by
  intro s r
  refine ⟨_, rfl, rfl, fun hr => readReg_eq_zero hr _ s, ?_⟩
  simp only [answer_rdata]
  refine ⟨?status, ?fcause, ?finfo, ?inpos, ?outpos, ?inlen, ?thissize, ?bestb, ?cexcept, ?maxb,
    ?pageSize, ?srcLen, ?dstLen⟩
  case status =>
    rintro rfl
    exact statusRead_eq_ite s
  case pageSize =>
    rintro rfl
    exact toNat_ofNat_pageSize s.params
  case inpos | outpos | bestb | cexcept | maxb =>
    rintro v rfl hv
    simp [readReg, hv]
  case fcause | finfo | inlen | thissize | srcLen | dstLen =>
    rintro rfl
    rfl

/-! ### Register writes -/

/-- Only the numbers 4 to 7 take a value (R242; 10_state.md R23). -/
theorem writeReg_eq_ite (r : Nat) (v : Word) (s : State) : writeReg r v s =
    if r = 4 then { s with inpos := .known v }
    else if r = 5 then { s with outpos := .known v }
    else if r = 6 then { s with inlen := v }
    else if r = 7 then { s with thissize := v }
    else s := by
  unfold writeReg
  split
  case h_5 h4 h5 h6 h7 => rw [if_neg h4, if_neg h5, if_neg h6, if_neg h7]
  all_goals rfl

/-- Settles O12: a write to `CMD` is command issue, any other is `writeReg`. -/
theorem registerWritesStoreOrChangeNothing : Obligations.RegisterWritesStoreOrChangeNothing :=
  fun s => ⟨fun r v hr => by rw [hostAction, if_neg hr, writeReg_eq_ite],
    fun v => hostAction_wr_zero v s,
    fun _ hr => ⟨_, rfl, readReg_eq_zero hr _ s⟩⟩

/-! ### `SRESET` -/

/-- `OPC = 0x01` is in one row of the opcode table (30_encoding.md R72). -/
theorem eq_sreset_of_opcode {i : Instr} (h : i.opcode = 1) : i = .sreset := by
  cases i with
  | sreset => rfl
  | _ => simp [Instr.opcode] at h

/-- A word with `OPC = 0x01` and any other bit set is no command (30_encoding.md R73). -/
theorem decode_ne_command_of_opc_one {c : Word} (ho : Field.opc c = 1) (hc : c ≠ 1) (i : Instr) :
    decode c ≠ .command i := by
  intro hdec
  have hopcode : i.opcode = 1 := by rw [← opc_encode, encode_of_decode hdec, ho]
  rw [eq_sreset_of_opcode hopcode] at hdec
  exact hc (eq_one_of_decode_sreset hdec)

/-- A faulted block does nothing on a word that decodes to no command (60_exceptions.md R252). -/
theorem issueCommand_illegal_faulted {c : Word} {s : State} (hs : s.faulted = true)
    (hc : ∀ i, decode c ≠ .command i) : issueCommand c s = .next s := by
  unfold issueCommand
  split
  · next i hi => exact absurd hi (hc i)
  · exact runCommand_faulted hs

/-- Besides hardware reset only the word of `SRESET` leaves the faulted state (R240), read off the step
that takes the action from the head of the list. -/
theorem isReset_of_hostAction_clears {s t : State} {op : HostOp} (hs : s.faulted = true)
    (h : hostAction op s = .next t) (ht : t.faulted = false) : op = .hardReset ∨ op = .wr 0 1 := by
  have hstep : step { s with host := op :: s.host } = .next t := (step_of_host rfl).trans h
  rcases onlyResetLeavesTheFaultedState { s with host := op :: s.host } t hs hstep with ⟨hfaulted, _⟩ | ⟨rest, hhost⟩
  · exact absurd hfaulted (by simp [ht])
  · exact hhost.imp List.head_eq_of_cons_eq List.head_eq_of_cons_eq

/-- Settles O9: `SRESET` resets whatever the state, `1` is its only word, and no other action of the
host but hardware reset clears a fault. -/
theorem sresetRestoresTheResetState : Obligations.SresetRestoresTheResetState := by
  refine ⟨fun s => ⟨_, exec_sreset s, softReset_resetOf s⟩, fun c => ⟨eq_one_of_decode_sreset, ?_⟩,
    fun s c ho hc => ?_, fun s t op => isReset_of_hostAction_clears⟩
  · rintro rfl
    exact decode_encode (i := .sreset) rfl
  · have hnone := decode_ne_command_of_opc_one ho hc
    cases hs : s.faulted with
    | true => exact issueCommand_illegal_faulted hs hnone
    | false => exact issueCommand_illegal hs hnone

end Sys2Proof.Machine
end

section
/-! PROOFS. Exceptions: taking a fault, the state it leaves, refusal while faulted, and the next state of
every command (60_exceptions.md R250 to R254). -/

namespace Sys2Proof.Machine

/-! ### The state after a fault -/

/-- The codes of the two causes of R251(c) (60_exceptions.md R253). -/
theorem causeIsEarly_iff_causeCode (c : Cause) :
    causeIsEarly c = true ↔ causeCode c = 1 ∨ causeCode c = 12 := by
  cases c <;> decide

/-- A fault raised before anything is read or written leaves what R251(c) says. -/
theorem takeFault_afterEarlyFault (s : State) {e : Trap} (he : causeIsEarly e.cause = true) :
    takeFault s e = s.afterEarlyFault (causeCode e.cause) (BitVec.ofNat 32 e.info) :=
  takeFault_early he

/-- A command word that leaves an unfaulted block faulted has raised a fault: it has neither reset, nor
been refused, nor completed, since completion keeps `STATUS`. -/
theorem issueCommand_takes_fault {c : Word} {s t : State} (hs : s.faulted = false)
    (h : issueCommand c s = .next t) (ht : t.faulted = true) : ∃ e, t = takeFault s e := by
  rcases issueCommand_cases h with ⟨_, rfl⟩ | ⟨hf, _⟩ | ⟨_, _, _, hdone⟩ | ⟨_, hfault⟩
  · exact absurd ht (by simp)
  · exact absurd hf (by simp [hs])
  · have hstatus : t.status = s.status := (congrArg State.status hdone.kept :)
    rw [faulted_of_status hstatus, hs] at ht
    cases ht
  · exact hfault

/-- Settles O19: the fault taken is early or late by its cause, and the codes tell the two apart. -/
theorem faultLeavesExactlyWhatIsStated : Obligations.FaultLeavesExactlyWhatIsStated := by
  intro c s t o hs ho h ht
  obtain ⟨e, rfl⟩ := issueCommand_takes_fault hs h ht
  obtain ⟨hpos, hle⟩ := causeCode_range e.cause
  refine ⟨causeCode e.cause, BitVec.ofNat 32 e.info, hpos, hle, fun hearly => ?_, fun hlate => ?_⟩
  · exact takeFault_afterEarlyFault s ((causeIsEarly_iff_causeCode _).2 hearly)
  · have he : causeIsEarly e.cause = false := by
      rw [← Bool.not_eq_true, causeIsEarly_iff_causeCode, not_or]
      exact hlate
    exact start_op_known s o ho ▸ takeFault_lateFault s he

/-! ### The record of a fault -/

/-- Early or late, a fault taken is recorded with its code and information (60_exceptions.md R250). -/
theorem takeFault_records (s : State) (e : Trap) :
    (takeFault s e).fcause = BitVec.ofNat 32 (causeCode e.cause) ∧
      (takeFault s e).finfo = BitVec.ofNat 32 e.info := by
  cases he : causeIsEarly e.cause with
  | true =>
    rw [takeFault_afterEarlyFault s he]
    exact ⟨rfl, rfl⟩
  | false =>
    have hlate := takeFault_lateFault s he
    exact ⟨hlate.fcause, hlate.finfo⟩

/-- Settles O20: the frame takes the fault the body raises; the codes are the table of R253. -/
theorem faultRecordsItsCauseAndInfo : Obligations.FaultRecordsItsCauseAndInfo :=
  ⟨fun s _ e hs hbody =>
      ⟨takeFault s e, runCommand_error hs hbody, takeFault_faulted s e, takeFault_records s e⟩,
    rfl, rfl, rfl, rfl, rfl, rfl, rfl, rfl, rfl, rfl, rfl, rfl, rfl⟩

/-- A body that raises `ILLEGAL_COMMAND` with a word faults with that word and does nothing else (R73). -/
theorem runCommand_illegalCommand {s : State} {body : State → Except Trap State} {c : Word}
    (hs : s.faulted = false) (hbody : body s = illegalCommand c s) :
    runCommand s body = .next (s.afterEarlyFault 1 c) := by
  rw [runCommand_error hs hbody, takeFault_afterEarlyFault s rfl, BitVec.ofNat_toNat,
    BitVec.setWidth_eq]
  rfl

/-- Settles O5: past 32 the body of either command is the raise alone (log entry 12). -/
theorem widthAbove32IsIllegal : Obligations.WidthAbove32IsIllegal := by
  intro s k hs hk
  rw [exec_eq_runCommand (by simp), exec_eq_runCommand (by simp)]
  exact ⟨runCommand_illegalCommand hs (if_pos hk), runCommand_illegalCommand hs (if_pos hk)⟩

/-! ### The faulted block -/

/-- A faulted block does nothing on any word but that of `SRESET`, whether it decodes to a command or not
(60_exceptions.md R252). -/
theorem issueCommand_refused {c : Word} {s : State} (hs : s.faulted = true) (hc : c ≠ 1) :
    issueCommand c s = .next s := by
  cases hdec : decode c with
  | command i =>
    have hi : i ≠ .sreset := fun hi => hc (eq_one_of_decode_sreset (hi ▸ hdec))
    rw [issueCommand_of_decode hdec, exec_eq_runCommand hi, runCommand_faulted hs]
  | illegal e => exact issueCommand_illegal_faulted hs (by simp [hdec])

/-- The word `1` resets the block in every state (45_system.md R240). -/
theorem issueCommand_one (s : State) : issueCommand 1 s = .next (softReset s) :=
  (issueCommand_of_decode (decode_encode (i := .sreset) rfl) s).trans (exec_sreset s)

/-- Settles O7: only `SRESET` gets past the frame's refusal, and register access does not ask for
`STATUS.FAULT`. -/
theorem faultedBlockRefuses : Obligations.FaultedBlockRefuses := fun s hs =>
  ⟨fun _ => issueCommand_refused hs,
    ⟨softReset s, issueCommand_one s, softReset_resetOf s⟩,
    fun _ _ hr => if_neg hr,
    fun r => ⟨s.answer (readReg r (Config.freeWord s.tick) s), rfl, answer_rdata s _⟩⟩

/-! ### Every command ends in a next state -/

/-- The frame answers a next state whatever its body does (60_exceptions.md R250, R252). -/
theorem runCommand_eq_next (s : State) (body : State → Except Trap State) :
    ∃ t, runCommand s body = .next t := by
  cases hs : s.faulted with
  | true => exact ⟨s, runCommand_faulted hs⟩
  | false =>
    cases hbody : body s with
    | ok t => exact ⟨t, runCommand_ok hs hbody⟩
    | error e => exact ⟨takeFault s e, runCommand_error hs hbody⟩

/-- Settles O16: `SRESET` resets, and every other command runs in the frame. -/
theorem everyCommandAnswersANextState : Obligations.EveryCommandAnswersANextState := by
  intro i s
  by_cases hi : i = .sreset
  · subst hi
    exact ⟨softReset s, exec_sreset s⟩
  · rw [exec_eq_runCommand hi]
    exact runCommand_eq_next s (commandBody i)

end Sys2Proof.Machine
end
